-- ==== Sys2Proof/Word.lean ====
section
/-! DEFINITION. The word types of the block: widths only (rules R6, R8, R10 of `00_scope.md`). -/

namespace Sys2Proof

/-- A host data word, and a command word: 32 bits (R8). -/
abbrev Word := BitVec 32

/-- One 8-bit container: a lane of `BUF`, a name byte, `BEHAV`, `CHK` (R20). -/
abbrev Byte := BitVec 8

/-- A host word address, `0x00` to `0x7F` (R8, R50). -/
abbrev Addr := BitVec 7

/-- A glyph code: one 21-bit Unicode scalar, compared for equality only (R10). -/
abbrev Glyph := BitVec 21

/-- The value of a symbol, 0 to 63 (R6). -/
abbrev SymbolValue := BitVec 6

/-- A checksum nibble, 0 to 15 (R6, R135). -/
abbrev Nibble := BitVec 4

end Sys2Proof
end

