-- ==== Sys2Proof/Syntax.lean ====
section
/-! DEFINITION. The commands: one constructor per row of `spec/opcode_table.json` (rule R74 of
`30_encoding.md`), with its operands as R73 assembles them. -/

namespace Sys2Proof

/-- The twenty commands of R74. -/
inductive Instr where
  | nop
  | clr
  | clrerr
  | clrbuf
  | c2v (glyph : Glyph)
  | v2c (imm : BitVec 8)
  | pushc (glyph : Glyph)
  | pushb (imm : BitVec 8)
  | rdsym (imm : BitVec 8)
  | deciph
  | enciph
  | cksum
  | ckvfy
  | ckwr (imm : BitVec 8)
  | bfrd (off len : BitVec 7) (rev : Bool)
  | bfwr (off len : BitVec 7) (rev : Bool)
  | unpack
  | pack
  | load
  | encode
  deriving DecidableEq, Repr

/-- The four operand formats of R71; each carries the command it builds from its operands. -/
inductive Shape where
  /-- Format Z: no operand. -/
  | formatZ (cmd : Instr)
  /-- Format I: `imm8`. -/
  | formatI (build : BitVec 8 → Instr)
  /-- Format G: `glyph`. -/
  | formatG (build : Glyph → Instr)
  /-- Format F: `off`, `len`, `rev`. -/
  | formatF (build : BitVec 7 → BitVec 7 → Bool → Instr)

/-- Why a word is no command (R72, R75). The host write that carries it raises `IllegalOperation`. -/
inductive BadWord where
  /-- R72 step 1: the opcode is not in the map. -/
  | unknownOpcode
  /-- R72 step 2: a bit that must be zero is 1. -/
  | zeroBitSet
  deriving DecidableEq, Repr

end Sys2Proof
end

