-- ==== Sys2Proof/WellFormed.lean ====
section
/-! DEFINITION. Which commands are well-formed. Every operand's type is exactly as wide as its field
(R71, R73), and R73 and R72 step 3 leave every operand value encodable: range checks beyond the zero bits belong
to the command's own rule and raise an error there. So no term of `Instr` is ill-formed; what can be
ill-formed is a WORD, and the decoder refuses that by name (R72; the refusals are tested in `Tests/Slice0.lean`). -/

namespace Sys2Proof

/-- A command is well-formed when its operands fit their fields: 21 bits for `glyph`, 8 for `imm8`,
7 each for `off` and `len`, 1 for `rev` (R71). The types already say so, constructor by constructor. -/
def Instr.wellFormed : Instr → Bool
  | .nop | .clr | .clrerr | .clrbuf => true
  | .c2v g | .pushc g => decide (g.toNat < 2 ^ 21)
  | .v2c m | .pushb m | .rdsym m | .ckwr m => decide (m.toNat < 2 ^ 8)
  | .deciph | .enciph | .cksum | .ckvfy => true
  | .bfrd o l _ | .bfwr o l _ => decide (o.toNat < 2 ^ 7) && decide (l.toNat < 2 ^ 7)
  | .unpack | .pack | .load | .encode => true

end Sys2Proof
end

