-- ==== Sys2Proof/Decode.lean ====
section
/-! DEFINITION. The decoder and the encoder of command words (rules R70 to R75 of `30_encoding.md`). -/

namespace Sys2Proof

/-- The opcode map of R74: opcode byte to the command and its operand format. -/
def shapeOf (op : BitVec 8) : Option Shape :=
  match op.toNat with
  | 0x00 => some (.formatZ .nop)
  | 0x01 => some (.formatZ .clr)
  | 0x02 => some (.formatZ .clrerr)
  | 0x03 => some (.formatZ .clrbuf)
  | 0x10 => some (.formatG .c2v)
  | 0x11 => some (.formatI .v2c)
  | 0x12 => some (.formatG .pushc)
  | 0x13 => some (.formatI .pushb)
  | 0x14 => some (.formatI .rdsym)
  | 0x20 => some (.formatZ .deciph)
  | 0x21 => some (.formatZ .enciph)
  | 0x30 => some (.formatZ .cksum)
  | 0x31 => some (.formatZ .ckvfy)
  | 0x32 => some (.formatI .ckwr)
  | 0x40 => some (.formatF .bfrd)
  | 0x41 => some (.formatF .bfwr)
  | 0x50 => some (.formatZ .unpack)
  | 0x51 => some (.formatZ .pack)
  | 0x52 => some (.formatZ .load)
  | 0x53 => some (.formatZ .encode)
  | _ => none

/-- Whether the must-be-zero bits of the format are zero in `w` (R71). -/
def Shape.zeroBitsClear (w : Word) : Shape → Bool
  | .formatZ _ => w.extractLsb' 0 24 == 0
  | .formatI _ => w.extractLsb' 8 16 == 0
  | .formatG _ => w.extractLsb' 21 3 == 0
  | .formatF _ => w.extractLsb' 15 9 == 0

/-- Operand assembly (R73): `imm8 = w[7:0]`, `glyph = w[20:0]`, `off = w[6:0]`, `len = w[13:7]`, `rev = w[14]`. -/
def Shape.instr (w : Word) : Shape → Instr
  | .formatZ cmd => cmd
  | .formatI build => build (w.extractLsb' 0 8)
  | .formatG build => build (w.extractLsb' 0 21)
  | .formatF build => build (w.extractLsb' 0 7) (w.extractLsb' 7 7) (w.getLsbD 14)

/-- Decoding a command word, in the order of R72: the opcode, the zero bits, the operands. -/
def decode (w : Word) : Except BadWord Instr :=
  match shapeOf (w.extractLsb' 24 8) with
  | none => .error .unknownOpcode
  | some shape => if shape.zeroBitsClear w then .ok (shape.instr w) else .error .zeroBitSet

/-- A word of format Z (R71). -/
def wordZ (op : BitVec 8) : Word := op ++ 0#24

/-- A word of format I (R71). -/
def wordI (op imm : BitVec 8) : Word := op ++ 0#16 ++ imm

/-- A word of format G (R71). -/
def wordG (op : BitVec 8) (glyph : Glyph) : Word := op ++ 0#3 ++ glyph

/-- A word of format F (R71). -/
def wordF (op : BitVec 8) (off len : BitVec 7) (rev : Bool) : Word :=
  op ++ 0#9 ++ BitVec.ofBool rev ++ len ++ off

/-- The word of a command (R71, R74). -/
def encode : Instr → Word
  | .nop => wordZ 0x00
  | .clr => wordZ 0x01
  | .clrerr => wordZ 0x02
  | .clrbuf => wordZ 0x03
  | .c2v glyph => wordG 0x10 glyph
  | .v2c imm => wordI 0x11 imm
  | .pushc glyph => wordG 0x12 glyph
  | .pushb imm => wordI 0x13 imm
  | .rdsym imm => wordI 0x14 imm
  | .deciph => wordZ 0x20
  | .enciph => wordZ 0x21
  | .cksum => wordZ 0x30
  | .ckvfy => wordZ 0x31
  | .ckwr imm => wordI 0x32 imm
  | .bfrd off len rev => wordF 0x40 off len rev
  | .bfwr off len rev => wordF 0x41 off len rev
  | .unpack => wordZ 0x50
  | .pack => wordZ 0x51
  | .load => wordZ 0x52
  | .encode => wordZ 0x53

/-- The command word whose table bits are `w`; a command is one 32-bit word (R70), so bits above it are dropped. -/
def wordOfTable (nbits w : Nat) : Word := BitVec.ofNat 32 (w % 2 ^ nbits)

/-- The host's question: the command that the decoder reads from table bits `w`. -/
def decodeTableWord (nbits w : Nat) : Option Instr :=
  match decode (wordOfTable nbits w) with
  | .ok i => some i
  | .error _ => none

end Sys2Proof
end

