-- ==== Sys2Proof/Config.lean ====
section
/-! DEFINITION. What an implementation fixes: the two ROMs `ALPHA` and `KEY` and the whitespace set `WS`
(rule R7 of `00_scope.md`). Their contents are open, so they stand behind constants without a body.
`PADCH`, the one parameter with a fixed value, is `Machine.padch` in `Machine/Layout.lean`. -/

namespace Sys2Proof

/-- `Region` (R9): it selects the alphabet and the cipher key table. -/
inductive Region where
  /-- Japan, register encoding 0. -/
  | jp
  /-- United States and PAL, register encoding 1. -/
  | usPal
  deriving DecidableEq, Repr

/-- The region the hint of R107 searches: `other(JP) = US_PAL`, `other(US_PAL) = JP`. -/
def Region.other : Region → Region
  | .jp => .usPal
  | .usPal => .jp

/-- The open parameters of R7. -/
structure Config where
  /-- `ALPHA[r][v]`, 64 glyphs per region. -/
  alpha : Region → SymbolValue → Glyph
  /-- `KEY[r][i]`, 48 entries per region; an entry is below 64 by its type (decision D7). -/
  key : Region → Fin 48 → BitVec 6
  /-- What an index past the 48 entries would read. The spec gives no such entry and R120 shows that no
  reachable state asks for one; it is a free value (log entry 4), so that no claim can lean on a number. -/
  offRom : Region → Nat → BitVec 6
  /-- `WS`, the glyphs that `PUSHC` discards. -/
  ws : List Glyph

namespace Config

/-- The glyphs of one region in the order of their values. -/
def glyphs (c : Config) (r : Region) : List Glyph :=
  (List.range 64).map fun n => c.alpha r (BitVec.ofNat 6 n)

/-- The separator of a secret's text form, one literal space (R6, R105). -/
def separator : Glyph := 0x20

/-- The constraints of R7 on the open parameters, and no other: in each region the 64 glyphs are pairwise distinct and
none of them is in `WS`, and the two alphabets share a glyph. That a key entry is below 64 is in its type. -/
def legal (c : Config) : Bool :=
  decide (c.glyphs .jp).Nodup && decide (c.glyphs .usPal).Nodup &&
  (c.glyphs .jp).all (fun g => !c.ws.contains g) && (c.glyphs .usPal).all (fun g => !c.ws.contains g) &&
  (c.glyphs .jp).any (fun g => (c.glyphs .usPal).contains g)

/-- The default members of `WS` (R7): U+0009 to U+000D and U+0020. -/
def defaultWs : List Glyph := [0x09, 0x0A, 0x0B, 0x0C, 0x0D, 0x20]

/-- The alphabets as manufactured: open, no body (log entry 1). -/
opaque rawAlpha : Region → SymbolValue → Glyph

/-- The cipher key ROM as manufactured: open, no body (log entry 2). -/
opaque rawKey : Region → Fin 48 → BitVec 6

/-- What lies past the key ROM: open, no body (log entry 4). -/
opaque rawOffRom : Region → Nat → BitVec 6

/-- The whitespace set as configured: open, no body (log entry 3). -/
opaque rawWs : List Glyph

/-- The open constants as one configuration. -/
def raw : Config := { alpha := rawAlpha, key := rawKey, offRom := rawOffRom, ws := rawWs }

/-- Some configuration that meets `legal`, to stand in where the open constants would not meet it. -/
def someLegal : Config :=
  { raw with alpha := fun _ v => 0x100#21 + v.setWidth 21, ws := defaultWs }

/-- The configuration of this chip: the open constants, which R7 says are legal. Every legal
configuration is a possible value of `raw`, so a claim about `chip` is a claim about all of them. -/
def chip : Config := if raw.legal then raw else someLegal

end Config

end Sys2Proof
end

