-- ==== Sys2Proof/Machine/State.lean ====
section
/-! DEFINITION. The state of the block (rule R20 of `10_state.md`), the host port, the reset state, and the
reasons a step could stop for (there are none: rule R16). -/

namespace Sys2Proof.Machine

/-- The three formats (R23, R170). The bit pair `10` names none, so it has no constructor. -/
inductive Format where
  | game
  | ring
  | memory
  deriving DecidableEq, Repr

/-- `CTRL` (R23): its two fields. The register's eight bit patterns less the two with `FMT = 2`, which R23 refuses,
are exactly the values of this type; `Ctrl.bits` is the register as the host reads it. -/
structure Ctrl where
  /-- `REGION`, bit 0. -/
  region : Region
  /-- `FMT`, bits 2:1. -/
  fmt : Format
  deriving DecidableEq, Repr

/-- `STATUS` (R29): its four fields. -/
structure Status where
  /-- `ERR`, bits 2:0: the code of the most recent host write. -/
  err : BitVec 3
  /-- `RHINT`, bit 3: the region hint (R107). -/
  rhint : Bool
  /-- `EFMT`, bits 5:4: `FMT` at the most recent `DiscriminatorError`. -/
  efmt : BitVec 2
  /-- `EACC`, bits 14:8: `EACC[k]` is the sticky bit of error code `k`. -/
  eacc : BitVec 7
  deriving DecidableEq, Repr

/-- The field registers (R31 to R40): the typed secret value. -/
structure Fields where
  /-- `KEYSEL` (R31). -/
  keysel : BitVec 3
  /-- `GAMEID` (R32), legal values 0 to 32766. -/
  gameId : BitVec 15
  /-- `FLAGS` (R33): `HERO`, `TGT`, `FREERING`, `LINKED`, `RETURN` in bits 0 to 4. -/
  flags : BitVec 5
  /-- `BEHAV` (R34). -/
  behav : Byte
  /-- `COMPANION` (R36). -/
  companion : BitVec 4
  /-- `MEMORY` (R38), legal values 0 to 9. -/
  memory : BitVec 4
  /-- `RINGS` (R37). -/
  rings : BitVec 64
  /-- `LINK0` to `LINK4` (R39). -/
  link : Vector Byte 5
  /-- `CHILD0` to `CHILD4` (R40). -/
  child : Vector Byte 5
  deriving DecidableEq, Repr

/-- The two host transactions (R50). -/
inductive Transaction where
  /-- `HostWrite(a, d)`. -/
  | write (a : Addr) (d : Word)
  /-- `HostRead(a)`. -/
  | read (a : Addr)
  deriving DecidableEq, Repr

/-- The machine: every register of R20, and the host's side of its one port. -/
structure State where
  /-- `CTRL`, address `0x02` (R23). -/
  ctrl : Ctrl
  /-- `LEN`, address `0x03` (R24): the number of valid lanes, 0 to 20. -/
  len : Fin 21
  /-- `BUF[0..19]`, addresses `0x10` to `0x23` (R25). -/
  buf : Vector Byte 20
  /-- `DATA`, addresses `0x08` and `0x09` (R26). -/
  data : BitVec 64
  /-- `RES`, address `0x04` (R27). -/
  res : Word
  /-- `CHK`, address `0x05` (R28): `STOR` in bits 7:4, `CALC` in bits 3:0. -/
  chk : Byte
  /-- `STATUS`, address `0x01` (R29). -/
  status : Status
  /-- The field registers, addresses `0x30` to `0x44` (R31 to R40). -/
  fields : Fields
  /-- The MODEL's own field, not a register: the transactions the host will issue, the next one first (log entry 5). -/
  pending : List Transaction
  /-- The MODEL's own field, not a register: the words that host reads have returned, the latest first (log entry 5). -/
  replies : List Word
  deriving DecidableEq, Repr

/-- The error kinds of R210. -/
inductive ErrorKind where
  /-- Code 1. -/
  | lengthError
  /-- Code 2. -/
  | invalidSymbol
  /-- Code 3. -/
  | checksum
  /-- Code 4. -/
  | discriminator
  /-- Code 5. -/
  | fieldRange
  /-- Code 6. -/
  | illegalOperation
  deriving DecidableEq, Repr

/-- Reasons the machine stops with a fault: none. R16 makes every transaction a total function of the state, and
an error of R210 is a next state with its code in `STATUS`, so this type has no constructor. -/
inductive Fault where
  deriving DecidableEq, Repr

/-- Reasons a command has no meaning in the model. -/
inductive Refusal where
  /-- Raised by `exec`'s arm of a command without a meaning; no arm of this model does so. Safe: the model stops. -/
  | notModelled (mnemonic : String)
  deriving DecidableEq, Repr

/-- The field registers after reset (R47). -/
def Fields.reset : Fields :=
  { keysel := 0, gameId := 0, flags := 0, behav := 0, companion := 0, memory := 0, rings := 0,
    link := Vector.replicate 5 0, child := Vector.replicate 5 0 }

/-- The machine after reset (R47, R235): every register zero, that is region JP and format GAME. No transaction is
pending and none has been answered. -/
def State.reset : State :=
  { ctrl := { region := .jp, fmt := .game }, len := 0, buf := Vector.replicate 20 0, data := 0, res := 0, chk := 0,
    status := { err := 0, rhint := false, efmt := 0, eacc := 0 }, fields := Fields.reset,
    pending := [], replies := [] }

end Sys2Proof.Machine
end

