-- ==== Sys2Proof/Machine/Flags.lean ====
section
/-! DEFINITION. `STATUS` and the flags the host reads: error codes (rule R210 of `60_exceptions.md`), the register
images of `STATUS` (R29) and `BEHCLS` (R35). The block has no arithmetic condition codes (R45). -/

namespace Sys2Proof.Machine

/-- The code of an error kind (R210). Code 0 is success and code 7 is never produced. -/
def ErrorKind.code : ErrorKind → BitVec 3
  | .lengthError => 1
  | .invalidSymbol => 2
  | .checksum => 3
  | .discriminator => 4
  | .fieldRange => 5
  | .illegalOperation => 6

/-- `STATUS` after a host write that raised `k` (R216): `ERR` takes the code and `EACC[code]` is set. -/
def Status.fail (k : ErrorKind) (st : Status) : Status :=
  { st with err := k.code, eacc := st.eacc ||| (1#7 <<< k.code.toNat) }

/-- `STATUS` after a host write that raised nothing (R29): `ERR` is 0, the sticky bits stay. -/
def Status.pass (st : Status) : Status := { st with err := 0 }

/-- `STATUS` as the host reads it (R29): `EACC` in 14:8, `EFMT` in 5:4, `RHINT` in 3, `ERR` in 2:0, zero elsewhere. -/
def Status.image (st : Status) : Word :=
  0#17 ++ st.eacc ++ 0#2 ++ st.efmt ++ BitVec.ofBool st.rhint ++ st.err

/-- `BEHCLS` (R35): NONE = 0, CURIOUS = 1, SHY = 2, BOUNCY = 3. -/
def behClass (behav : Byte) : BitVec 2 :=
  if behav.toNat = 0 then 0
  else if behav.toNat ≤ 5 then 1
  else if behav.toNat ≤ 10 then 2
  else 3

end Sys2Proof.Machine
end

