-- ==== Sys2Proof/Machine/Operands.lean ====
section
/-! DEFINITION. Where commands take their operands from: the fields of `CTRL` (rule R23 of `10_state.md`), the byte
array `BUF[0..LEN-1]` (R24, R25, R58), and slices of a register. -/

namespace Sys2Proof.Machine

/-- `REGION` as bit 0 of `CTRL`: JP = 0, US_PAL = 1 (R9). -/
def regionBit : Region → Bool
  | .jp => false
  | .usPal => true

/-- `FMT`: the format's discriminator pair as a number, position 3 the high bit (R23, R170). -/
def Format.bits : Format → BitVec 2
  | .game => 0
  | .ring => 1
  | .memory => 3

/-- The format of a discriminator pair; `10` names none (R23, R170). -/
def Format.ofBits (b : BitVec 2) : Option Format :=
  if b = 0 then some .game else if b = 1 then some .ring else if b = 3 then some .memory else none

/-- The total bytes `N(FMT)` of a format (R170). -/
def Format.size : Format → Nat
  | .game => 20
  | .ring => 15
  | .memory => 5

/-- `CTRL` as the host reads it (R23): `FMT` in 2:1, `REGION` in 0. -/
def Ctrl.bits (c : Ctrl) : BitVec 3 := c.fmt.bits ++ BitVec.ofBool (regionBit c.region)

/-- What a host write of `b` puts into `CTRL`; none when `FMT` would be 2 (R23). -/
def Ctrl.ofBits (b : BitVec 3) : Option Ctrl :=
  (Format.ofBits (b.extractLsb' 1 2)).map fun fmt =>
    { region := if b.getLsbD 0 then .usPal else .jp, fmt := fmt }

/-- The byte array that commands see: lanes 0 to `LEN - 1` (R24, R58). -/
def State.bytes (s : State) : List Byte := s.buf.toList.take s.len.val

/-- Lane `i`; a lane index is below 20 wherever a rule asks for one. -/
def State.lane (s : State) (i : Nat) : Byte := s.buf.toList.getD i 0

/-- `x` with bits `lo` to `lo + n - 1` replaced by the low `n` bits of `v`. -/
def putSlice {w : Nat} (x : BitVec w) (lo n v : Nat) : BitVec w :=
  (x &&& ~~~(BitVec.ofNat w (2 ^ n - 1) <<< lo)) ||| (BitVec.ofNat w (v % 2 ^ n) <<< lo)

end Sys2Proof.Machine
end

