-- ==== Sys2Proof/Machine/Ops.lean ====
section
/-! DEFINITION. The named operations over the registers, the error entry among them (rule R216 of `60_exceptions.md`). -/

namespace Sys2Proof.Machine

/-- The end of a host write that raised nothing (R29): `ERR` is 0. -/
def State.succeed (s : State) : State := { s with status := s.status.pass }

/-- Error entry, the block's exception (R216): `ERR <- c` and `EACC[c] <- 1`. Nothing is saved and control goes
nowhere. The cause's extra record (R211) is written by the two operations below, or by the rule that raises. -/
def State.raise (k : ErrorKind) (s : State) : State := { s with status := s.status.fail k }

/-- `InvalidSymbolError` with its record `RHINT` (R107, R211). -/
def State.raiseInvalidSymbol (hint : Bool) (s : State) : State :=
  State.raise .invalidSymbol { s with status := { s.status with rhint := hint } }

/-- `DiscriminatorError` with its record `EFMT <- FMT` (R211). -/
def State.raiseDiscriminator (s : State) : State :=
  State.raise .discriminator { s with status := { s.status with efmt := s.ctrl.fmt.bits } }

/-- There is no return from an error (R217); what the host has is clearing the record: `EACC`, `RHINT`, `EFMT` and
`ERR` become 0 (R91). -/
def State.clearErrors (s : State) : State :=
  { s with status := { err := 0, rhint := false, efmt := 0, eacc := 0 } }

/-- Every register takes its reset value (R92, R47); the host's side of the port is no register. -/
def State.clearRegisters (s : State) : State :=
  { State.reset with pending := s.pending, replies := s.replies }

/-- `LEN <- 0` and every lane 0 (R93). -/
def State.clearBuffer (s : State) : State := { s with len := 0, buf := Vector.replicate 20 0 }

/-- `BUF[LEN] <- b; LEN <- LEN + 1`, for `LEN` below 20 (R103, R104). -/
def State.pushLane (b : Byte) (s : State) : State :=
  { s with buf := s.buf.setIfInBounds s.len.val b, len := s.len + 1 }

/-- `BUF[i] <- T[i]` for every `i` below the length of `T`; the lanes above keep their values (R123, R156, R184, R194). -/
def overlay (buf : Vector Byte 20) (T : List Byte) : Vector Byte 20 :=
  ⟨(T.take 20 ++ buf.toList.drop T.length).toArray, by simp; omega⟩

/-- The byte array `T` written back over the lanes it covers; `LEN` stays. -/
def State.storeBytes (T : List Byte) (s : State) : State := { s with buf := overlay s.buf T }

/-- `RES <- v` (R27). -/
def State.setRes (v : Word) (s : State) : State := { s with res := v }

end Sys2Proof.Machine
end

