-- ==== Sys2Proof/Machine/Checksum.lean ====
section
/-! DEFINITION. The Checksum Engine and its commands (rules R135 to R140 of `43_checksum.md`). -/

namespace Sys2Proof.Machine

/-- `cks(B)`, the sum of the bytes modulo 16 (R135). -/
def cks (B : List Byte) : Nibble := BitVec.ofNat 4 (B.map BitVec.toNat).sum

/-- `calc`: the checksum of all bytes but the last (R138, R139, R140). -/
def calcNibble (B : List Byte) : Nibble := cks B.dropLast

/-- `stor`: the low nibble of the last byte (R138, R140). -/
def storedNibble (B : List Byte) : Nibble := (B.getLastD 0).setWidth 4

/-- `CHK <- {stor, calc}` (R28, R138). -/
def State.recordChk (B : List Byte) (s : State) : State := { s with chk := storedNibble B ++ calcNibble B }

/-- `B` with its last byte replaced by `calc | (m << 4)` (R139, R194). -/
def sealBytes (m : BitVec 2) (B : List Byte) : List Byte :=
  B.dropLast ++ [(m ++ calcNibble B).setWidth 8]

/-- `CKSUM` (R137). -/
def execCksum (s : State) : Host.Outcome State Fault Refusal :=
  .next (s.setRes ((cks s.bytes).setWidth 32)).succeed

/-- `CKVFY` (R138): `CHK` is written before the comparison, on success and on error. -/
def execCkvfy (s : State) : Host.Outcome State Fault Refusal :=
  .next <|
    if s.len = 0 then s.raise .lengthError
    else if calcNibble s.bytes = storedNibble s.bytes then (s.recordChk s.bytes).succeed
    else (s.recordChk s.bytes).raise .checksum

/-- `CKWR imm8` (R139): the mask check comes before the length check. -/
def execCkwr (m : BitVec 8) (s : State) : Host.Outcome State Fault Refusal :=
  .next <|
    if 3 < m.toNat then s.raise .illegalOperation
    else if s.len = 0 then s.raise .lengthError
    else (s.storeBytes (sealBytes (m.setWidth 2) s.bytes)).succeed

end Sys2Proof.Machine
end

