-- ==== Sys2Proof/Machine/Cipher.lean ====
section
/-! DEFINITION. The Region Cipher and its commands (rules R120 to R128 of `42_region_cipher.md`). The decode mask is the
one `90_conflicts.md` C1 chooses. -/

namespace Sys2Proof.Machine

/-- Entry `n` of the region's key ROM as a lane value (R120). The window of R120 never leaves the 48 entries; past
them stands the free value of log entry 4, with no wrap-around. -/
def keyByte (c : Config) (r : Region) (n : Nat) : Byte :=
  (if h : n < 48 then c.key r ⟨n, h⟩ else c.offRom r n).setWidth 8

/-- The cipher key, `B[0] >> 3` (R121). -/
def cipherKey (B : List Byte) : Byte := (B.headD 0) >>> 3

/-- `B[i] ^ KEY[r][4*ck + i]` for every `i` (R122). -/
def xorWindow (c : Config) (r : Region) (ck : Nat) (B : List Byte) : List Byte :=
  B.mapIdx fun i b => b ^^^ keyByte c r (4 * ck + i)

/-- `T[0] <- (T[0] & 7) | (ck << 3)` (R122). -/
def restoreKey (ck : Byte) : List Byte → List Byte
  | [] => []
  | t :: rest => ((t &&& 7#8) ||| (ck <<< 3)) :: rest

/-- The cipher, both directions (R122). -/
def cipher (c : Config) (r : Region) (B : List Byte) : List Byte :=
  restoreKey (cipherKey B) (xorWindow c r (cipherKey B).toNat B)

/-- The buffer replaced by its cipher, the body that R123 and R124 share. -/
def cipherBuffer (c : Config) (s : State) : State :=
  if s.len = 0 then s.raise .lengthError else (s.storeBytes (cipher c s.ctrl.region s.bytes)).succeed

/-- `DECIPH` (R123). -/
def execDeciph (s : State) : Host.Outcome State Fault Refusal := .next (cipherBuffer Config.chip s)

/-- `ENCIPH` (R124): the same function as `DECIPH`, by R125. -/
def execEnciph (s : State) : Host.Outcome State Fault Refusal := .next (cipherBuffer Config.chip s)

end Sys2Proof.Machine
end

