-- ==== Sys2Proof/Machine/BitField.lean ====
section
/-! DEFINITION. The Bit-Field Extractor and its commands (rules R150 to R158 of `44_bitfield.md`). -/

namespace Sys2Proof.Machine

/-- `bin6(b)`: the six data bits of a lane, most significant first (R150, R59). -/
def bin6 (b : Byte) : List Bool := (List.range 6).map fun j => b.getLsbD (5 - j)

/-- `bitString(B)`, the bytes in order, six positions each (R150, R12). -/
def bitString (B : List Byte) : List Bool := B.flatMap bin6

/-- The number a bit sequence spells, first bit most significant. -/
def parseBits (S : List Bool) : Nat := S.foldl (fun v b => 2 * v + b.toNat) 0

/-- `bitsToByteArray(S)`: one byte per six bits, a final partial chunk padded with zero bits on the right (R151). -/
def bitsToByteArray : List Bool → List Byte
  | [] => []
  | a :: b :: c :: d :: e :: f :: rest => BitVec.ofNat 8 (parseBits [a, b, c, d, e, f]) :: bitsToByteArray rest
  | part => [BitVec.ofNat 8 (parseBits (part ++ List.replicate (6 - part.length) false))]

/-- `S[start .. start + length - 1]`. -/
def substring (S : List Bool) (start length : Nat) : List Bool := (S.drop start).take length

/-- `reversedSubstring(S, start, length)` (R152). -/
def reversedSubstring (S : List Bool) (start length : Nat) : List Bool := (substring S start length).reverse

/-- `fieldRead(S, off, len, rev)` (R153): the field parsed as it stands, or reversed first. -/
def fieldRead (S : List Bool) (off len : Nat) (rev : Bool) : Nat :=
  parseBits (if rev then reversedSubstring S off len else substring S off len)

/-- The `len` positions that hold `v`: least significant bit first when reversed, else most significant first (R60, R154). -/
def fieldBits (len : Nat) (rev : Bool) (v : Nat) : List Bool :=
  (List.range len).map fun j => v.testBit (if rev then j else len - 1 - j)

/-- `fieldWrite(S, off, len, rev, v)` (R154). -/
def fieldWrite (S : List Bool) (off len : Nat) (rev : Bool) (v : Nat) : List Bool :=
  S.take off ++ fieldBits len rev v ++ S.drop (off + len)

/-- The bounds check of R155 and R156: `len > 64` or `off + len > 6 * LEN`. -/
def fieldOutOfBounds (off len : Nat) (s : State) : Bool := decide (64 < len ∨ 6 * s.len.val < off + len)

/-- `BFRD off, len, rev` (R155). -/
def execBfrd (off len : BitVec 7) (rev : Bool) (s : State) : Host.Outcome State Fault Refusal :=
  .next <|
    if fieldOutOfBounds off.toNat len.toNat s then s.raise .illegalOperation
    else { s with data := BitVec.ofNat 64 (fieldRead (bitString s.bytes) off.toNat len.toNat rev) }.succeed

/-- `BFWR off, len, rev` (R156): bounds first, then whether `DATA` fits `len` bits. -/
def execBfwr (off len : BitVec 7) (rev : Bool) (s : State) : Host.Outcome State Fault Refusal :=
  .next <|
    if fieldOutOfBounds off.toNat len.toNat s then s.raise .illegalOperation
    else if len.toNat < 64 ∧ 2 ^ len.toNat ≤ s.data.toNat then s.raise .fieldRange
    else
      (s.storeBytes (bitsToByteArray
        (fieldWrite (bitString s.bytes) off.toNat len.toNat rev s.data.toNat))).succeed

end Sys2Proof.Machine
end

