-- ==== Sys2Proof/Machine/Layout.lean ====
section
/-! DEFINITION. The layouts of the three formats and the two functions over them, `extract` and `pack` (rules R170 to
R183 of `45_format_codecs.md`). Conflicts C2, C3 and C7 are resolved as `90_conflicts.md` says. -/

namespace Sys2Proof.Machine

/-- The register bits a row of a layout table names (R171 to R174). -/
inductive FieldReg where
  | keysel
  | gameId
  | hero
  | tgt
  | freering
  | linked
  | behav
  | companion
  | memory
  | link (i : Fin 5)
  | child (i : Fin 5)
  /-- Ring byte `i`, `RINGS[8i + 7 : 8i]` (R173, decision D16). -/
  | ring (i : Fin 8)
  deriving DecidableEq, Repr

/-- One row of a layout table. -/
structure FieldRow where
  off : Nat
  len : Nat
  rev : Bool
  reg : FieldReg
  deriving DecidableEq, Repr

/-- `PADCH`, the byte that stands for a trailing null of a name (R7, R177). -/
def padch : Byte := 0x20

/-- The value of the register bits a row names. -/
def FieldReg.get (F : Fields) : FieldReg → Nat
  | .keysel => F.keysel.toNat
  | .gameId => F.gameId.toNat
  | .hero => (F.flags.getLsbD 0).toNat
  | .tgt => (F.flags.getLsbD 1).toNat
  | .freering => (F.flags.getLsbD 2).toNat
  | .linked => (F.flags.getLsbD 3).toNat
  | .behav => F.behav.toNat
  | .companion => F.companion.toNat
  | .memory => F.memory.toNat
  | .link i => F.link[i].toNat
  | .child i => F.child[i].toNat
  | .ring i => (F.rings.extractLsb' (8 * i.val) 8).toNat

/-- The field registers with the bits a row names replaced by `v`. -/
def FieldReg.set (v : Nat) (F : Fields) : FieldReg → Fields
  | .keysel => { F with keysel := BitVec.ofNat 3 v }
  | .gameId => { F with gameId := BitVec.ofNat 15 v }
  | .hero => { F with flags := putSlice F.flags 0 1 v }
  | .tgt => { F with flags := putSlice F.flags 1 1 v }
  | .freering => { F with flags := putSlice F.flags 2 1 v }
  | .linked => { F with flags := putSlice F.flags 3 1 v }
  | .behav => { F with behav := BitVec.ofNat 8 v }
  | .companion => { F with companion := BitVec.ofNat 4 v }
  | .memory => { F with memory := BitVec.ofNat 4 v }
  | .link i => { F with link := F.link.set i (BitVec.ofNat 8 v) }
  | .child i => { F with child := F.child.set i (BitVec.ofNat 8 v) }
  | .ring i => { F with rings := putSlice F.rings (8 * i.val) 8 v }

/-- The rows of the header that name a register, common to the three formats (R171). -/
def headerRows : List FieldRow := [⟨0, 3, false, .keysel⟩, ⟨5, 15, true, .gameId⟩]

/-- The Game layout after the header (R172). -/
def gameRows : List FieldRow :=
  [⟨20, 1, false, .hero⟩, ⟨21, 1, false, .tgt⟩, ⟨22, 8, true, .link 0⟩, ⟨30, 8, true, .child 0⟩,
   ⟨38, 8, true, .link 1⟩, ⟨46, 8, true, .child 1⟩, ⟨54, 6, true, .behav⟩, ⟨60, 8, true, .link 2⟩,
   ⟨68, 8, true, .child 2⟩, ⟨76, 1, false, .freering⟩, ⟨77, 8, true, .link 3⟩, ⟨85, 4, true, .companion⟩,
   ⟨89, 8, true, .link 4⟩, ⟨97, 8, true, .child 3⟩, ⟨105, 1, false, .linked⟩, ⟨106, 8, true, .child 4⟩]

/-- The Ring layout after the header (R173): the offsets are not in the order of significance. -/
def ringRows : List FieldRow :=
  [⟨36, 8, true, .ring 0⟩, ⟨76, 8, true, .ring 1⟩, ⟨28, 8, true, .ring 2⟩, ⟨60, 8, true, .ring 3⟩,
   ⟨44, 8, true, .ring 4⟩, ⟨68, 8, true, .ring 5⟩, ⟨20, 8, true, .ring 6⟩, ⟨52, 8, true, .ring 7⟩]

/-- The Memory layout after the header (R174); the mask is no register. -/
def memoryRows : List FieldRow := [⟨20, 4, true, .memory⟩]

/-- Every row of a format that names a register. -/
def rowsOf : Format → List FieldRow
  | .game => headerRows ++ gameRows
  | .ring => headerRows ++ ringRows
  | .memory => headerRows ++ memoryRows

/-- The Memory mask on encode (R175). -/
def memoryMask (tgt ret : Bool) : BitVec 2 :=
  if tgt then 1 + (BitVec.ofBool ret).setWidth 2 else 3 * (BitVec.ofBool ret).setWidth 2

/-- The Memory mask of the field registers, `FLAGS.TGT` and `FLAGS.RETURN` (R175, R33). -/
def Fields.mask (F : Fields) : BitVec 2 := memoryMask (F.flags.getLsbD 1) (F.flags.getLsbD 4)

/-- A byte becomes `PADCH` when it and all bytes after it are zero (R177). -/
def padTail : List Byte → List Byte
  | [] => []
  | b :: rest => (if (b :: rest).all (· == 0) then padch else b) :: padTail rest

theorem length_padTail (l : List Byte) : (padTail l).length = l.length := by
  induction l with
  | nil => rfl
  | cons b rest ih => simp [padTail, ih]

/-- The name transform on decode (R177): only the trailing run of zero bytes is replaced. -/
def padName (n : Vector Byte 5) : Vector Byte 5 := ⟨(padTail n.toList).toArray, by simp [length_padTail]⟩

/-- The rows of a format read out of `S` into the field registers (R180). -/
def readRows (rows : List FieldRow) (S : List Bool) (F : Fields) : Fields :=
  rows.foldl (fun F row => row.reg.set (fieldRead S row.off row.len row.rev) F) F

/-- The Memory mask on decode (R176): `RETURN` is position 24, and `TGT` is SEASONS when positions 24 and 25 differ. -/
def readMask (S : List Bool) (F : Fields) : Fields :=
  let ret := S.getD 24 false
  { F with flags := putSlice (putSlice F.flags 4 1 ret.toNat) 1 1 (ret != S.getD 25 false).toNat }

/-- `extract(f, S)` (R180) written over the field registers `F`: what the format does not name keeps its value (R185). -/
def extract (f : Format) (S : List Bool) (F : Fields) : Fields :=
  let G := readRows (rowsOf f) S F
  match f with
  | .game => { G with link := padName G.link, child := padName G.child }
  | .ring => G
  | .memory => readMask S G

/-- The range check after extraction (R181): `GAMEID = 32767`, or for Memory `MEMORY > 9`. -/
def recordOutOfRange (f : Format) (F : Fields) : Bool :=
  decide (F.gameId.toNat = 32767 ∨ (f = .memory ∧ 9 < F.memory.toNat))

/-- The range check before encoding (R186). -/
def unencodable (f : Format) (F : Fields) : Bool := decide (f = .game ∧ 63 < F.behav.toNat)

/-- The rows of a format written into `S` from the field registers (R183). -/
def writeRows (rows : List FieldRow) (F : Fields) (S : List Bool) : List Bool :=
  rows.foldl (fun S row => fieldWrite S row.off row.len row.rev (row.reg.get F)) S

/-- The data positions of a plain secret (R183): the rows, then the discriminator. -/
def packBits (f : Format) (F : Fields) : List Bool :=
  fieldWrite (writeRows (rowsOf f) F (List.replicate (6 * (f.size - 1)) false)) 3 2 false f.bits.toNat

/-- `pack(f)` (R183): the data bytes, and a last byte of 0. -/
def packBytes (f : Format) (F : Fields) : List Byte := bitsToByteArray (packBits f F) ++ [0]

end Sys2Proof.Machine
end

