-- ==== Sys2Proof/Machine/Codec.lean ====
section
/-! DEFINITION. The commands of the Format Codecs (rules R182 to R194 of `45_format_codecs.md`). -/

namespace Sys2Proof.Machine

/-- Steps 4 and 5 of R190, and all of R182 after its length check: discriminator, extraction, range check, and the
record written to the field registers. -/
def takeRecord (T : List Byte) (s : State) : State :=
  let S := bitString T
  if fieldRead S 3 2 false ≠ s.ctrl.fmt.bits.toNat then s.raiseDiscriminator
  else
    let record := extract s.ctrl.fmt S s.fields
    if recordOutOfRange s.ctrl.fmt record then s.raise .fieldRange else { s with fields := record }.succeed

/-- `UNPACK` (R182). -/
def execUnpack (s : State) : Host.Outcome State Fault Refusal :=
  .next (if s.len.val ≠ s.ctrl.fmt.size then s.raise .lengthError else takeRecord s.bytes s)

/-- `BUF[0..n-1] <- T; LEN <- n`, where `n` is the size of the format (R184, R194). -/
def State.storeSecret (T : List Byte) (s : State) : State :=
  { s.storeBytes T with len := Fin.ofNat 21 s.ctrl.fmt.size }

/-- `PACK` (R184, R186). -/
def execPack (s : State) : Host.Outcome State Fault Refusal :=
  .next <|
    if unencodable s.ctrl.fmt s.fields then s.raise .fieldRange
    else (s.storeSecret (packBytes s.ctrl.fmt s.fields)).succeed

/-- `LOAD` under a configuration (R190): length, cipher on a scratch copy, checksum, then steps 4 and 5. -/
def loadUnder (c : Config) (s : State) : State :=
  if s.len.val ≠ s.ctrl.fmt.size then s.raise .lengthError
  else
    let T := cipher c s.ctrl.region s.bytes
    let s' := s.recordChk T
    if calcNibble T ≠ storedNibble T then s'.raise .checksum else takeRecord T s'

/-- `LOAD` (R190). -/
def execLoad (s : State) : Host.Outcome State Fault Refusal := .next (loadUnder Config.chip s)

/-- The mask `ENCODE` puts above the checksum (R194). -/
def encodeMask (f : Format) (F : Fields) : BitVec 2 := if f = .memory then F.mask else 0

/-- `ENCODE` under a configuration (R194): layout, checksum, cipher. -/
def encodeUnder (c : Config) (s : State) : State :=
  if unencodable s.ctrl.fmt s.fields then s.raise .fieldRange
  else
    (s.storeSecret (cipher c s.ctrl.region
      (sealBytes (encodeMask s.ctrl.fmt s.fields) (packBytes s.ctrl.fmt s.fields)))).succeed

/-- `ENCODE` (R194). -/
def execEncode (s : State) : Host.Outcome State Fault Refusal := .next (encodeUnder Config.chip s)

end Sys2Proof.Machine
end

