-- ==== Sys2Proof/Machine/Control.lean ====
section
/-! DEFINITION. The control commands (rules R90 to R93 of `40_control.md`). -/

namespace Sys2Proof.Machine

/-- `NOP` (R90). -/
def execNop (s : State) : Host.Outcome State Fault Refusal := .next s.succeed

/-- `CLR` (R92): the state after it equals the state after reset. -/
def execClr (s : State) : Host.Outcome State Fault Refusal := .next s.clearRegisters

/-- `CLRERR` (R91). -/
def execClrerr (s : State) : Host.Outcome State Fault Refusal := .next s.clearErrors

/-- `CLRBUF` (R93). -/
def execClrbuf (s : State) : Host.Outcome State Fault Refusal := .next s.clearBuffer.succeed

end Sys2Proof.Machine
end

