-- ==== Sys2Proof/Machine/SymbolTable.lean ====
section
/-! DEFINITION. The Symbol Table and its commands (rules R100 to R109 of `41_symbol_table.md`). Each command is a
function of a configuration, and its meaning takes the chip's. -/

namespace Sys2Proof.Machine

/-- The value port, `v2c(r, v) = ALPHA[r][v]` (R102). -/
def v2c (c : Config) (r : Region) (v : SymbolValue) : Glyph := c.alpha r v

/-- The symbol port, `c2v(r, g)`: the value whose glyph is `g`, if there is one (R101). -/
def c2v (c : Config) (r : Region) (g : Glyph) : Option SymbolValue :=
  ((List.range 64).map (BitVec.ofNat 6)).find? fun v => c.alpha r v == g

/-- The region hint: whether the other region's alphabet has the refused glyph (R107). -/
def regionHint (c : Config) (r : Region) (g : Glyph) : Bool := (c2v c r.other g).isSome

/-- `PUSHC` under a configuration (R103, R108). -/
def pushcUnder (c : Config) (g : Glyph) (s : State) : State :=
  if c.ws.contains g then s.succeed
  else
    match c2v c s.ctrl.region g with
    | none => s.raiseInvalidSymbol (regionHint c s.ctrl.region g)
    | some v => if s.len = 20 then s.raise .lengthError else (s.pushLane (v.setWidth 8)).succeed

/-- `PUSHC glyph` (R103). -/
def execPushc (g : Glyph) (s : State) : Host.Outcome State Fault Refusal := .next (pushcUnder Config.chip g s)

/-- `PUSHB imm8` (R104): the value check comes before the capacity check. -/
def execPushb (b : BitVec 8) (s : State) : Host.Outcome State Fault Refusal :=
  .next <|
    if 63 < b.toNat then s.raiseInvalidSymbol false
    else if s.len = 20 then s.raise .lengthError
    else (s.pushLane b).succeed

/-- What `RDSYM i` puts into `RES`: the glyph of lane `i` in 20:0, the separator flag in 31 (R105). -/
def symbolImage (c : Config) (i : Nat) (s : State) : Word :=
  BitVec.ofBool (decide ((i + 1) % 5 = 0)) ++ 0#10 ++ v2c c s.ctrl.region ((s.lane i).setWidth 6)

/-- `RDSYM` under a configuration (R105). -/
def rdsymUnder (c : Config) (i : BitVec 8) (s : State) : State :=
  if s.len.val ≤ i.toNat then s.raise .illegalOperation else (s.setRes (symbolImage c i.toNat s)).succeed

/-- `RDSYM imm8` (R105). -/
def execRdsym (i : BitVec 8) (s : State) : Host.Outcome State Fault Refusal := .next (rdsymUnder Config.chip i s)

/-- `C2V` under a configuration (R106): whitespace gets no special treatment. -/
def c2vUnder (c : Config) (g : Glyph) (s : State) : State :=
  match c2v c s.ctrl.region g with
  | none => s.raiseInvalidSymbol (regionHint c s.ctrl.region g)
  | some v => (s.setRes (v.setWidth 32)).succeed

/-- `C2V glyph` (R106). -/
def execC2v (g : Glyph) (s : State) : Host.Outcome State Fault Refusal := .next (c2vUnder Config.chip g s)

/-- `V2C` under a configuration (R109). -/
def v2cUnder (c : Config) (v : BitVec 8) (s : State) : State :=
  if 63 < v.toNat then s.raiseInvalidSymbol false
  else (s.setRes ((v2c c s.ctrl.region (v.setWidth 6)).setWidth 32)).succeed

/-- `V2C imm8` (R109). -/
def execV2c (v : BitVec 8) (s : State) : Host.Outcome State Fault Refusal := .next (v2cUnder Config.chip v s)

end Sys2Proof.Machine
end

