-- ==== Sys2Proof/Machine/Dispatch.lean ====
section
/-! DEFINITION. One arm per command. -/

namespace Sys2Proof.Machine

def exec (i : Instr) (s : State) : Host.Outcome State Fault Refusal :=
  match i with
  | .nop => Sys2Proof.Machine.execNop s
  | .clr => Sys2Proof.Machine.execClr s
  | .clrerr => Sys2Proof.Machine.execClrerr s
  | .clrbuf => Sys2Proof.Machine.execClrbuf s
  | .c2v glyph => Sys2Proof.Machine.execC2v glyph s
  | .v2c imm => Sys2Proof.Machine.execV2c imm s
  | .pushc glyph => Sys2Proof.Machine.execPushc glyph s
  | .pushb imm => Sys2Proof.Machine.execPushb imm s
  | .rdsym imm => Sys2Proof.Machine.execRdsym imm s
  | .deciph => Sys2Proof.Machine.execDeciph s
  | .enciph => Sys2Proof.Machine.execEnciph s
  | .cksum => Sys2Proof.Machine.execCksum s
  | .ckvfy => Sys2Proof.Machine.execCkvfy s
  | .ckwr imm => Sys2Proof.Machine.execCkwr imm s
  | .bfrd off len rev => Sys2Proof.Machine.execBfrd off len rev s
  | .bfwr off len rev => Sys2Proof.Machine.execBfwr off len rev s
  | .unpack => Sys2Proof.Machine.execUnpack s
  | .pack => Sys2Proof.Machine.execPack s
  | .load => Sys2Proof.Machine.execLoad s
  | .encode => Sys2Proof.Machine.execEncode s

end Sys2Proof.Machine
end

