-- ==== Sys2Proof/Machine/HostPort.lean ====
section
/-! DEFINITION. The host register space (rules R50 to R55 of `20_memory.md`): the address map, what a read returns and
what a write to a register does (R23 to R40 of `10_state.md`). -/

namespace Sys2Proof.Machine

/-- The registers of the address map other than `CMD` (R51). -/
inductive Reg where
  | status
  | ctrl
  | len
  | res
  | chk
  | behcls
  | dataLo
  | dataHi
  | buf (i : Fin 20)
  | keysel
  | gameId
  | flags
  | behav
  | companion
  | memory
  | ringsLo
  | ringsHi
  | link (i : Fin 5)
  | child (i : Fin 5)
  deriving DecidableEq, Repr

/-- What an address selects (R51). -/
inductive Target where
  /-- `CMD`, the write port of R30. -/
  | cmd
  /-- A register. -/
  | reg (r : Reg)
  /-- Nothing (R52). -/
  | unmapped
  deriving DecidableEq, Repr

/-- The address map (R51). -/
def targetOf (a : Addr) : Target :=
  let n := a.toNat
  if n = 0x00 then .cmd
  else if n = 0x01 then .reg .status
  else if n = 0x02 then .reg .ctrl
  else if n = 0x03 then .reg .len
  else if n = 0x04 then .reg .res
  else if n = 0x05 then .reg .chk
  else if n = 0x06 then .reg .behcls
  else if n = 0x08 then .reg .dataLo
  else if n = 0x09 then .reg .dataHi
  else if h : 0x10 ≤ n ∧ n ≤ 0x23 then .reg (.buf ⟨n - 0x10, by omega⟩)
  else if n = 0x30 then .reg .keysel
  else if n = 0x31 then .reg .gameId
  else if n = 0x32 then .reg .flags
  else if n = 0x33 then .reg .behav
  else if n = 0x34 then .reg .companion
  else if n = 0x35 then .reg .memory
  else if n = 0x36 then .reg .ringsLo
  else if n = 0x37 then .reg .ringsHi
  else if h : 0x38 ≤ n ∧ n ≤ 0x3C then .reg (.link ⟨n - 0x38, by omega⟩)
  else if h : 0x40 ≤ n ∧ n ≤ 0x44 then .reg (.child ⟨n - 0x40, by omega⟩)
  else .unmapped

/-- A register as the host reads it, zero-extended (R54). -/
def readReg (s : State) : Reg → Word
  | .status => s.status.image
  | .ctrl => s.ctrl.bits.setWidth 32
  | .len => BitVec.ofNat 32 s.len.val
  | .res => s.res
  | .chk => s.chk.setWidth 32
  | .behcls => (behClass s.fields.behav).setWidth 32
  | .dataLo => s.data.extractLsb' 0 32
  | .dataHi => s.data.extractLsb' 32 32
  | .buf i => s.buf[i].setWidth 32
  | .keysel => s.fields.keysel.setWidth 32
  | .gameId => s.fields.gameId.setWidth 32
  | .flags => s.fields.flags.setWidth 32
  | .behav => s.fields.behav.setWidth 32
  | .companion => s.fields.companion.setWidth 32
  | .memory => s.fields.memory.setWidth 32
  | .ringsLo => s.fields.rings.extractLsb' 0 32
  | .ringsHi => s.fields.rings.extractLsb' 32 32
  | .link i => s.fields.link[i].setWidth 32
  | .child i => s.fields.child[i].setWidth 32

/-- The word `HostRead(a)` returns: 0 for `CMD` and for an unmapped address (R50, R52, R53). -/
def hostRead (a : Addr) (s : State) : Word :=
  match targetOf a with
  | .reg r => readReg s r
  | .cmd => 0
  | .unmapped => 0

/-- A host write to a field register with a greatest legal value: above it `FieldRangeError` and the register keeps its
value (R31 to R40, R218). -/
def State.writeField (d : Word) (max : Nat) (F : Fields) (s : State) : State :=
  if max < d.toNat then s.raise .fieldRange else { s with fields := F }.succeed

/-- `CTRL` (R23). -/
def State.writeCtrl (d : Word) (s : State) : State :=
  match Ctrl.ofBits (d.extractLsb' 0 3) with
  | none => s.raise .illegalOperation
  | some c => if 7 < d.toNat then s.raise .illegalOperation else { s with ctrl := c }.succeed

/-- `LEN` (R24). -/
def State.writeLen (d : Word) (s : State) : State :=
  if h : d.toNat < 21 then { s with len := ⟨d.toNat, h⟩ }.succeed else s.raise .lengthError

/-- `BUF[i]` (R25): `LEN` stays. -/
def State.writeLane (i : Fin 20) (d : Word) (s : State) : State :=
  if 63 < d.toNat then s.raiseInvalidSymbol false
  else { s with buf := s.buf.set i (d.setWidth 8) }.succeed

/-- `HostWrite` to a register (R23 to R40); a read-only register refuses it (R53). -/
def writeReg (d : Word) (s : State) : Reg → State
  | .status => s.raise .illegalOperation
  | .ctrl => s.writeCtrl d
  | .len => s.writeLen d
  | .res => s.raise .illegalOperation
  | .chk => s.raise .illegalOperation
  | .behcls => s.raise .illegalOperation
  | .dataLo => { s with data := s.data.extractLsb' 32 32 ++ d }.succeed
  | .dataHi => { s with data := d ++ s.data.extractLsb' 0 32 }.succeed
  | .buf i => s.writeLane i d
  | .keysel => s.writeField d 7 { s.fields with keysel := d.setWidth 3 }
  | .gameId => s.writeField d 32766 { s.fields with gameId := d.setWidth 15 }
  | .flags => s.writeField d 31 { s.fields with flags := d.setWidth 5 }
  | .behav => s.writeField d 255 { s.fields with behav := d.setWidth 8 }
  | .companion => s.writeField d 15 { s.fields with companion := d.setWidth 4 }
  | .memory => s.writeField d 9 { s.fields with memory := d.setWidth 4 }
  | .ringsLo => { s with fields := { s.fields with rings := s.fields.rings.extractLsb' 32 32 ++ d } }.succeed
  | .ringsHi => { s with fields := { s.fields with rings := d ++ s.fields.rings.extractLsb' 0 32 } }.succeed
  | .link i => s.writeField d 255 { s.fields with link := s.fields.link.set i (d.setWidth 8) }
  | .child i => s.writeField d 255 { s.fields with child := s.fields.child.set i (d.setWidth 8) }

end Sys2Proof.Machine
end

