-- ==== Sys2Proof/Machine/Transact.lean ====
section
/-! DEFINITION. The two host transactions (rule R50 of `20_memory.md`). -/

namespace Sys2Proof.Machine

/-- A host write of `w` to `CMD` (R30, R72): the decoded command, or `IllegalOperation` with only `STATUS` changed. -/
def runCommand (w : Word) (s : State) : Host.Outcome State Fault Refusal :=
  match decode w with
  | .ok i => exec i s
  | .error .unknownOpcode => .next (s.raise .illegalOperation)
  | .error .zeroBitSet => .next (s.raise .illegalOperation)

/-- `HostWrite(a, d)` (R50, R52). -/
def hostWrite (a : Addr) (d : Word) (s : State) : Host.Outcome State Fault Refusal :=
  match targetOf a with
  | .cmd => runCommand d s
  | .reg r => .next (writeReg d s r)
  | .unmapped => .next (s.raise .illegalOperation)

/-- One transaction. A read changes no register (R50); its word goes to the host. -/
def transact (t : Transaction) (s : State) : Host.Outcome State Fault Refusal :=
  match t with
  | .write a d => hostWrite a d s
  | .read a => .next { s with replies := hostRead a s :: s.replies }

/-- The address of the write port `CMD` (R30, R51). -/
def cmdAddr : Addr := 0x00

/-- The host transaction that delivers the command whose table bits are `w` (R70). -/
def deliver (nbits w : Nat) : Transaction := .write cmdAddr (wordOfTable nbits w)

end Sys2Proof.Machine
end

