-- ==== Sys2Proof/Machine/Step.lean ====
section
/-! DEFINITION. One step: the next host transaction, and nothing when there is none (rule R15 of `00_scope.md`). -/

namespace Sys2Proof.Machine

/-- A step of the machine is one host transaction, atomic and complete (R15, R50, R63). With none pending the block
does not act (R15, R235). -/
def step (s : State) : Host.Outcome State Fault Refusal :=
  match s.pending with
  | [] => .next s
  | t :: rest => transact t { s with pending := rest }

/-- The state in which the host's next transaction is the write of that command to `CMD`: the block fetches nothing (R22,
R66), so what the next step runs is the first pending transaction (log entry 5). -/
def State.withFetchWord (s : State) (nbits w : Nat) : State :=
  { s with pending := deliver nbits w :: s.pending }

end Sys2Proof.Machine
end

