-- ==== Sys2Proof/Machine/Procedures.lean ====
section
/-! DEFINITION. The host procedures over the Symbol Table (rules R110 and R111 of `41_symbol_table.md`, R77 and R78 of
`30_encoding.md`), for a block with any configuration. `Config.chip` gives this block's: `execUnder Config.chip` is `exec`
(`Laws/Procedures.lean`). -/

namespace Sys2Proof.Machine

/-- What a command does in a block with configuration `c`: the commands that read a ROM or `WS` take it from `c`. -/
def execUnder (c : Config) (i : Instr) (s : State) : Host.Outcome State Fault Refusal :=
  match i with
  | .c2v glyph => .next (c2vUnder c glyph s)
  | .v2c imm => .next (v2cUnder c imm s)
  | .pushc glyph => .next (pushcUnder c glyph s)
  | .rdsym imm => .next (rdsymUnder c imm s)
  | .deciph | .enciph => .next (cipherBuffer c s)
  | .load => .next (loadUnder c s)
  | .encode => .next (encodeUnder c s)
  | .nop => exec .nop s
  | .clr => exec .clr s
  | .clrerr => exec .clrerr s
  | .clrbuf => exec .clrbuf s
  | .pushb imm => exec (.pushb imm) s
  | .cksum => exec .cksum s
  | .ckvfy => exec .ckvfy s
  | .ckwr imm => exec (.ckwr imm) s
  | .bfrd off len rev => exec (.bfrd off len rev) s
  | .bfwr off len rev => exec (.bfwr off len rev) s
  | .unpack => exec .unpack s
  | .pack => exec .pack s

/-- `HostWrite(a, d)` to a block with configuration `c` (R50, R72). -/
def hostWriteUnder (c : Config) (a : Addr) (d : Word) (s : State) : Host.Outcome State Fault Refusal :=
  match targetOf a with
  | .cmd =>
    match decode d with
    | .ok i => execUnder c i s
    | .error _ => .next (s.raise .illegalOperation)
  | .reg r => .next (writeReg d s r)
  | .unmapped => .next (s.raise .illegalOperation)

/-- Host writes in order, stopping after the first one that leaves a nonzero `ERR` (R110). -/
def hostWrites (c : Config) : List (Addr × Word) → State → Host.Outcome State Fault Refusal
  | [], s => .next s
  | (a, d) :: rest, s =>
    match hostWriteUnder c a d s with
    | .next t => if t.status.err = 0 then hostWrites c rest t else .next t
    | .fault r => .fault r
    | .refused r => .refused r

/-- `cmd M ops`: the host write that delivers a command (R77). -/
def cmdLine (i : Instr) : Addr × Word := (cmdAddr, encode i)

/-- The pseudo-instruction `pushstr`: one `PUSHC` per code point, in order, spaces included (R78). -/
def pushstr (text : List Glyph) : List (Addr × Word) := text.map fun g => cmdLine (.pushc g)

/-- `secretToBytes` (R110), for a text to which the host has applied its substitutions (R5, R100): `CTRL` is written to select
the region, the buffer is cleared, the glyphs are pushed; the host stops at the first nonzero `ERR`. -/
def secretToBytes (c : Config) (ctrl : Ctrl) (text : List Glyph) (s : State) : Host.Outcome State Fault Refusal :=
  hostWrites c ((0x02, ctrl.bits.setWidth 32) :: cmdLine .clrbuf :: pushstr text) s

/-- The words that `rd RES` returns after `cmd RDSYM i`, for each `i` of the list in order (R78, R111). -/
def readSymbols (c : Config) : List Nat → State → List Word
  | [], _ => []
  | i :: rest, s =>
    match execUnder c (.rdsym (BitVec.ofNat 8 i)) s with
    | .next t => hostRead 0x04 t :: readSymbols c rest t
    | .fault _ => []
    | .refused _ => []

/-- The glyph in a word of `RES` (R105). -/
def glyphOf (res : Word) : Glyph := res.extractLsb' 0 21

/-- What `rdstr` emits for a word of `RES`: the glyph, and the separator when bit 31 is set (R78, R111). -/
def emitSymbol (res : Word) : List Glyph := glyphOf res :: if res.getLsbD 31 then [Config.separator] else []

/-- The glyphs of lanes 0 to `LEN - 1`, without separators (R105). -/
def glyphText (c : Config) (s : State) : List Glyph := (readSymbols c (List.range s.len.val) s).map glyphOf

/-- `bytesToSecretString`, the pseudo-instruction `rdstr` (R78, R111): the glyphs with their separators. -/
def rdstr (c : Config) (s : State) : List Glyph := (readSymbols c (List.range s.len.val) s).flatMap emitSymbol

end Sys2Proof.Machine
end

