-- ==== Sys2Proof/Safety.lean ====
section
/-! DEFINITION. The terms that claims use: the legal states, what success means, and the views of the buffer that the
spec's tables are written in. -/

namespace Sys2Proof.Machine

/-- The invariant of the registers between transactions: every lane is below 64 (R42), `GAMEID` and `MEMORY` are in range
(R32, R38), `EFMT` is the number of a format (R23, R29), `EACC[0]` is 0 (R29), `ERR` is never 7 (R210), and the kind that
`ERR` names stands in `EACC` (R29, R216). -/
abbrev State.Legal (s : State) : Prop :=
  (∀ i : Fin 20, s.buf[i].toNat ≤ 63) ∧ s.fields.gameId.toNat ≤ 32766 ∧ s.fields.memory.toNat ≤ 9 ∧
  s.status.efmt ≠ 2 ∧ s.status.eacc.getLsbD 0 = false ∧ s.status.err ≠ 7 ∧
  (s.status.err ≠ 0 → s.status.eacc.getLsbD s.status.err.toNat = true)

/-- What success of a host program means (R214): `EACC = 0` at the end. -/
def State.clean (s : State) : Bool := s.status.eacc == 0

/-- `STATUS` of `s` with `ERR = 0` and every other field kept: what a host write without error leaves (R29). -/
def State.okStatus (s : State) : Status := { s.status with err := 0 }

/-- `STATUS` of `s` with `ERR = c` and `EACC[c] = 1`, every other field kept: what error code `c` leaves (R216). -/
def State.errStatus (c : BitVec 3) (s : State) : Status :=
  { s.status with err := c, eacc := s.status.eacc ||| (1#7 <<< c.toNat) }

/-- Position `k` of the bit-string of the whole buffer, `BUF[k div 6][5 - (k mod 6)]` (R12). -/
def State.bitAt (s : State) (k : Nat) : Bool := (s.lane (k / 6)).getLsbD (5 - k % 6)

/-- A row of a lane table (R172 to R174): the lane whose bits 5 down to 0 are the six given. -/
def laneOf (b5 b4 b3 b2 b1 b0 : Bool) : Byte :=
  0#2 ++ BitVec.ofBool b5 ++ BitVec.ofBool b4 ++ BitVec.ofBool b3 ++ BitVec.ofBool b2 ++ BitVec.ofBool b1 ++ BitVec.ofBool b0

/-- A name with its trailing run of zero bytes replaced by `0x20` (R177). -/
def IsPadded (n m : Vector Byte 5) : Prop :=
  ∀ i : Fin 5, m[i] = if (∀ j : Fin 5, i ≤ j → n[j] = 0) then 0x20 else n[i]

end Sys2Proof.Machine
end

