-- ==== Sys2Proof/Certificates/Slice0/Obligations.lean ====
section
/-! DEFINITION. The statements for the provers. Rule numbers are those of spec/. `s.okStatus` and `s.errStatus c` are the
two records a host write can leave in `STATUS` besides its extra records (R29, R216). An equation `exec i s = .next t` with
`t` a record update of `s` says the result AND the frame: every field it does not name is unchanged. -/

open Sys2Proof Sys2Proof.Machine

/-! ### Encoding (30_encoding.md) -/

/-- R71 to R74: no bit of a command is dropped by its word. -/
def Obligations.EncodeThenDecodeReturnsTheCommand : Prop :=
  ∀ i : Instr, i.wellFormed = true → decode (encode i) = .ok i

/-- R71, R72: a word that decodes is the word of its command; no two words mean the same command. -/
def Obligations.DecodedWordIsTheEncodingOfItsCommand : Prop :=
  ∀ (w : Word) (i : Instr), decode w = .ok i → encode i = w

/-- R74: a word selects a row iff `w & mask = match`, for the twenty rows. -/
def Obligations.WordSelectsItsRowByMatchAndMask : Prop :=
  ∀ w : Word,
    (decode w = .ok .nop ↔ w &&& 0xFFFFFFFF = 0x00000000) ∧
    (decode w = .ok .clr ↔ w &&& 0xFFFFFFFF = 0x01000000) ∧
    (decode w = .ok .clrerr ↔ w &&& 0xFFFFFFFF = 0x02000000) ∧
    (decode w = .ok .clrbuf ↔ w &&& 0xFFFFFFFF = 0x03000000) ∧
    ((∃ g, decode w = .ok (.c2v g)) ↔ w &&& 0xFFE00000 = 0x10000000) ∧
    ((∃ m, decode w = .ok (.v2c m)) ↔ w &&& 0xFFFFFF00 = 0x11000000) ∧
    ((∃ g, decode w = .ok (.pushc g)) ↔ w &&& 0xFFE00000 = 0x12000000) ∧
    ((∃ m, decode w = .ok (.pushb m)) ↔ w &&& 0xFFFFFF00 = 0x13000000) ∧
    ((∃ m, decode w = .ok (.rdsym m)) ↔ w &&& 0xFFFFFF00 = 0x14000000) ∧
    (decode w = .ok .deciph ↔ w &&& 0xFFFFFFFF = 0x20000000) ∧
    (decode w = .ok .enciph ↔ w &&& 0xFFFFFFFF = 0x21000000) ∧
    (decode w = .ok .cksum ↔ w &&& 0xFFFFFFFF = 0x30000000) ∧
    (decode w = .ok .ckvfy ↔ w &&& 0xFFFFFFFF = 0x31000000) ∧
    ((∃ m, decode w = .ok (.ckwr m)) ↔ w &&& 0xFFFFFF00 = 0x32000000) ∧
    ((∃ o l r, decode w = .ok (.bfrd o l r)) ↔ w &&& 0xFFFF8000 = 0x40000000) ∧
    ((∃ o l r, decode w = .ok (.bfwr o l r)) ↔ w &&& 0xFFFF8000 = 0x41000000) ∧
    (decode w = .ok .unpack ↔ w &&& 0xFFFFFFFF = 0x50000000) ∧
    (decode w = .ok .pack ↔ w &&& 0xFFFFFFFF = 0x51000000) ∧
    (decode w = .ok .load ↔ w &&& 0xFFFFFFFF = 0x52000000) ∧
    (decode w = .ok .encode ↔ w &&& 0xFFFFFFFF = 0x53000000)

/-- R73: every operand is its bit-field of the word, unsigned and as it stands. -/
def Obligations.OperandsAreTheirBitFields : Prop :=
  ∀ w : Word,
    (∀ g, decode w = .ok (.c2v g) ∨ decode w = .ok (.pushc g) → g.toNat = w.toNat % 2 ^ 21) ∧
    (∀ m, decode w = .ok (.v2c m) ∨ decode w = .ok (.pushb m) ∨ decode w = .ok (.rdsym m) ∨ decode w = .ok (.ckwr m) →
      m.toNat = w.toNat % 2 ^ 8) ∧
    (∀ off len rev, decode w = .ok (.bfrd off len rev) ∨ decode w = .ok (.bfwr off len rev) →
      off.toNat = w.toNat % 2 ^ 7 ∧ len.toNat = w.toNat / 2 ^ 7 % 2 ^ 7 ∧ rev.toNat = w.toNat / 2 ^ 14 % 2)

/-- R75: a reserved opcode, and a listed opcode with a nonzero zero bit, raise `IllegalOperation` and change only `STATUS`. -/
def Obligations.IllegalWordsRaiseIllegalOperation : Prop :=
  ∀ (w : Word) (s : State),
    (let op := w.toNat / 2 ^ 24
     (0x04 ≤ op ∧ op ≤ 0x0F) ∨ (0x15 ≤ op ∧ op ≤ 0x1F) ∨ (0x22 ≤ op ∧ op ≤ 0x2F) ∨ (0x33 ≤ op ∧ op ≤ 0x3F) ∨
     (0x42 ≤ op ∧ op ≤ 0x4F) ∨ (0x54 ≤ op ∧ op ≤ 0xFF) ∨
     (op ∈ [0x00, 0x01, 0x02, 0x03, 0x20, 0x21, 0x30, 0x31, 0x50, 0x51, 0x52, 0x53] ∧ w.toNat % 2 ^ 24 ≠ 0) ∨
     (op ∈ [0x11, 0x13, 0x14, 0x32] ∧ w.toNat / 2 ^ 8 % 2 ^ 16 ≠ 0) ∨
     (op ∈ [0x10, 0x12] ∧ w.toNat / 2 ^ 21 % 2 ^ 3 ≠ 0) ∨
     (op ∈ [0x40, 0x41] ∧ w.toNat / 2 ^ 15 % 2 ^ 9 ≠ 0)) →
    hostWrite 0x00 w s = .next { s with status := s.errStatus 6 }

/-- R71, R74: words written out in spec/ decode to the commands they stand for. -/
def Obligations.SampleWordsDecode : Prop :=
  decode 0x00000000 = .ok .nop ∧ decode 0x02000000 = .ok .clrerr ∧ decode 0x12000037 = .ok (.pushc 0x37) ∧
  decode 0x20000000 = .ok .deciph ∧ decode 0x32000002 = .ok (.ckwr 2) ∧ decode 0x40004785 = .ok (.bfrd 5 15 true) ∧
  decode 0x41000103 = .ok (.bfwr 3 2 false) ∧ decode 0x53000000 = .ok .encode ∧
  decode 0x04000000 = .error .unknownOpcode ∧ decode 0x10200041 = .error .zeroBitSet

/-! ### The step and the host port (00_scope.md, 20_memory.md) -/

/-- R30, R72: a step whose next transaction writes a decodable word to `CMD` is `exec` of the command, after the
transaction is taken off the list; nothing else surrounds it. That transactions stand in a list is the model's choice (log
entry 5). -/
def Obligations.StepRunsTheDeliveredCommand : Prop :=
  ∀ (s : State) (w : Word) (i : Instr) (rest : List Transaction),
    s.pending = .write 0x00 w :: rest → decode w = .ok i → step s = exec i { s with pending := rest }

/-- No command touches the host's side of the port. The two fields are the model's own (log entry 5). -/
def Obligations.CommandsKeepTheHostPort : Prop :=
  ∀ (i : Instr) (s t : State), exec i s = .next t → t.pending = s.pending ∧ t.replies = s.replies

/-- R50: a host read returns the word of the address and changes no register. The transaction list and the replies are the
model's own (log entry 5). -/
def Obligations.HostReadChangesNoRegister : Prop :=
  ∀ (s : State) (a : Addr) (rest : List Transaction), s.pending = .read a :: rest →
    step s = .next { s with pending := rest, replies := hostRead a s :: s.replies }

/-- R16: every transaction is total: no step ends in a fault or a refusal. That a step with nothing pending exists is the
model's choice (log entry 5). -/
def Obligations.EveryStepAnswersNext : Prop :=
  ∀ s : State, ∃ t, step s = .next t

/-- R51 to R54, R35: what a read of each address returns; 0 for `CMD` and the unmapped addresses. -/
def Obligations.HostReadReturnsTheMappedRegister : Prop :=
  ∀ s : State,
    hostRead 0x00 s = 0 ∧
    (hostRead 0x01 s).toNat =
      s.status.err.toNat + 8 * s.status.rhint.toNat + 16 * s.status.efmt.toNat + 256 * s.status.eacc.toNat ∧
    (hostRead 0x02 s).toNat = (match s.ctrl.region with | .jp => 0 | .usPal => 1) +
      2 * (match s.ctrl.fmt with | .game => 0 | .ring => 1 | .memory => 3) ∧
    (hostRead 0x03 s).toNat = s.len.val ∧ hostRead 0x04 s = s.res ∧ (hostRead 0x05 s).toNat = s.chk.toNat ∧
    (s.fields.behav = 0 → hostRead 0x06 s = 0) ∧
    (1 ≤ s.fields.behav.toNat → s.fields.behav.toNat ≤ 5 → hostRead 0x06 s = 1) ∧
    (6 ≤ s.fields.behav.toNat → s.fields.behav.toNat ≤ 10 → hostRead 0x06 s = 2) ∧
    (11 ≤ s.fields.behav.toNat → hostRead 0x06 s = 3) ∧
    2 ^ 32 * (hostRead 0x09 s).toNat + (hostRead 0x08 s).toNat = s.data.toNat ∧
    (∀ i : Fin 20, (hostRead (BitVec.ofNat 7 (0x10 + i.val)) s).toNat = s.buf[i].toNat) ∧
    (hostRead 0x30 s).toNat = s.fields.keysel.toNat ∧ (hostRead 0x31 s).toNat = s.fields.gameId.toNat ∧
    (hostRead 0x32 s).toNat = s.fields.flags.toNat ∧ (hostRead 0x33 s).toNat = s.fields.behav.toNat ∧
    (hostRead 0x34 s).toNat = s.fields.companion.toNat ∧ (hostRead 0x35 s).toNat = s.fields.memory.toNat ∧
    2 ^ 32 * (hostRead 0x37 s).toNat + (hostRead 0x36 s).toNat = s.fields.rings.toNat ∧
    (∀ i : Fin 5, (hostRead (BitVec.ofNat 7 (0x38 + i.val)) s).toNat = s.fields.link[i].toNat) ∧
    (∀ i : Fin 5, (hostRead (BitVec.ofNat 7 (0x40 + i.val)) s).toNat = s.fields.child[i].toNat) ∧
    (∀ a : Addr, a.toNat = 0x07 ∨ (0x0A ≤ a.toNat ∧ a.toNat ≤ 0x0F) ∨ (0x24 ≤ a.toNat ∧ a.toNat ≤ 0x2F) ∨
      (0x3D ≤ a.toNat ∧ a.toNat ≤ 0x3F) ∨ 0x45 ≤ a.toNat → hostRead a s = 0)

/-- R52, R53: a write to a read-only register or to an unmapped address raises `IllegalOperation` and changes nothing else; an
unmapped address and the write-only `CMD` read 0. -/
def Obligations.ReadOnlyUnmappedAndWriteOnlyAddresses : Prop :=
  ∀ (s : State) (a : Addr) (d : Word),
    let unmapped := a = 0x07 ∨ (0x0A ≤ a.toNat ∧ a.toNat ≤ 0x0F) ∨ (0x24 ≤ a.toNat ∧ a.toNat ≤ 0x2F) ∨
      (0x3D ≤ a.toNat ∧ a.toNat ≤ 0x3F) ∨ 0x45 ≤ a.toNat
    (unmapped ∨ a = 0x01 ∨ a = 0x04 ∨ a = 0x05 ∨ a = 0x06 →
      hostWrite a d s = .next { s with status := s.errStatus 6 }) ∧
    (unmapped ∨ a = 0x00 → hostRead a s = 0)

/-- R23: a write to `CTRL`. -/
def Obligations.WriteToCtrlSetsRegionAndFormat : Prop :=
  ∀ (s : State) (d : Word),
    (8 ≤ d.toNat ∨ d.toNat / 2 % 4 = 2 → hostWrite 0x02 d s = .next { s with status := s.errStatus 6 }) ∧
    (d.toNat < 8 → d.toNat / 2 % 4 ≠ 2 →
      ∃ c : Ctrl, hostWrite 0x02 d s = .next { s with ctrl := c, status := s.okStatus } ∧
        (c.region = .usPal ↔ d.toNat % 2 = 1) ∧ (c.fmt = .game ↔ d.toNat / 2 = 0) ∧
        (c.fmt = .ring ↔ d.toNat / 2 = 1) ∧ (c.fmt = .memory ↔ d.toNat / 2 = 3))

/-- R24 and R25: a write to `LEN` and to a lane. -/
def Obligations.WriteToLenAndLanes : Prop :=
  ∀ (s : State) (d : Word),
    (20 < d.toNat → hostWrite 0x03 d s = .next { s with status := s.errStatus 1 }) ∧
    (d.toNat ≤ 20 → ∃ n : Fin 21, n.val = d.toNat ∧ hostWrite 0x03 d s = .next { s with len := n, status := s.okStatus }) ∧
    (∀ i : Fin 20, 63 < d.toNat → hostWrite (BitVec.ofNat 7 (0x10 + i.val)) d s =
      .next { s with status := { s.errStatus 2 with rhint := false } }) ∧
    (∀ i : Fin 20, d.toNat ≤ 63 → hostWrite (BitVec.ofNat 7 (0x10 + i.val)) d s =
      .next { s with buf := s.buf.set i (d.setWidth 8), status := s.okStatus })

/-- R31 to R34, R36, R38 to R40, R218: a field register refuses a value out of its range at once and keeps its own, and takes any other. -/
def Obligations.WriteToFieldRegisterIsRangeChecked : Prop :=
  ∀ (s : State) (d : Word),
    let F := s.fields
    let write (a : Nat) := hostWrite (BitVec.ofNat 7 a) d s
    let refused : Host.Outcome State Fault Refusal := .next { s with status := s.errStatus 5 }
    let accepted (G : Fields) : Host.Outcome State Fault Refusal := .next { s with fields := G, status := s.okStatus }
    write 0x30 = (if 7 < d.toNat then refused else accepted { F with keysel := d.setWidth 3 }) ∧
    write 0x31 = (if 32766 < d.toNat then refused else accepted { F with gameId := d.setWidth 15 }) ∧
    write 0x32 = (if 31 < d.toNat then refused else accepted { F with flags := d.setWidth 5 }) ∧
    write 0x33 = (if 255 < d.toNat then refused else accepted { F with behav := d.setWidth 8 }) ∧
    write 0x34 = (if 15 < d.toNat then refused else accepted { F with companion := d.setWidth 4 }) ∧
    write 0x35 = (if 9 < d.toNat then refused else accepted { F with memory := d.setWidth 4 }) ∧
    (∀ i : Fin 5, write (0x38 + i.val) =
      if 255 < d.toNat then refused else accepted { F with link := F.link.set i (d.setWidth 8) }) ∧
    (∀ i : Fin 5, write (0x40 + i.val) =
      if 255 < d.toNat then refused else accepted { F with child := F.child.set i (d.setWidth 8) })

/-- R26, R37, R55: the halves of `DATA` and `RINGS` are written independently and take every value. -/
def Obligations.WideRegistersAreTwoHalves : Prop :=
  ∀ (s : State) (d : Word),
    (∃ x : BitVec 64, hostWrite 0x08 d s = .next { s with data := x, status := s.okStatus } ∧
      x.toNat % 2 ^ 32 = d.toNat ∧ x.toNat / 2 ^ 32 = s.data.toNat / 2 ^ 32) ∧
    (∃ x : BitVec 64, hostWrite 0x09 d s = .next { s with data := x, status := s.okStatus } ∧
      x.toNat % 2 ^ 32 = s.data.toNat % 2 ^ 32 ∧ x.toNat / 2 ^ 32 = d.toNat) ∧
    (∃ x : BitVec 64, hostWrite 0x36 d s = .next { s with fields := { s.fields with rings := x }, status := s.okStatus } ∧
      x.toNat % 2 ^ 32 = d.toNat ∧ x.toNat / 2 ^ 32 = s.fields.rings.toNat / 2 ^ 32) ∧
    (∃ x : BitVec 64, hostWrite 0x37 d s = .next { s with fields := { s.fields with rings := x }, status := s.okStatus } ∧
      x.toNat % 2 ^ 32 = s.fields.rings.toNat % 2 ^ 32 ∧ x.toNat / 2 ^ 32 = d.toNat)

/-- R21: an accepted register write reads back, and no other address reads differently but `STATUS` and, after a write to
`BEHAV`, `BEHCLS`. -/
def Obligations.AcceptedWriteReadsBackAndAliasesNothing : Prop :=
  ∀ (s t : State) (a : Addr) (d : Word), a ≠ 0x00 → hostWrite a d s = .next t → t.status.err = 0 →
    hostRead a t = d ∧
    ∀ b : Addr, b ≠ a → b ≠ 0x01 → (b = 0x06 → a ≠ 0x33) → hostRead b t = hostRead b s

/-! ### Reset and the invariant (10_state.md, 70_reset_and_hazards.md) -/

/-- R47: after reset every register is zero, and so reads every address. -/
def Obligations.ResetZeroesEveryRegister : Prop :=
  State.reset.ctrl = { region := .jp, fmt := .game } ∧ State.reset.len = 0 ∧ (∀ i : Fin 20, State.reset.buf[i] = 0) ∧
  State.reset.data = 0 ∧ State.reset.res = 0 ∧ State.reset.chk = 0 ∧
  State.reset.status = { err := 0, rhint := false, efmt := 0, eacc := 0 } ∧
  State.reset.fields.keysel = 0 ∧ State.reset.fields.gameId = 0 ∧ State.reset.fields.flags = 0 ∧
  State.reset.fields.behav = 0 ∧ State.reset.fields.companion = 0 ∧ State.reset.fields.memory = 0 ∧
  State.reset.fields.rings = 0 ∧ (∀ i : Fin 5, State.reset.fields.link[i] = 0) ∧
  (∀ i : Fin 5, State.reset.fields.child[i] = 0) ∧ ∀ a : Addr, hostRead a State.reset = 0

/-- The invariant holds after reset (R42, R47). -/
def Obligations.ResetIsLegal : Prop := State.reset.Legal

/-- R42, R32, R38, R29, R210: every step keeps the registers legal, from every legal state. -/
def Obligations.EveryStepKeepsTheRegistersLegal : Prop :=
  ∀ s t : State, s.Legal → step s = .next t → t.Legal

/-! ### Errors (60_exceptions.md) -/

/-- R210, R216: error entry writes `ERR` and one bit of `EACC`, and nothing else. -/
def Obligations.ErrorEntryWritesErrAndOneStickyBit : Prop :=
  ∀ (k : ErrorKind) (s : State),
    let c : Nat := match k with
      | .lengthError => 1
      | .invalidSymbol => 2
      | .checksum => 3
      | .discriminator => 4
      | .fieldRange => 5
      | .illegalOperation => 6
    ∃ st : Status, State.raise k s = { s with status := st } ∧ st.rhint = s.status.rhint ∧ st.efmt = s.status.efmt ∧
      st.err.toNat = c ∧ ∀ j, st.eacc.getLsbD j = (s.status.eacc.getLsbD j || decide (j = c))

/-- R216: a failing transaction has no effect on `BUF`, `LEN`, `DATA`, `RES`, `CTRL` or any field register; the sticky bit of
its code is set and no other; `CHK` changes only by `CKVFY` and `LOAD`; `RHINT` only with code 2, `EFMT` only with code 4. -/
def Obligations.FailedWriteChangesOnlyItsRecord : Prop :=
  ∀ (s t : State) (a : Addr) (d : Word), hostWrite a d s = .next t → t.status.err ≠ 0 →
    t = { s with status := t.status, chk := t.chk } ∧
    t.status.eacc = s.status.eacc ||| (1#7 <<< t.status.err.toNat) ∧
    (t.chk ≠ s.chk → a = 0x00 ∧ (d = 0x31000000 ∨ d = 0x52000000)) ∧
    (t.status.rhint ≠ s.status.rhint → t.status.err = 2) ∧
    (t.status.efmt ≠ s.status.efmt → t.status.err = 4 ∧ t.status.efmt = s.ctrl.fmt.bits)

/-- R29: a write that completes keeps the records, and only `CLRERR` and `CLR` clear them. -/
def Obligations.SuccessfulWriteKeepsTheErrorRecord : Prop :=
  ∀ (s t : State) (a : Addr) (d : Word), hostWrite a d s = .next t → t.status.err = 0 →
    t.status = { s.status with err := 0 } ∨
    (a = 0x00 ∧ (d = 0x01000000 ∨ d = 0x02000000) ∧ t.status = { err := 0, rhint := false, efmt := 0, eacc := 0 })

/-- R211: which transactions can raise which kind. -/
def Obligations.ErrorKindsHaveOnlyTheirCauses : Prop :=
  ∀ (s t : State) (a : Addr) (d : Word), hostWrite a d s = .next t →
    let op := d.toNat / 2 ^ 24
    t.status.err ≠ 7 ∧
    (t.status.err = 1 → a = 0x03 ∨ (a = 0x00 ∧ op ∈ [0x12, 0x13, 0x20, 0x21, 0x31, 0x32, 0x50, 0x52])) ∧
    (t.status.err = 2 → (0x10 ≤ a.toNat ∧ a.toNat ≤ 0x23) ∨ (a = 0x00 ∧ op ∈ [0x10, 0x11, 0x12, 0x13])) ∧
    (t.status.err = 3 → a = 0x00 ∧ op ∈ [0x31, 0x52]) ∧
    (t.status.err = 4 → a = 0x00 ∧ op ∈ [0x50, 0x52]) ∧
    (t.status.err = 5 → (0x30 ≤ a.toNat ∧ a.toNat ≤ 0x35) ∨ (0x38 ≤ a.toNat ∧ a.toNat ≤ 0x3C) ∨
      (0x40 ≤ a.toNat ∧ a.toNat ≤ 0x44) ∨ (a = 0x00 ∧ op ∈ [0x41, 0x50, 0x51, 0x52, 0x53])) ∧
    (t.status.err = 6 → (a = 0x00 ∧ ((∀ i, decode d ≠ .ok i) ∨ op ∈ [0x14, 0x32, 0x40, 0x41])) ∨
      a = 0x02 ∨ a = 0x01 ∨ (0x04 ≤ a.toNat ∧ a.toNat ≤ 0x07) ∨ (0x0A ≤ a.toNat ∧ a.toNat ≤ 0x0F) ∨
      (0x24 ≤ a.toNat ∧ a.toNat ≤ 0x2F) ∨ (0x3D ≤ a.toNat ∧ a.toNat ≤ 0x3F) ∨ 0x45 ≤ a.toNat)

/-- R45: no outcome depends on `STATUS`, `CHK` or `RES`: two states that differ only there stay so, with the same `ERR`. -/
def Obligations.OutcomeIgnoresStatusChkAndRes : Prop :=
  ∀ (s t : State) (a : Addr) (d : Word) (st : Status) (c : Byte) (r : Word), hostWrite a d s = .next t →
    ∃ u : State, hostWrite a d { s with status := st, chk := c, res := r } = .next u ∧
      u = { t with status := u.status, chk := u.chk, res := u.res } ∧ u.status.err = t.status.err

/-! ### Control commands (40_control.md) -/

/-- R90, R91, R93: `NOP` clears only `ERR`; `CLRERR` only the error record; `CLRBUF` empties the buffer. -/
def Obligations.NopClrerrAndClrbufWriteOnlyTheirRegisters : Prop :=
  decode 0x00000000 = .ok .nop ∧ decode 0x02000000 = .ok .clrerr ∧ decode 0x03000000 = .ok .clrbuf ∧
  ∀ s : State,
    exec .nop s = .next { s with status := s.okStatus } ∧
    exec .clrerr s = .next { s with status := { err := 0, rhint := false, efmt := 0, eacc := 0 } } ∧
    ∃ t : State, exec .clrbuf s = .next t ∧ t = { s with len := 0, buf := t.buf, status := s.okStatus } ∧
      ∀ i : Fin 20, t.buf[i] = 0

/-- R92: the state after `CLR` equals the state after reset; the host's side of the port is no register (log
entry 5). -/
def Obligations.ClrGivesTheResetState : Prop :=
  decode 0x01000000 = .ok .clr ∧
  ∀ s : State, exec .clr s = .next { State.reset with pending := s.pending, replies := s.replies }

/-! ### Symbol Table (41_symbol_table.md) -/

/-- R101, R106, R107: `C2V` answers the value whose glyph it is, and refuses a glyph that the alphabet lacks, with the hint set
iff the other region's alphabet has it. -/
def Obligations.C2vLooksAGlyphUpOrRefusesIt : Prop :=
  ∀ (s : State) (g : Glyph),
    decode (0x10000000 ||| g.setWidth 32) = .ok (.c2v g) ∧
    (∀ v, Config.chip.alpha s.ctrl.region v = g →
      exec (.c2v g) s = .next { s with res := v.setWidth 32, status := s.okStatus }) ∧
    ((∀ v, Config.chip.alpha s.ctrl.region v ≠ g) →
      ∃ hint : Bool, exec (.c2v g) s = .next { s with status := { s.errStatus 2 with rhint := hint } } ∧
        (hint = true ↔ ∃ v, Config.chip.alpha s.ctrl.region.other v = g))

/-- R109: `V2C` reads the value port for 0 to 63 and refuses the rest. -/
def Obligations.V2cReadsTheAlphabet : Prop :=
  ∀ (s : State) (v : BitVec 8),
    decode (0x11000000 ||| v.setWidth 32) = .ok (.v2c v) ∧
    (v.toNat ≤ 63 → exec (.v2c v) s =
      .next { s with res := (Config.chip.alpha s.ctrl.region (v.setWidth 6)).setWidth 32, status := s.okStatus }) ∧
    (63 < v.toNat → exec (.v2c v) s = .next { s with status := { s.errStatus 2 with rhint := false } })

/-- R112: `V2C v` and then `C2V` of the glyph in `RES` gives `v` back. -/
def Obligations.V2cThenC2vGivesTheValueBack : Prop :=
  ∀ (s : State) (v : BitVec 8), v.toNat ≤ 63 →
    ∃ t u : State, exec (.v2c v) s = .next t ∧ exec (.c2v (t.res.setWidth 21)) t = .next u ∧
      u.status.err = 0 ∧ u.res.toNat = v.toNat

/-- R103, R107, R108, R215: what `PUSHC` does with every glyph, in the order of its checks: whitespace is discarded even when
the buffer is full, a glyph outside the alphabet is refused before the capacity is looked at, then a full buffer is refused, and
otherwise the glyph's value is appended. -/
def Obligations.PushcAppendsOrRefusesInOrder : Prop :=
  ∀ (s : State) (g : Glyph),
    decode (0x12000000 ||| g.setWidth 32) = .ok (.pushc g) ∧
    ∃ (hint : Bool) (t : State), exec (.pushc g) s = .next t ∧
      (hint = true ↔ ∃ v, Config.chip.alpha s.ctrl.region.other v = g) ∧
      (t =
        if g ∈ Config.chip.ws then { s with status := s.okStatus }
        else if ∀ v, Config.chip.alpha s.ctrl.region v ≠ g then { s with status := { s.errStatus 2 with rhint := hint } }
        else if s.len.val = 20 then { s with status := s.errStatus 1 }
        else { s with buf := t.buf, len := t.len, status := s.okStatus }) ∧
      ∀ v, Config.chip.alpha s.ctrl.region v = g → s.len.val < 20 →
        t.len.val = s.len.val + 1 ∧ ∀ i : Fin 20, t.buf[i] = if i.val = s.len.val then v.setWidth 8 else s.buf[i]

/-- R104, R215: `PUSHB` appends a byte up to 63, checking the value before the capacity. -/
def Obligations.PushbAppendsAByteOrRefuses : Prop :=
  ∀ (s : State) (b : BitVec 8),
    decode (0x13000000 ||| b.setWidth 32) = .ok (.pushb b) ∧
    (63 < b.toNat → exec (.pushb b) s = .next { s with status := { s.errStatus 2 with rhint := false } }) ∧
    (b.toNat ≤ 63 → s.len.val = 20 → exec (.pushb b) s = .next { s with status := s.errStatus 1 }) ∧
    (b.toNat ≤ 63 → s.len.val < 20 → ∃ t : State, exec (.pushb b) s = .next t ∧
      t = { s with buf := t.buf, len := t.len, status := s.okStatus } ∧ t.len.val = s.len.val + 1 ∧
      ∀ i : Fin 20, t.buf[i] = if i.val = s.len.val then b else s.buf[i])

/-- R105: `RDSYM i` puts the lane's glyph and the separator flag into `RES`, or refuses `i >= LEN`. -/
def Obligations.RdsymReadsALaneAsAGlyph : Prop :=
  ∀ (s : State) (i : BitVec 8),
    decode (0x14000000 ||| i.setWidth 32) = .ok (.rdsym i) ∧
    (s.len.val ≤ i.toNat → exec (.rdsym i) s = .next { s with status := s.errStatus 6 }) ∧
    (∀ h : i.toNat < s.len.val, ∃ r : Word, exec (.rdsym i) s = .next { s with res := r, status := s.okStatus } ∧
      r.toNat = (Config.chip.alpha s.ctrl.region ((s.buf[i.toNat]'(by have := s.len.isLt; omega)).setWidth 6)).toNat +
        if (i.toNat + 1) % 5 = 0 then 2 ^ 31 else 0)

/-- R110: `secretToBytes` of a text whose non-whitespace glyphs are the alphabet's glyphs of `vals` selects the region, clears
the buffer and leaves exactly `vals` in it; at the first glyph that is refused, foreign or one too many, the host stops, and
what follows in the text is not pushed. For every configuration that R7 allows; the substitutions of R100 are the host's. -/
def Obligations.SecretToBytesMapsATextAndStopsAtTheFirstError : Prop :=
  ∀ (c : Config) (ctrl : Ctrl) (text rest : List Glyph) (vals : List SymbolValue) (s : State), c.legal = true →
    text.filter (fun g => !c.ws.contains g) = vals.map (c.alpha ctrl.region) → vals.length ≤ 20 →
    let reached (t : State) : Prop :=
      t = { s with ctrl := ctrl, len := t.len, buf := t.buf, status := t.status } ∧ t.len.val = vals.length ∧
      ∀ i : Fin 20, t.buf[i] = ((vals.map (·.setWidth 8))[i.val]?).getD 0
    (∃ t : State, secretToBytes c ctrl text s = .next t ∧ t.status = s.okStatus ∧ reached t) ∧
    (∀ g, g ∉ c.ws → (∀ v, c.alpha ctrl.region v ≠ g) →
      ∃ t : State, secretToBytes c ctrl (text ++ g :: rest) s = .next t ∧ t.status.err = 2 ∧ reached t) ∧
    (vals.length = 20 → ∀ v : SymbolValue,
      ∃ t : State, secretToBytes c ctrl (text ++ c.alpha ctrl.region v :: rest) s = .next t ∧ t.status.err = 1 ∧ reached t)

/-- R112: pushing the glyphs that `rdstr` reads gives the lanes back, under the same region. So does pushing its text with the
separators in a block whose `WS` has U+0020, as by default (log entry 3). No push raises an error, and no register but the
buffer changes. For every configuration that R7 allows. -/
def Obligations.PrintedTextPushesBackToTheSameLanes : Prop :=
  ∀ (c : Config) (s u : State), c.legal = true → s.Legal → u.len = 0 → u.ctrl.region = s.ctrl.region →
    let same (t : State) : Prop :=
      t = { u with buf := t.buf, len := s.len, status := { u.status with err := t.status.err } } ∧
      (0 < s.len.val → t.status.err = 0) ∧ ∀ i : Fin 20, i.val < s.len.val → t.buf[i] = s.buf[i]
    (∃ t : State, hostWrites c (pushstr (glyphText c s)) u = .next t ∧ same t) ∧
    (Config.separator ∈ c.ws →
      ∃ t : State, hostWrites c (pushstr (rdstr c s)) u = .next t ∧ same t)

/-! ### Region Cipher (42_region_cipher.md) -/

/-- R122, R123, R124: both commands xor the lanes with the window of the key ROM and keep the key bits of lane 0; with no valid
lane they raise `LengthError`. -/
def Obligations.CipherCommandsXorTheKeyWindow : Prop :=
  decode 0x20000000 = .ok .deciph ∧ decode 0x21000000 = .ok .enciph ∧
  ∀ s : State,
    (s.len = 0 → exec .deciph s = .next { s with status := s.errStatus 1 } ∧
      exec .enciph s = .next { s with status := s.errStatus 1 }) ∧
    (s.Legal → 0 < s.len.val →
      ∃ t : State, exec .deciph s = .next t ∧ exec .enciph s = .next t ∧
        t = { s with buf := t.buf, status := s.okStatus } ∧
        (∀ (i : Fin 20) (k : Fin 48), k.val = 4 * (s.buf[0].toNat / 8) + i.val → 0 < i.val → i.val < s.len.val →
          t.buf[i] = s.buf[i] ^^^ (Config.chip.key s.ctrl.region k).setWidth 8) ∧
        (∀ k : Fin 48, k.val = 4 * (s.buf[0].toNat / 8) →
          t.buf[0].toNat = 8 * (s.buf[0].toNat / 8) +
            (s.buf[0] ^^^ (Config.chip.key s.ctrl.region k).setWidth 8).toNat % 8) ∧
        ∀ i : Fin 20, s.len.val ≤ i.val → t.buf[i] = s.buf[i])

/-- R125: the cipher undoes itself, in either order of the two commands. -/
def Obligations.CipherIsAnInvolution : Prop :=
  ∀ (s : State) (i j : Instr), (i = .deciph ∨ i = .enciph) → (j = .deciph ∨ j = .enciph) → 0 < s.len.val →
    ∃ t : State, exec i s = .next t ∧ exec j t = .next { s with status := s.okStatus }

/-! ### Checksum Engine (43_checksum.md) -/

/-- R135, R136, R137: `CKSUM` sums the valid lanes modulo 16, which is the sum of their low nibbles modulo 16. -/
def Obligations.CksumSumsTheValidLanes : Prop :=
  decode 0x30000000 = .ok .cksum ∧
  ∀ s : State, ∃ r : Word, exec .cksum s = .next { s with res := r, status := s.okStatus } ∧
    r.toNat = (∑ i : Fin 20, if i.val < s.len.val then s.buf[i].toNat else 0) % 16 ∧
    r.toNat = (∑ i : Fin 20, if i.val < s.len.val then s.buf[i].toNat % 16 else 0) % 16

/-- R138: `CKVFY` compares the sum of all lanes but the last with the last lane's low nibble and records both; with no valid
lane it raises `LengthError`. -/
def Obligations.CkvfyComparesTheTwoNibbles : Prop :=
  decode 0x31000000 = .ok .ckvfy ∧
  ∀ s : State,
    (s.len = 0 → exec .ckvfy s = .next { s with status := s.errStatus 1 }) ∧
    ∀ n : Fin 20, s.len.val = n.val + 1 →
      let calc' := (∑ i : Fin 20, if i.val < n.val then s.buf[i].toNat else 0) % 16
      let stor := s.buf[n].toNat % 16
      ∃ c : Byte, c.toNat = 16 * stor + calc' ∧
        exec .ckvfy s = .next { s with chk := c, status := if calc' = stor then s.okStatus else s.errStatus 3 }

/-- R139: `CKWR m` refuses `m > 3` before looking at `LEN`, then an empty buffer; else it writes `calc | (m << 4)` into the last
lane, and after it `CKVFY` succeeds. -/
def Obligations.CkwrSealsTheLastLane : Prop :=
  ∀ (s : State) (m : BitVec 8),
    decode (0x32000000 ||| m.setWidth 32) = .ok (.ckwr m) ∧
    (3 < m.toNat → exec (.ckwr m) s = .next { s with status := s.errStatus 6 }) ∧
    (m.toNat ≤ 3 → s.len = 0 → exec (.ckwr m) s = .next { s with status := s.errStatus 1 }) ∧
    (∀ n : Fin 20, m.toNat ≤ 3 → s.len.val = n.val + 1 →
      ∃ (t u : State) (b : Byte), exec (.ckwr m) s = .next t ∧ t = { s with buf := s.buf.set n b, status := s.okStatus } ∧
        b.toNat = 16 * m.toNat + (∑ i : Fin 20, if i.val < n.val then s.buf[i].toNat else 0) % 16 ∧
        exec .ckvfy t = .next u ∧ u.status.err = 0)

/-! ### Bit-Field Extractor (44_bitfield.md) -/

/-- R153, R155: `BFRD` within bounds gives the field as a sum over its positions, in either bit order; out of bounds it is
illegal. -/
def Obligations.BfrdReadsTheFieldAsASum : Prop :=
  ∀ (s : State) (off len : BitVec 7) (rev : Bool),
    decode (0x40000000 ||| BitVec.ofNat 32 (2 ^ 14 * rev.toNat + 2 ^ 7 * len.toNat + off.toNat)) =
      .ok (.bfrd off len rev) ∧
    (64 < len.toNat ∨ 6 * s.len.val < off.toNat + len.toNat →
      exec (.bfrd off len rev) s = .next { s with status := s.errStatus 6 }) ∧
    (len.toNat ≤ 64 → off.toNat + len.toNat ≤ 6 * s.len.val →
      ∃ x : BitVec 64, exec (.bfrd off len rev) s = .next { s with data := x, status := s.okStatus } ∧
        x.toNat = ∑ j ∈ Finset.range len.toNat,
          (s.bitAt (off.toNat + j)).toNat * 2 ^ (if rev then j else len.toNat - 1 - j))

/-- R154, R156: `BFWR` refuses a field out of bounds, then a `DATA` that does not fit; else it replaces exactly the field's
positions. -/
def Obligations.BfwrInjectsExactlyTheField : Prop :=
  ∀ (s : State) (off len : BitVec 7) (rev : Bool),
    decode (0x41000000 ||| BitVec.ofNat 32 (2 ^ 14 * rev.toNat + 2 ^ 7 * len.toNat + off.toNat)) =
      .ok (.bfwr off len rev) ∧
    (64 < len.toNat ∨ 6 * s.len.val < off.toNat + len.toNat →
      exec (.bfwr off len rev) s = .next { s with status := s.errStatus 6 }) ∧
    (len.toNat < 64 → off.toNat + len.toNat ≤ 6 * s.len.val → 2 ^ len.toNat ≤ s.data.toNat →
      exec (.bfwr off len rev) s = .next { s with status := s.errStatus 5 }) ∧
    (s.Legal → len.toNat ≤ 64 → off.toNat + len.toNat ≤ 6 * s.len.val → (len.toNat < 64 → s.data.toNat < 2 ^ len.toNat) →
      ∃ t : State, exec (.bfwr off len rev) s = .next t ∧ t = { s with buf := t.buf, status := s.okStatus } ∧
        (∀ i : Fin 20, t.buf[i].toNat ≤ 63) ∧
        ∀ k < 120, t.bitAt k =
          if off.toNat ≤ k ∧ k < off.toNat + len.toNat then
            s.data.getLsbD (if rev then k - off.toNat else len.toNat - 1 - (k - off.toNat))
          else s.bitAt k)

/-- R157: reading a field just written gives the value, and writing a field just read changes no lane. -/
def Obligations.BitFieldReadAndWriteAreInverse : Prop :=
  ∀ (s : State) (off len : BitVec 7) (rev : Bool), s.Legal → len.toNat ≤ 64 → off.toNat + len.toNat ≤ 6 * s.len.val →
    ((len.toNat < 64 → s.data.toNat < 2 ^ len.toNat) →
      ∃ t u : State, exec (.bfwr off len rev) s = .next t ∧ exec (.bfrd off len rev) t = .next u ∧ u.data = s.data) ∧
    (∃ t u : State, exec (.bfrd off len rev) s = .next t ∧ exec (.bfwr off len rev) t = .next u ∧
      u.status.err = 0 ∧ u.buf = s.buf)

/-! ### Format Codecs (45_format_codecs.md) -/

/-- R171, R172, R184: `PACK` of a Game secret, lane by lane as the lane table has it. -/
def Obligations.PackLaysOutAGameSecret : Prop :=
  ∀ s : State, s.ctrl.fmt = .game → s.fields.behav.toNat ≤ 63 →
    let K := s.fields.keysel.getLsbD
    let G := s.fields.gameId.getLsbD
    let L (n : Fin 5) := s.fields.link[n].getLsbD
    let C (n : Fin 5) := s.fields.child[n].getLsbD
    let B := s.fields.behav.getLsbD
    let M := s.fields.companion.getLsbD
    let FL := s.fields.flags.getLsbD
    ∃ t : State, exec .pack s = .next t ∧ t = { s with buf := t.buf, len := 20, status := s.okStatus } ∧
      t.buf[0] = laneOf (K 2) (K 1) (K 0) false false (G 0) ∧
      t.buf[1] = laneOf (G 1) (G 2) (G 3) (G 4) (G 5) (G 6) ∧
      t.buf[2] = laneOf (G 7) (G 8) (G 9) (G 10) (G 11) (G 12) ∧
      t.buf[3] = laneOf (G 13) (G 14) (FL 0) (FL 1) (L 0 0) (L 0 1) ∧
      t.buf[4] = laneOf (L 0 2) (L 0 3) (L 0 4) (L 0 5) (L 0 6) (L 0 7) ∧
      t.buf[5] = laneOf (C 0 0) (C 0 1) (C 0 2) (C 0 3) (C 0 4) (C 0 5) ∧
      t.buf[6] = laneOf (C 0 6) (C 0 7) (L 1 0) (L 1 1) (L 1 2) (L 1 3) ∧
      t.buf[7] = laneOf (L 1 4) (L 1 5) (L 1 6) (L 1 7) (C 1 0) (C 1 1) ∧
      t.buf[8] = laneOf (C 1 2) (C 1 3) (C 1 4) (C 1 5) (C 1 6) (C 1 7) ∧
      t.buf[9] = laneOf (B 0) (B 1) (B 2) (B 3) (B 4) (B 5) ∧
      t.buf[10] = laneOf (L 2 0) (L 2 1) (L 2 2) (L 2 3) (L 2 4) (L 2 5) ∧
      t.buf[11] = laneOf (L 2 6) (L 2 7) (C 2 0) (C 2 1) (C 2 2) (C 2 3) ∧
      t.buf[12] = laneOf (C 2 4) (C 2 5) (C 2 6) (C 2 7) (FL 2) (L 3 0) ∧
      t.buf[13] = laneOf (L 3 1) (L 3 2) (L 3 3) (L 3 4) (L 3 5) (L 3 6) ∧
      t.buf[14] = laneOf (L 3 7) (M 0) (M 1) (M 2) (M 3) (L 4 0) ∧
      t.buf[15] = laneOf (L 4 1) (L 4 2) (L 4 3) (L 4 4) (L 4 5) (L 4 6) ∧
      t.buf[16] = laneOf (L 4 7) (C 3 0) (C 3 1) (C 3 2) (C 3 3) (C 3 4) ∧
      t.buf[17] = laneOf (C 3 5) (C 3 6) (C 3 7) (FL 3) (C 4 0) (C 4 1) ∧
      t.buf[18] = laneOf (C 4 2) (C 4 3) (C 4 4) (C 4 5) (C 4 6) (C 4 7) ∧
      t.buf[19] = 0

/-- R171, R173, R184: `PACK` of a Ring secret, lane by lane; the lanes above its 15 keep their values. -/
def Obligations.PackLaysOutARingSecret : Prop :=
  ∀ s : State, s.ctrl.fmt = .ring →
    let K := s.fields.keysel.getLsbD
    let G := s.fields.gameId.getLsbD
    let R := s.fields.rings.getLsbD
    ∃ t : State, exec .pack s = .next t ∧ t = { s with buf := t.buf, len := 15, status := s.okStatus } ∧
      t.buf[0] = laneOf (K 2) (K 1) (K 0) false true (G 0) ∧
      t.buf[1] = laneOf (G 1) (G 2) (G 3) (G 4) (G 5) (G 6) ∧
      t.buf[2] = laneOf (G 7) (G 8) (G 9) (G 10) (G 11) (G 12) ∧
      t.buf[3] = laneOf (G 13) (G 14) (R 48) (R 49) (R 50) (R 51) ∧
      t.buf[4] = laneOf (R 52) (R 53) (R 54) (R 55) (R 16) (R 17) ∧
      t.buf[5] = laneOf (R 18) (R 19) (R 20) (R 21) (R 22) (R 23) ∧
      t.buf[6] = laneOf (R 0) (R 1) (R 2) (R 3) (R 4) (R 5) ∧
      t.buf[7] = laneOf (R 6) (R 7) (R 32) (R 33) (R 34) (R 35) ∧
      t.buf[8] = laneOf (R 36) (R 37) (R 38) (R 39) (R 56) (R 57) ∧
      t.buf[9] = laneOf (R 58) (R 59) (R 60) (R 61) (R 62) (R 63) ∧
      t.buf[10] = laneOf (R 24) (R 25) (R 26) (R 27) (R 28) (R 29) ∧
      t.buf[11] = laneOf (R 30) (R 31) (R 40) (R 41) (R 42) (R 43) ∧
      t.buf[12] = laneOf (R 44) (R 45) (R 46) (R 47) (R 8) (R 9) ∧
      t.buf[13] = laneOf (R 10) (R 11) (R 12) (R 13) (R 14) (R 15) ∧
      t.buf[14] = 0 ∧ ∀ i : Fin 20, 15 ≤ i.val → t.buf[i] = s.buf[i]

/-- R171, R174, R184: `PACK` of a Memory secret, lane by lane; the lanes above its 5 keep their values. -/
def Obligations.PackLaysOutAMemorySecret : Prop :=
  ∀ s : State, s.ctrl.fmt = .memory →
    let K := s.fields.keysel.getLsbD
    let G := s.fields.gameId.getLsbD
    let M := s.fields.memory.getLsbD
    ∃ t : State, exec .pack s = .next t ∧ t = { s with buf := t.buf, len := 5, status := s.okStatus } ∧
      t.buf[0] = laneOf (K 2) (K 1) (K 0) true true (G 0) ∧
      t.buf[1] = laneOf (G 1) (G 2) (G 3) (G 4) (G 5) (G 6) ∧
      t.buf[2] = laneOf (G 7) (G 8) (G 9) (G 10) (G 11) (G 12) ∧
      t.buf[3] = laneOf (G 13) (G 14) (M 0) (M 1) (M 2) (M 3) ∧
      t.buf[4] = 0 ∧ ∀ i : Fin 20, 5 ≤ i.val → t.buf[i] = s.buf[i]

/-- R186: `PACK` and `ENCODE` of a Game secret refuse a behaviour that its 6 bits cannot hold. -/
def Obligations.WideBehaviourIsNotEncodable : Prop :=
  ∀ s : State, s.ctrl.fmt = .game → 63 < s.fields.behav.toNat →
    exec .pack s = .next { s with status := s.errStatus 5 } ∧ exec .encode s = .next { s with status := s.errStatus 5 }

/-- R181, R182, R215: `UNPACK` checks the length, then the discriminator, then the ranges, and raises the first that fails. -/
def Obligations.UnpackChecksInOrder : Prop :=
  ∀ s : State,
    let N : Nat := match s.ctrl.fmt with | .game => 20 | .ring => 15 | .memory => 5
    let F : BitVec 2 := match s.ctrl.fmt with | .game => 0 | .ring => 1 | .memory => 3
    let disc := 2 * (s.bitAt 3).toNat + (s.bitAt 4).toNat
    let bad := (∀ j < 15, s.bitAt (5 + j) = true) ∨
      (s.ctrl.fmt = .memory ∧ s.bitAt 23 = true ∧ (s.bitAt 22 = true ∨ s.bitAt 21 = true))
    (s.len.val ≠ N → exec .unpack s = .next { s with status := s.errStatus 1 }) ∧
    (s.len.val = N → disc ≠ F.toNat → exec .unpack s = .next { s with status := { s.errStatus 4 with efmt := F } }) ∧
    (s.len.val = N → disc = F.toNat → bad → exec .unpack s = .next { s with status := s.errStatus 5 })

/-- R171, R172, R177, R180, R182, R185: what `UNPACK` takes from a Game secret, and what it leaves. -/
def Obligations.UnpackReadsAGameSecret : Prop :=
  ∀ s : State, s.ctrl.fmt = .game → s.len = 20 → s.bitAt 3 = false → s.bitAt 4 = false →
    (∃ j < 15, s.bitAt (5 + j) = false) →
    ∃ (F : Fields) (ln cn : Vector Byte 5),
      exec .unpack s = .next { s with fields := F, status := s.okStatus } ∧
      (∀ j < 3, F.keysel.getLsbD j = s.bitAt (2 - j)) ∧ (∀ j < 15, F.gameId.getLsbD j = s.bitAt (5 + j)) ∧
      F.flags.getLsbD 0 = s.bitAt 20 ∧ F.flags.getLsbD 1 = s.bitAt 21 ∧ F.flags.getLsbD 2 = s.bitAt 76 ∧
      F.flags.getLsbD 3 = s.bitAt 105 ∧ F.flags.getLsbD 4 = s.fields.flags.getLsbD 4 ∧
      F.behav.toNat ≤ 63 ∧ (∀ j < 6, F.behav.getLsbD j = s.bitAt (54 + j)) ∧
      (∀ j < 4, F.companion.getLsbD j = s.bitAt (85 + j)) ∧
      (∀ (n : Fin 5) (j : Nat), j < 8 → ln[n].getLsbD j = s.bitAt ([22, 38, 60, 77, 89][n] + j)) ∧
      (∀ (n : Fin 5) (j : Nat), j < 8 → cn[n].getLsbD j = s.bitAt ([30, 46, 68, 97, 106][n] + j)) ∧
      IsPadded ln F.link ∧ IsPadded cn F.child ∧ F.memory = s.fields.memory ∧ F.rings = s.fields.rings

/-- R171, R173, R180, R182, R185: what `UNPACK` takes from a Ring secret, and what it leaves. -/
def Obligations.UnpackReadsARingSecret : Prop :=
  ∀ s : State, s.ctrl.fmt = .ring → s.len = 15 → s.bitAt 3 = false → s.bitAt 4 = true →
    (∃ j < 15, s.bitAt (5 + j) = false) →
    ∃ (k : BitVec 3) (g : BitVec 15) (r : BitVec 64),
      exec .unpack s =
        .next { s with fields := { s.fields with keysel := k, gameId := g, rings := r }, status := s.okStatus } ∧
      (∀ j < 3, k.getLsbD j = s.bitAt (2 - j)) ∧ (∀ j < 15, g.getLsbD j = s.bitAt (5 + j)) ∧
      ∀ (n : Fin 8) (j : Nat), j < 8 → r.getLsbD (8 * n.val + j) = s.bitAt ([36, 76, 28, 60, 44, 68, 20, 52][n] + j)

/-- R171, R174, R176, R180, R182, R185: what `UNPACK` takes from a Memory secret, and what it leaves. -/
def Obligations.UnpackReadsAMemorySecret : Prop :=
  ∀ s : State, s.ctrl.fmt = .memory → s.len = 5 → s.bitAt 3 = true → s.bitAt 4 = true →
    (∃ j < 15, s.bitAt (5 + j) = false) → (s.bitAt 23 = false ∨ (s.bitAt 22 = false ∧ s.bitAt 21 = false)) →
    ∃ (k : BitVec 3) (g : BitVec 15) (m : BitVec 4) (f : BitVec 5),
      exec .unpack s =
        .next { s with fields := { s.fields with keysel := k, gameId := g, memory := m, flags := f }, status := s.okStatus } ∧
      (∀ j < 3, k.getLsbD j = s.bitAt (2 - j)) ∧ (∀ j < 15, g.getLsbD j = s.bitAt (5 + j)) ∧
      (∀ j < 4, m.getLsbD j = s.bitAt (20 + j)) ∧
      f.getLsbD 4 = s.bitAt 24 ∧ (f.getLsbD 1 = false ↔ s.bitAt 24 = s.bitAt 25) ∧
      f.getLsbD 0 = s.fields.flags.getLsbD 0 ∧ f.getLsbD 2 = s.fields.flags.getLsbD 2 ∧
      f.getLsbD 3 = s.fields.flags.getLsbD 3

/-- R190, R191: `LOAD` of a buffer of the right length is `DECIPH`, `CKVFY`, `UNPACK` stopped at the first error, with the
buffer left as it was; of a wrong length it is `LengthError` and nothing more. -/
def Obligations.LoadIsDeciphCkvfyUnpackWithTheBufferKept : Prop :=
  ∀ s : State,
    let N : Nat := match s.ctrl.fmt with | .game => 20 | .ring => 15 | .memory => 5
    (s.len.val ≠ N → exec .load s = .next { s with status := s.errStatus 1 }) ∧
    (s.len.val = N → ∃ p q u : State, exec .deciph s = .next p ∧ exec .ckvfy p = .next q ∧ exec .unpack q = .next u ∧
      exec .load s = .next { (if q.status.err = 0 then u else q) with buf := s.buf })

/-- R190: when `CKVFY` and the discriminator and range checks of `UNPACK` would pass on the deciphered bytes, `LOAD` completes:
`CHK` and the field registers are written, `ERR` is 0, and nothing else changes. -/
def Obligations.LoadCompletesOnAValidSecret : Prop :=
  ∀ s : State,
    let T := cipher Config.chip s.ctrl.region s.bytes
    let F := extract s.ctrl.fmt (bitString T) s.fields
    s.len.val = s.ctrl.fmt.size → calcNibble T = storedNibble T →
    fieldRead (bitString T) 3 2 false = s.ctrl.fmt.bits.toNat → F.gameId.toNat ≤ 32766 →
    (s.ctrl.fmt = .memory → F.memory.toNat ≤ 9) →
    exec .load s = .next { s with chk := storedNibble T ++ calcNibble T, fields := F, status := s.okStatus }

/-- R194, R175: `ENCODE` gives the same as `PACK`, `CKWR m`, `ENCIPH`, where `m` is the Memory mask or 0. -/
def Obligations.EncodeIsPackCkwrEnciph : Prop :=
  ∀ s : State, (s.ctrl.fmt = .game → s.fields.behav.toNat ≤ 63) →
    let ret := (s.fields.flags.getLsbD 4).toNat
    let m : Nat := if s.ctrl.fmt = .memory then (if s.fields.flags.getLsbD 1 then 1 + ret else 3 * ret) else 0
    ∃ p q r : State, exec .pack s = .next p ∧ exec (.ckwr (BitVec.ofNat 8 m)) p = .next q ∧ exec .enciph q = .next r ∧
      r.status.err = 0 ∧ exec .encode s = .next r

/-- R195: `ENCODE` then `LOAD` succeeds and leaves every field register as it was, up to the padding of a Game secret's names. -/
def Obligations.EncodeThenLoadRestoresTheFields : Prop :=
  ∀ s : State, s.Legal → (s.ctrl.fmt = .game → s.fields.behav.toNat ≤ 63) →
    ∃ t u : State, exec .encode s = .next t ∧ exec .load t = .next u ∧ t.status.err = 0 ∧ u.status.err = 0 ∧
      u.buf = t.buf ∧
      (s.ctrl.fmt ≠ .game → u.fields = s.fields) ∧
      (s.ctrl.fmt = .game →
        u.fields = { s.fields with link := u.fields.link, child := u.fields.child } ∧
        IsPadded s.fields.link u.fields.link ∧ IsPadded s.fields.child u.fields.child)

/-- R196: after `ENCODE`, `DECIPH` and `CKVFY` end with `ERR = 0` and `CHK[7:4] = CHK[3:0]`. -/
def Obligations.EncodedSecretVerifies : Prop :=
  ∀ s : State, (s.ctrl.fmt = .game → s.fields.behav.toNat ≤ 63) →
    ∃ t p q : State, exec .encode s = .next t ∧ exec .deciph t = .next p ∧ exec .ckvfy p = .next q ∧
      q.status.err = 0 ∧ q.chk.toNat / 16 = q.chk.toNat % 16

/-- R195, the other direction: after a `LOAD` that succeeds, `ENCODE` completes and gives the same lanes exactly when the loaded
secret had no trailing null name bytes (Game) and bits 5:4 of its last plain byte zero (Game and Ring). -/
def Obligations.LoadThenEncodeRestoresTheLanes : Prop :=
  ∀ s t p : State, s.Legal → exec .load s = .next t → t.status.err = 0 → exec .deciph s = .next p →
    let last : Byte := match s.ctrl.fmt with | .game => p.buf[19] | .ring => p.buf[14] | .memory => 0
    ∃ u : State, exec .encode t = .next u ∧ u.status.err = 0 ∧ u.len = s.len ∧
      (u.buf = s.buf ↔
        last.toNat < 16 ∧
        (s.ctrl.fmt = .game → (∃ j < 8, p.bitAt (89 + j) = true) ∧ ∃ j < 8, p.bitAt (106 + j) = true))
end

