-- ==== Sys2Proof/Laws/State.lean ====
section
/-! SUPPORT. What each named update of the state does to each field: one lemma per field per update. -/

namespace Sys2Proof.Machine

/-! ### `State.succeed` -/

@[simp] theorem State.succeed_ctrl (s : State) : (s.succeed).ctrl = s.ctrl := rfl
@[simp] theorem State.succeed_len (s : State) : (s.succeed).len = s.len := rfl
@[simp] theorem State.succeed_buf (s : State) : (s.succeed).buf = s.buf := rfl
@[simp] theorem State.succeed_data (s : State) : (s.succeed).data = s.data := rfl
@[simp] theorem State.succeed_res (s : State) : (s.succeed).res = s.res := rfl
@[simp] theorem State.succeed_chk (s : State) : (s.succeed).chk = s.chk := rfl
@[simp] theorem State.succeed_status (s : State) : (s.succeed).status = s.okStatus := rfl
@[simp] theorem State.succeed_fields (s : State) : (s.succeed).fields = s.fields := rfl
@[simp] theorem State.succeed_pending (s : State) : (s.succeed).pending = s.pending := rfl
@[simp] theorem State.succeed_replies (s : State) : (s.succeed).replies = s.replies := rfl

/-! ### `State.raise` -/

@[simp] theorem State.raise_ctrl (k : ErrorKind) (s : State) : (s.raise k).ctrl = s.ctrl := rfl
@[simp] theorem State.raise_len (k : ErrorKind) (s : State) : (s.raise k).len = s.len := rfl
@[simp] theorem State.raise_buf (k : ErrorKind) (s : State) : (s.raise k).buf = s.buf := rfl
@[simp] theorem State.raise_data (k : ErrorKind) (s : State) : (s.raise k).data = s.data := rfl
@[simp] theorem State.raise_res (k : ErrorKind) (s : State) : (s.raise k).res = s.res := rfl
@[simp] theorem State.raise_chk (k : ErrorKind) (s : State) : (s.raise k).chk = s.chk := rfl
@[simp] theorem State.raise_status (k : ErrorKind) (s : State) : (s.raise k).status = s.errStatus k.code := rfl
@[simp] theorem State.raise_fields (k : ErrorKind) (s : State) : (s.raise k).fields = s.fields := rfl
@[simp] theorem State.raise_pending (k : ErrorKind) (s : State) : (s.raise k).pending = s.pending := rfl
@[simp] theorem State.raise_replies (k : ErrorKind) (s : State) : (s.raise k).replies = s.replies := rfl

/-! ### `State.raiseInvalidSymbol` -/

@[simp] theorem State.raiseInvalidSymbol_ctrl (h : Bool) (s : State) : (s.raiseInvalidSymbol h).ctrl = s.ctrl := rfl
@[simp] theorem State.raiseInvalidSymbol_len (h : Bool) (s : State) : (s.raiseInvalidSymbol h).len = s.len := rfl
@[simp] theorem State.raiseInvalidSymbol_buf (h : Bool) (s : State) : (s.raiseInvalidSymbol h).buf = s.buf := rfl
@[simp] theorem State.raiseInvalidSymbol_data (h : Bool) (s : State) : (s.raiseInvalidSymbol h).data = s.data := rfl
@[simp] theorem State.raiseInvalidSymbol_res (h : Bool) (s : State) : (s.raiseInvalidSymbol h).res = s.res := rfl
@[simp] theorem State.raiseInvalidSymbol_chk (h : Bool) (s : State) : (s.raiseInvalidSymbol h).chk = s.chk := rfl
@[simp] theorem State.raiseInvalidSymbol_status (h : Bool) (s : State) : (s.raiseInvalidSymbol h).status = { s.errStatus 2 with rhint := h } := rfl
@[simp] theorem State.raiseInvalidSymbol_fields (h : Bool) (s : State) : (s.raiseInvalidSymbol h).fields = s.fields := rfl
@[simp] theorem State.raiseInvalidSymbol_pending (h : Bool) (s : State) : (s.raiseInvalidSymbol h).pending = s.pending := rfl
@[simp] theorem State.raiseInvalidSymbol_replies (h : Bool) (s : State) : (s.raiseInvalidSymbol h).replies = s.replies := rfl

/-! ### `State.raiseDiscriminator` -/

@[simp] theorem State.raiseDiscriminator_ctrl (s : State) : (s.raiseDiscriminator).ctrl = s.ctrl := rfl
@[simp] theorem State.raiseDiscriminator_len (s : State) : (s.raiseDiscriminator).len = s.len := rfl
@[simp] theorem State.raiseDiscriminator_buf (s : State) : (s.raiseDiscriminator).buf = s.buf := rfl
@[simp] theorem State.raiseDiscriminator_data (s : State) : (s.raiseDiscriminator).data = s.data := rfl
@[simp] theorem State.raiseDiscriminator_res (s : State) : (s.raiseDiscriminator).res = s.res := rfl
@[simp] theorem State.raiseDiscriminator_chk (s : State) : (s.raiseDiscriminator).chk = s.chk := rfl
@[simp] theorem State.raiseDiscriminator_status (s : State) : (s.raiseDiscriminator).status = { s.errStatus 4 with efmt := s.ctrl.fmt.bits } := rfl
@[simp] theorem State.raiseDiscriminator_fields (s : State) : (s.raiseDiscriminator).fields = s.fields := rfl
@[simp] theorem State.raiseDiscriminator_pending (s : State) : (s.raiseDiscriminator).pending = s.pending := rfl
@[simp] theorem State.raiseDiscriminator_replies (s : State) : (s.raiseDiscriminator).replies = s.replies := rfl

/-! ### `State.clearErrors` -/

@[simp] theorem State.clearErrors_ctrl (s : State) : (s.clearErrors).ctrl = s.ctrl := rfl
@[simp] theorem State.clearErrors_len (s : State) : (s.clearErrors).len = s.len := rfl
@[simp] theorem State.clearErrors_buf (s : State) : (s.clearErrors).buf = s.buf := rfl
@[simp] theorem State.clearErrors_data (s : State) : (s.clearErrors).data = s.data := rfl
@[simp] theorem State.clearErrors_res (s : State) : (s.clearErrors).res = s.res := rfl
@[simp] theorem State.clearErrors_chk (s : State) : (s.clearErrors).chk = s.chk := rfl
@[simp] theorem State.clearErrors_status (s : State) : (s.clearErrors).status = State.reset.status := rfl
@[simp] theorem State.clearErrors_fields (s : State) : (s.clearErrors).fields = s.fields := rfl
@[simp] theorem State.clearErrors_pending (s : State) : (s.clearErrors).pending = s.pending := rfl
@[simp] theorem State.clearErrors_replies (s : State) : (s.clearErrors).replies = s.replies := rfl

/-! ### `State.clearRegisters` -/

@[simp] theorem State.clearRegisters_ctrl (s : State) : (s.clearRegisters).ctrl = State.reset.ctrl := rfl
@[simp] theorem State.clearRegisters_len (s : State) : (s.clearRegisters).len = State.reset.len := rfl
@[simp] theorem State.clearRegisters_buf (s : State) : (s.clearRegisters).buf = State.reset.buf := rfl
@[simp] theorem State.clearRegisters_data (s : State) : (s.clearRegisters).data = State.reset.data := rfl
@[simp] theorem State.clearRegisters_res (s : State) : (s.clearRegisters).res = State.reset.res := rfl
@[simp] theorem State.clearRegisters_chk (s : State) : (s.clearRegisters).chk = State.reset.chk := rfl
@[simp] theorem State.clearRegisters_status (s : State) : (s.clearRegisters).status = State.reset.status := rfl
@[simp] theorem State.clearRegisters_fields (s : State) : (s.clearRegisters).fields = State.reset.fields := rfl
@[simp] theorem State.clearRegisters_pending (s : State) : (s.clearRegisters).pending = s.pending := rfl
@[simp] theorem State.clearRegisters_replies (s : State) : (s.clearRegisters).replies = s.replies := rfl

/-! ### `State.clearBuffer` -/

@[simp] theorem State.clearBuffer_ctrl (s : State) : (s.clearBuffer).ctrl = s.ctrl := rfl
@[simp] theorem State.clearBuffer_len (s : State) : (s.clearBuffer).len = 0 := rfl
@[simp] theorem State.clearBuffer_buf (s : State) : (s.clearBuffer).buf = Vector.replicate 20 0 := rfl
@[simp] theorem State.clearBuffer_data (s : State) : (s.clearBuffer).data = s.data := rfl
@[simp] theorem State.clearBuffer_res (s : State) : (s.clearBuffer).res = s.res := rfl
@[simp] theorem State.clearBuffer_chk (s : State) : (s.clearBuffer).chk = s.chk := rfl
@[simp] theorem State.clearBuffer_status (s : State) : (s.clearBuffer).status = s.status := rfl
@[simp] theorem State.clearBuffer_fields (s : State) : (s.clearBuffer).fields = s.fields := rfl
@[simp] theorem State.clearBuffer_pending (s : State) : (s.clearBuffer).pending = s.pending := rfl
@[simp] theorem State.clearBuffer_replies (s : State) : (s.clearBuffer).replies = s.replies := rfl

/-! ### `State.pushLane` -/

@[simp] theorem State.pushLane_ctrl (b : Byte) (s : State) : (s.pushLane b).ctrl = s.ctrl := rfl
@[simp] theorem State.pushLane_len (b : Byte) (s : State) : (s.pushLane b).len = s.len + 1 := rfl
@[simp] theorem State.pushLane_buf (b : Byte) (s : State) : (s.pushLane b).buf = s.buf.setIfInBounds s.len.val b := rfl
@[simp] theorem State.pushLane_data (b : Byte) (s : State) : (s.pushLane b).data = s.data := rfl
@[simp] theorem State.pushLane_res (b : Byte) (s : State) : (s.pushLane b).res = s.res := rfl
@[simp] theorem State.pushLane_chk (b : Byte) (s : State) : (s.pushLane b).chk = s.chk := rfl
@[simp] theorem State.pushLane_status (b : Byte) (s : State) : (s.pushLane b).status = s.status := rfl
@[simp] theorem State.pushLane_fields (b : Byte) (s : State) : (s.pushLane b).fields = s.fields := rfl
@[simp] theorem State.pushLane_pending (b : Byte) (s : State) : (s.pushLane b).pending = s.pending := rfl
@[simp] theorem State.pushLane_replies (b : Byte) (s : State) : (s.pushLane b).replies = s.replies := rfl

/-! ### `State.storeBytes` -/

@[simp] theorem State.storeBytes_ctrl (T : List Byte) (s : State) : (s.storeBytes T).ctrl = s.ctrl := rfl
@[simp] theorem State.storeBytes_len (T : List Byte) (s : State) : (s.storeBytes T).len = s.len := rfl
@[simp] theorem State.storeBytes_buf (T : List Byte) (s : State) : (s.storeBytes T).buf = overlay s.buf T := rfl
@[simp] theorem State.storeBytes_data (T : List Byte) (s : State) : (s.storeBytes T).data = s.data := rfl
@[simp] theorem State.storeBytes_res (T : List Byte) (s : State) : (s.storeBytes T).res = s.res := rfl
@[simp] theorem State.storeBytes_chk (T : List Byte) (s : State) : (s.storeBytes T).chk = s.chk := rfl
@[simp] theorem State.storeBytes_status (T : List Byte) (s : State) : (s.storeBytes T).status = s.status := rfl
@[simp] theorem State.storeBytes_fields (T : List Byte) (s : State) : (s.storeBytes T).fields = s.fields := rfl
@[simp] theorem State.storeBytes_pending (T : List Byte) (s : State) : (s.storeBytes T).pending = s.pending := rfl
@[simp] theorem State.storeBytes_replies (T : List Byte) (s : State) : (s.storeBytes T).replies = s.replies := rfl

/-! ### `State.storeSecret` -/

@[simp] theorem State.storeSecret_ctrl (T : List Byte) (s : State) : (s.storeSecret T).ctrl = s.ctrl := rfl
@[simp] theorem State.storeSecret_len (T : List Byte) (s : State) : (s.storeSecret T).len = Fin.ofNat 21 s.ctrl.fmt.size := rfl
@[simp] theorem State.storeSecret_buf (T : List Byte) (s : State) : (s.storeSecret T).buf = overlay s.buf T := rfl
@[simp] theorem State.storeSecret_data (T : List Byte) (s : State) : (s.storeSecret T).data = s.data := rfl
@[simp] theorem State.storeSecret_res (T : List Byte) (s : State) : (s.storeSecret T).res = s.res := rfl
@[simp] theorem State.storeSecret_chk (T : List Byte) (s : State) : (s.storeSecret T).chk = s.chk := rfl
@[simp] theorem State.storeSecret_status (T : List Byte) (s : State) : (s.storeSecret T).status = s.status := rfl
@[simp] theorem State.storeSecret_fields (T : List Byte) (s : State) : (s.storeSecret T).fields = s.fields := rfl
@[simp] theorem State.storeSecret_pending (T : List Byte) (s : State) : (s.storeSecret T).pending = s.pending := rfl
@[simp] theorem State.storeSecret_replies (T : List Byte) (s : State) : (s.storeSecret T).replies = s.replies := rfl

/-! ### `State.setRes` -/

@[simp] theorem State.setRes_ctrl (v : Word) (s : State) : (s.setRes v).ctrl = s.ctrl := rfl
@[simp] theorem State.setRes_len (v : Word) (s : State) : (s.setRes v).len = s.len := rfl
@[simp] theorem State.setRes_buf (v : Word) (s : State) : (s.setRes v).buf = s.buf := rfl
@[simp] theorem State.setRes_data (v : Word) (s : State) : (s.setRes v).data = s.data := rfl
@[simp] theorem State.setRes_res (v : Word) (s : State) : (s.setRes v).res = v := rfl
@[simp] theorem State.setRes_chk (v : Word) (s : State) : (s.setRes v).chk = s.chk := rfl
@[simp] theorem State.setRes_status (v : Word) (s : State) : (s.setRes v).status = s.status := rfl
@[simp] theorem State.setRes_fields (v : Word) (s : State) : (s.setRes v).fields = s.fields := rfl
@[simp] theorem State.setRes_pending (v : Word) (s : State) : (s.setRes v).pending = s.pending := rfl
@[simp] theorem State.setRes_replies (v : Word) (s : State) : (s.setRes v).replies = s.replies := rfl

/-! ### `State.recordChk` -/

@[simp] theorem State.recordChk_ctrl (T : List Byte) (s : State) : (s.recordChk T).ctrl = s.ctrl := rfl
@[simp] theorem State.recordChk_len (T : List Byte) (s : State) : (s.recordChk T).len = s.len := rfl
@[simp] theorem State.recordChk_buf (T : List Byte) (s : State) : (s.recordChk T).buf = s.buf := rfl
@[simp] theorem State.recordChk_data (T : List Byte) (s : State) : (s.recordChk T).data = s.data := rfl
@[simp] theorem State.recordChk_res (T : List Byte) (s : State) : (s.recordChk T).res = s.res := rfl
@[simp] theorem State.recordChk_chk (T : List Byte) (s : State) : (s.recordChk T).chk = storedNibble T ++ calcNibble T := rfl
@[simp] theorem State.recordChk_status (T : List Byte) (s : State) : (s.recordChk T).status = s.status := rfl
@[simp] theorem State.recordChk_fields (T : List Byte) (s : State) : (s.recordChk T).fields = s.fields := rfl
@[simp] theorem State.recordChk_pending (T : List Byte) (s : State) : (s.recordChk T).pending = s.pending := rfl
@[simp] theorem State.recordChk_replies (T : List Byte) (s : State) : (s.recordChk T).replies = s.replies := rfl

/-! ### `STATUS` after success and after an error -/

@[simp] theorem State.okStatus_err (s : State) : s.okStatus.err = 0 := rfl
@[simp] theorem State.okStatus_rhint (s : State) : s.okStatus.rhint = s.status.rhint := rfl
@[simp] theorem State.okStatus_efmt (s : State) : s.okStatus.efmt = s.status.efmt := rfl
@[simp] theorem State.okStatus_eacc (s : State) : s.okStatus.eacc = s.status.eacc := rfl
@[simp] theorem State.errStatus_err (c : BitVec 3) (s : State) : (s.errStatus c).err = c := rfl
@[simp] theorem State.errStatus_rhint (c : BitVec 3) (s : State) : (s.errStatus c).rhint = s.status.rhint := rfl
@[simp] theorem State.errStatus_efmt (c : BitVec 3) (s : State) : (s.errStatus c).efmt = s.status.efmt := rfl
@[simp] theorem State.errStatus_eacc (c : BitVec 3) (s : State) :
    (s.errStatus c).eacc = s.status.eacc ||| (1#7 <<< c.toNat) := rfl

/-! ### The fetch word -/

@[simp] theorem State.withFetchWord_pending (s : State) (n w : Nat) :
    (s.withFetchWord n w).pending = deliver n w :: s.pending := rfl

end Sys2Proof.Machine
end

