-- ==== Sys2Proof/Laws/Ops.lean ====
section
/-! SUPPORT. What the shared operations over the lanes and over register slices do. -/

namespace Sys2Proof.Machine

/-- `overlay` puts `T[i]` into lane `i` where `T` has it, and keeps the other lanes. -/
theorem getElem_overlay (buf : Vector Byte 20) (T : List Byte) (i : Nat) (h : i < 20) :
    (overlay buf T)[i] = T.getD i buf[i] := by
  simp only [overlay, Vector.getElem_mk, List.getElem_toArray, List.getElem_append, List.length_take,
    List.getElem_take, List.getElem_drop, Vector.getElem_toList]
  split
  · next hi => rw [List.getD_eq_getElem _ _ (by omega)]
  · next hi =>
    rw [List.getD_eq_default _ _ (by omega)]
    congr 1
    omega

/-- A lane of the state, by its number. -/
theorem State.lane_eq (s : State) (i : Nat) (h : i < 20) : s.lane i = s.buf[i] := by
  simp [State.lane, h]

@[simp] theorem State.length_bytes (s : State) : s.bytes.length = s.len.val := by
  have := s.len.isLt
  simp [State.bytes]
  omega

/-- Byte `i` of the array that commands see is lane `i`. -/
theorem State.getElem_bytes (s : State) (i : Nat) (h : i < s.bytes.length) :
    s.bytes[i] = s.buf[i]'(by have := s.len.isLt; simp at h; omega) := by
  simp [State.bytes]

/-- Writing back an array of `LEN` bytes: the array is what commands see next. -/
theorem State.bytes_storeBytes (s : State) (T : List Byte) (h : T.length = s.len.val) : (s.storeBytes T).bytes = T := by
  have := s.len.isLt
  simp only [State.bytes, State.storeBytes, overlay, Vector.toList_mk]
  rw [List.take_of_length_le (l := T) (by omega), List.take_append_of_le_length (by omega), ← h, List.take_length]

/-- `putSlice` replaces exactly the bits `lo` to `lo + n - 1`. -/
theorem getLsbD_putSlice {w : Nat} (x : BitVec w) (lo n v k : Nat) :
    (putSlice x lo n v).getLsbD k =
      if lo ≤ k ∧ k < lo + n then decide (k < w) && v.testBit (k - lo) else x.getLsbD k := by
  by_cases hw : k < w
  · by_cases hlo : lo ≤ k
    · have h1 : k - lo < w := by omega
      have h2 : (k < lo + n) = (k - lo < n) := propext (by omega)
      by_cases hn : k - lo < n <;>
        simp [putSlice, hw, hlo, hn, h1, h2, Nat.testBit_two_pow_sub_one, Nat.testBit_mod_two_pow,
          -BitVec.getLsbD_eq_getElem, BitVec.getLsbD_ofNat, Nat.not_lt.2 hlo]
    · simp [putSlice, hw, hlo, Nat.lt_of_not_le hlo]
  · have hx : x.getLsbD k = false := BitVec.getLsbD_of_ge x k (by omega)
    simp [putSlice, hw, hx]

end Sys2Proof.Machine
end

