-- ==== Sys2Proof/Laws/BitField.lean ====
section
/-! SUPPORT. What the bit-string functions do (rules R150 to R154 of `44_bitfield.md`). -/

namespace Sys2Proof.Machine

/-- `bin6` of a lane, bit by bit. -/
theorem bin6_eq (b : Byte) :
    bin6 b = [b.getLsbD 5, b.getLsbD 4, b.getLsbD 3, b.getLsbD 2, b.getLsbD 1, b.getLsbD 0] := rfl

@[simp] theorem length_bitString (B : List Byte) : (bitString B).length = 6 * B.length := by
  induction B with
  | nil => rfl
  | cons b rest ih =>
    simp only [bitString, List.flatMap_cons, List.length_append, List.length_cons] at *
    rw [ih, bin6_eq]
    simp
    omega

/-- Position `k` of a bit-string is bit `5 - k mod 6` of byte `k div 6` (R12, R150). -/
theorem getElem?_bitString (B : List Byte) (k : Nat) :
    (bitString B)[k]? = B[k / 6]?.map fun b => b.getLsbD (5 - k % 6) := by
  induction B generalizing k with
  | nil => simp [bitString]
  | cons b rest ih =>
    have hcons : bitString (b :: rest) = bin6 b ++ bitString rest := by simp [bitString]
    rw [hcons]
    by_cases h : k < 6
    · have hdiv : k / 6 = 0 := by omega
      have hmod : k % 6 = k := by omega
      rw [List.getElem?_append_left (by simpa [bin6_eq] using h), hdiv, hmod]
      interval_cases k <;> rfl
    · have hdiv : k / 6 = (k - 6) / 6 + 1 := by omega
      have hmod : k % 6 = (k - 6) % 6 := by omega
      rw [List.getElem?_append_right (by simp [bin6_eq]; omega), show (bin6 b).length = 6 from rfl, ih, hdiv, hmod]
      simp

/-- A bit-string's positions in the buffer, for a position in a valid lane. -/
theorem getElem_bitString_bytes (s : State) (k : Nat) (h : k < (bitString s.bytes).length) :
    (bitString s.bytes)[k] = s.bitAt k := by
  have hlen := s.len.isLt
  simp only [length_bitString, State.length_bytes] at h
  have hq : k / 6 < s.bytes.length := by simp; omega
  have := getElem?_bitString s.bytes k
  rw [List.getElem?_eq_getElem (by simp; omega), List.getElem?_eq_getElem hq] at this
  simp only [Option.map_some, Option.some.injEq] at this
  rw [this, State.getElem_bytes, State.bitAt, State.lane_eq _ _ (by omega)]

/-! ### Parsing a bit sequence -/

theorem foldl_parse (S : List Bool) (a : Nat) :
    S.foldl (fun v b => 2 * v + b.toNat) a = 2 ^ S.length * a + parseBits S := by
  induction S generalizing a with
  | nil => simp [parseBits]
  | cons b rest ih =>
    simp only [List.foldl_cons, parseBits, List.length_cons]
    rw [ih, ih (2 * 0 + b.toNat)]
    ring

@[simp] theorem parseBits_nil : parseBits [] = 0 := rfl

theorem parseBits_cons (b : Bool) (S : List Bool) : parseBits (b :: S) = 2 ^ S.length * b.toNat + parseBits S := by
  rw [parseBits, List.foldl_cons, foldl_parse]
  simp

theorem parseBits_lt (S : List Bool) : parseBits S < 2 ^ S.length := by
  induction S with
  | nil => simp
  | cons b rest ih =>
    rw [parseBits_cons, List.length_cons, Nat.pow_succ]
    cases b <;> simp <;> omega

/-- Bit `j` of the parsed number is the `j`-th position from the end. -/
theorem testBit_parseBits (S : List Bool) (j : Nat) :
    (parseBits S).testBit j = if h : j < S.length then S[S.length - 1 - j] else false := by
  induction S with
  | nil => simp
  | cons b rest ih =>
    rw [parseBits_cons, Nat.testBit_two_pow_mul_add _ (parseBits_lt rest)]
    by_cases h : j < rest.length
    · have h1 : j < (b :: rest).length := by simp; omega
      have h2 : (b :: rest).length - 1 - j = (rest.length - 1 - j) + 1 := by simp; omega
      simp only [h, if_true, ih, dif_pos h1, h2, List.getElem_cons_succ, dif_pos]
    · rw [if_neg h]
      by_cases h0 : j = rest.length
      · subst h0
        cases b <;> simp
      · have h3 : ¬ j < (b :: rest).length := by simp; omega
        rw [dif_neg h3]
        obtain ⟨m, hm⟩ : ∃ m, j - rest.length = m + 1 := ⟨j - rest.length - 1, by omega⟩
        cases b <;> simp [hm, Nat.testBit_succ]

/-! ### Reading and writing fields -/

theorem length_substring (S : List Bool) (off len : Nat) (h : off + len ≤ S.length) :
    (substring S off len).length = len := by
  simp [substring]
  omega

theorem fieldRead_lt (S : List Bool) (off len : Nat) (rev : Bool) : fieldRead S off len rev < 2 ^ len := by
  have h : parseBits (if rev then reversedSubstring S off len else substring S off len) <
      2 ^ (if rev then reversedSubstring S off len else substring S off len).length := parseBits_lt _
  refine Nat.lt_of_lt_of_le h (Nat.pow_le_pow_right (by omega) ?_)
  cases rev <;> simp [reversedSubstring, substring]

/-- Bit `j` of a field's value: position `off + j` when reversed, position `off + len - 1 - j` when not (R153). -/
theorem testBit_fieldRead (S : List Bool) (off len : Nat) (rev : Bool) (h : off + len ≤ S.length) (j : Nat)
    (hj : j < len) :
    (fieldRead S off len rev).testBit j = S[if rev then off + j else off + len - 1 - j]'(by split <;> omega) := by
  have hlen := length_substring S off len h
  cases rev
  · simp only [fieldRead, Bool.false_eq_true, if_false, testBit_parseBits, hlen, hj, dif_pos]
    simp only [substring, List.getElem_take, List.getElem_drop]
    congr 1
    omega
  · simp only [fieldRead, if_true, testBit_parseBits, reversedSubstring, List.length_reverse, hlen, hj, dif_pos]
    simp only [List.getElem_reverse, substring, List.getElem_take, List.getElem_drop] at hlen ⊢
    congr 1
    rw [hlen]
    omega

@[simp] theorem length_fieldBits (len : Nat) (rev : Bool) (v : Nat) : (fieldBits len rev v).length = len := by
  simp [fieldBits]

@[simp] theorem length_fieldWrite (S : List Bool) (off len : Nat) (rev : Bool) (v : Nat) (h : off + len ≤ S.length) :
    (fieldWrite S off len rev v).length = S.length := by
  simp [fieldWrite]
  omega

/-- A field write replaces exactly the positions `off` to `off + len - 1` (R154). -/
theorem getElem_fieldWrite (S : List Bool) (off len : Nat) (rev : Bool) (v : Nat) (h : off + len ≤ S.length) (k : Nat)
    (hk : k < S.length) :
    (fieldWrite S off len rev v)[k]'(by rw [length_fieldWrite _ _ _ _ _ h]; exact hk) =
      if off ≤ k ∧ k < off + len then v.testBit (if rev then k - off else len - 1 - (k - off)) else S[k] := by
  simp only [fieldWrite, List.append_assoc]
  by_cases h1 : k < off
  · rw [List.getElem_append_left (by simp; omega), if_neg (by omega)]
    simp
  · rw [List.getElem_append_right (by simp; omega)]
    have ht : (S.take off).length = off := by simp; omega
    by_cases h2 : k < off + len
    · rw [List.getElem_append_left (by simp; omega), if_pos (by omega)]
      simp [fieldBits, Nat.min_eq_left (show off ≤ S.length by omega)]
    · rw [List.getElem_append_right (by simp; omega), if_neg (by omega)]
      simp only [List.getElem_drop, length_fieldBits, ht]
      congr 1
      omega

/-! ### Bytes from bits -/

/-- Regrouping the bit-string of bytes below 64 gives the bytes back (R151). -/
theorem bitsToByteArray_bitString (B : List Byte) (h : ∀ b ∈ B, b.toNat < 64) : bitsToByteArray (bitString B) = B := by
  induction B with
  | nil => rfl
  | cons b rest ih =>
    have hb := h b (by simp)
    have hcons : bitString (b :: rest) = bin6 b ++ bitString rest := by simp [bitString]
    rw [hcons, bin6_eq]
    simp only [List.cons_append, List.nil_append, bitsToByteArray, ih fun c hc => h c (by simp [hc])]
    congr 1
    apply BitVec.eq_of_getLsbD_eq
    intro j hj
    have high : ∀ k, 6 ≤ k → b.getLsbD k = false := fun k hk =>
      Nat.testBit_lt_two_pow (Nat.lt_of_lt_of_le hb (Nat.pow_le_pow_right (by omega) hk : 2 ^ 6 ≤ 2 ^ k))
    simp only [BitVec.getLsbD_ofNat, hj, decide_true, Bool.true_and, testBit_parseBits]
    interval_cases j <;> simp [-BitVec.getLsbD_eq_getElem, high]

theorem length_bitsToByteArray (S : List Bool) (n : Nat) (h : S.length = 6 * n) : (bitsToByteArray S).length = n := by
  induction n generalizing S with
  | zero => simp [List.length_eq_zero_iff.1 (by simpa using h), bitsToByteArray]
  | succ n ih =>
    obtain _ | ⟨a, _ | ⟨b, _ | ⟨c, _ | ⟨d, _ | ⟨e, _ | ⟨f, rest⟩⟩⟩⟩⟩⟩ := S <;>
      simp only [List.length_cons, List.length_nil] at h <;> try omega
    simp only [bitsToByteArray, List.length_cons, ih rest (by omega)]

/-- The six bits of one regrouped chunk. -/
theorem bin6_six : ∀ a b c d e f : Bool, bin6 (BitVec.ofNat 8 (parseBits [a, b, c, d, e, f])) = [a, b, c, d, e, f] := by
  decide

/-- The bit-string of a regrouping is the sequence itself when it is a whole number of bytes (R151). -/
theorem bitString_bitsToByteArray (S : List Bool) (n : Nat) (h : S.length = 6 * n) :
    bitString (bitsToByteArray S) = S := by
  induction n generalizing S with
  | zero => simp [List.length_eq_zero_iff.1 (by simpa using h), bitsToByteArray, bitString]
  | succ n ih =>
    obtain _ | ⟨a, _ | ⟨b, _ | ⟨c, _ | ⟨d, _ | ⟨e, _ | ⟨f, rest⟩⟩⟩⟩⟩⟩ := S <;>
      simp only [List.length_cons, List.length_nil] at h <;> try omega
    have := ih rest (by omega)
    simp only [bitsToByteArray, bitString, List.flatMap_cons] at *
    rw [this, bin6_six]
    rfl

/-- Every regrouped byte is below 64 (R151). -/
theorem bitsToByteArray_lt (S : List Bool) (n : Nat) (h : S.length = 6 * n) :
    ∀ b ∈ bitsToByteArray S, b.toNat < 64 := by
  induction n generalizing S with
  | zero => simp [List.length_eq_zero_iff.1 (by simpa using h), bitsToByteArray]
  | succ n ih =>
    obtain _ | ⟨a, _ | ⟨b, _ | ⟨c, _ | ⟨d, _ | ⟨e, _ | ⟨f, rest⟩⟩⟩⟩⟩⟩ := S <;>
      simp only [List.length_cons, List.length_nil] at h <;> try omega
    intro x hx
    simp only [bitsToByteArray, List.mem_cons] at hx
    obtain rfl | hx := hx
    · have := parseBits_lt [a, b, c, d, e, f]
      simp only [List.length_cons, List.length_nil] at this
      simp only [BitVec.toNat_ofNat]
      omega
    · exact ih rest (by omega) x hx

end Sys2Proof.Machine
end

