-- ==== Sys2Proof/Laws/Checksum.lean ====
section
/-! SUPPORT. What the checksum functions do (rules R135 to R140 of `43_checksum.md`). -/

namespace Sys2Proof.Machine

/-- The checksum as a number (R135). -/
theorem toNat_cks (B : List Byte) : (cks B).toNat = (B.map BitVec.toNat).sum % 16 := by
  simp [cks]

/-- The nibble-adder form: only the low nibbles count (R136). -/
theorem toNat_cks_nibbles (B : List Byte) : (cks B).toNat = (B.map fun b => b.toNat % 16).sum % 16 := by
  rw [toNat_cks]
  induction B with
  | nil => rfl
  | cons b rest ih =>
    simp only [List.map_cons, List.sum_cons]
    omega

@[simp] theorem length_sealBytes (m : BitVec 2) (B : List Byte) (h : B ≠ []) : (sealBytes m B).length = B.length := by
  have := List.length_pos_iff.2 h
  simp [sealBytes]
  omega

/-- Sealing leaves every byte but the last (R139). -/
@[simp] theorem dropLast_sealBytes (m : BitVec 2) (B : List Byte) : (sealBytes m B).dropLast = B.dropLast := by
  simp [sealBytes]

/-- The sealed last byte is `calc | (m << 4)` (R139). -/
@[simp] theorem getLastD_sealBytes (m : BitVec 2) (B : List Byte) (d : Byte) :
    (sealBytes m B).getLastD d = (m ++ calcNibble B).setWidth 8 := by
  simp [sealBytes, List.getLastD_eq_getLast?]

/-- After sealing, the stored nibble is the computed one (R139). -/
theorem storedNibble_sealBytes (m : BitVec 2) (B : List Byte) :
    storedNibble (sealBytes m B) = calcNibble (sealBytes m B) := by
  simp only [storedNibble, getLastD_sealBytes, calcNibble, dropLast_sealBytes]
  generalize cks B.dropLast = n
  apply BitVec.eq_of_getLsbD_eq
  intro j hj
  rw [BitVec.getLsbD_setWidth, BitVec.getLsbD_setWidth, BitVec.getLsbD_append, if_pos hj]
  simp [-BitVec.getLsbD_eq_getElem, hj, Nat.lt_trans hj (by decide : 4 < 8)]

end Sys2Proof.Machine
end

