-- ==== Sys2Proof/Laws/Cipher.lean ====
section
/-! SUPPORT. What the cipher does to a byte array (rules R121 to R126 of `42_region_cipher.md`). -/

namespace Sys2Proof.Machine

@[simp] theorem length_xorWindow (c : Config) (r : Region) (ck : Nat) (B : List Byte) :
    (xorWindow c r ck B).length = B.length := by simp [xorWindow]

@[simp] theorem length_restoreKey (ck : Byte) (T : List Byte) : (restoreKey ck T).length = T.length := by
  cases T <;> rfl

@[simp] theorem length_cipher (c : Config) (r : Region) (B : List Byte) : (cipher c r B).length = B.length := by
  simp [cipher]

/-- Lane 0 after the cipher: the low three bits of the exclusive or, and the key bits again (R122). -/
theorem getElem_cipher_zero (c : Config) (r : Region) (B : List Byte) (h : 0 < B.length) :
    (cipher c r B)[0]'(by simpa using h) =
      ((B[0] ^^^ keyByte c r (4 * (B[0] >>> 3).toNat)) &&& 7#8) ||| ((B[0] >>> 3) <<< 3) := by
  obtain _ | ⟨b, rest⟩ := B
  · simp at h
  · simp [cipher, xorWindow, restoreKey, cipherKey, List.mapIdx_cons]

/-- Lane `i + 1` after the cipher: the exclusive or with the window's entry (R122). -/
theorem getElem_cipher_succ (c : Config) (r : Region) (B : List Byte) (i : Nat) (h : i + 1 < B.length) :
    (cipher c r B)[i + 1]'(by simpa using h) = B[i + 1] ^^^ keyByte c r (4 * (cipherKey B).toNat + (i + 1)) := by
  obtain _ | ⟨b, rest⟩ := B
  · simp at h
  · simp [cipher, xorWindow, restoreKey, List.mapIdx_cons]

/-- The cipher keeps the key bits (R126). -/
theorem cipherKey_cipher (c : Config) (r : Region) (B : List Byte) : cipherKey (cipher c r B) = cipherKey B := by
  obtain _ | ⟨b, rest⟩ := B
  · rfl
  · simp only [cipherKey, cipher, xorWindow, List.mapIdx_cons, restoreKey, List.headD_cons]
    apply BitVec.eq_of_getLsbD_eq
    intro j hj
    simp only [BitVec.getLsbD_ushiftRight, BitVec.getLsbD_or, BitVec.getLsbD_and, BitVec.getLsbD_shiftLeft]
    by_cases h : 3 + j < 8
    · have h7 : (7#8).getLsbD (3 + j) = false := by interval_cases j <;> rfl
      simp [-BitVec.getLsbD_eq_getElem, h7, h]
    · simp [-BitVec.getLsbD_eq_getElem, BitVec.getLsbD_of_ge _ _ (Nat.not_lt.1 h), h]

/-- A ROM entry, for an index inside the 48 (R120). -/
theorem keyByte_of_lt (c : Config) (r : Region) (n : Nat) (h : n < 48) : keyByte c r n = (c.key r ⟨n, h⟩).setWidth 8 := by
  simp [keyByte, h]

/-- On the array level: the cipher of a cipher is the array again (R125). -/
theorem cipher_cipher (c : Config) (r : Region) (B : List Byte) : cipher c r (cipher c r B) = B := by
  apply List.ext_getElem (by simp)
  intro i h h'
  obtain _ | i := i
  · have h0 : 0 < B.length := h'
    rw [getElem_cipher_zero c r _ (by simpa using h0)]
    have hk : (cipher c r B)[0]'(by simpa using h0) >>> 3 = B[0] >>> 3 := by
      have := cipherKey_cipher c r B
      obtain _ | ⟨b, rest⟩ := B
      · simp at h0
      · simpa [cipherKey, List.headD, cipher, xorWindow, restoreKey, List.mapIdx_cons] using this
    rw [hk, getElem_cipher_zero c r B h0]
    generalize keyByte c r _ = k
    generalize B[0] = b
    apply BitVec.eq_of_getLsbD_eq
    intro j hj
    simp only [BitVec.getLsbD_ushiftRight, BitVec.getLsbD_or, BitVec.getLsbD_and, BitVec.getLsbD_shiftLeft,
      BitVec.getLsbD_xor]
    interval_cases j <;> simp [-BitVec.getLsbD_eq_getElem]
  · rw [getElem_cipher_succ c r _ i (by simpa using h'), getElem_cipher_succ c r B i h', cipherKey_cipher,
      BitVec.xor_assoc, BitVec.xor_self, BitVec.xor_zero]

/-- Every ROM entry is below 64 (R7, R120). -/
theorem toNat_keyByte_lt (c : Config) (r : Region) (n : Nat) : (keyByte c r n).toNat < 64 := by
  rw [keyByte, BitVec.toNat_setWidth]
  have := (if h : n < 48 then c.key r ⟨n, h⟩ else c.offRom r n).isLt
  omega

/-- The cipher of lanes below 64 has lanes below 64 (R42). -/
theorem cipher_lt (c : Config) (r : Region) (B : List Byte) (h : ∀ b ∈ B, b.toNat < 64) (i : Nat)
    (hi : i < (cipher c r B).length) : ((cipher c r B)[i]).toNat < 64 := by
  have hB : i < B.length := by simpa using hi
  have hx (n : Nat) : (B[i] ^^^ keyByte c r n).toNat < 2 ^ 6 := by
    rw [BitVec.toNat_xor]
    exact Nat.xor_lt_two_pow (h _ (List.getElem_mem hB)) (toNat_keyByte_lt c r n)
  obtain _ | i := i
  · rw [getElem_cipher_zero c r B hB, BitVec.toNat_or]
    refine Nat.or_lt_two_pow (n := 6) ?_ ?_
    · rw [BitVec.toNat_and]
      exact Nat.and_lt_two_pow _ (by decide)
    · have := h _ (List.getElem_mem hB)
      simp only [BitVec.toNat_shiftLeft, BitVec.toNat_ushiftRight, Nat.shiftLeft_eq, Nat.shiftRight_eq_div_pow]
      omega
  · rw [getElem_cipher_succ c r B i hB]
    exact hx _

end Sys2Proof.Machine
end

