-- ==== Sys2Proof/Laws/Config.lean ====
section
/-! SUPPORT. What rule R7 gives about a legal configuration, and that the chip's is legal. -/

namespace Sys2Proof.Config

theorem someLegal_legal : someLegal.legal = true := by
  decide

/-- The chip's configuration meets the constraints of R7, whatever the open constants are. -/
theorem chip_legal : chip.legal = true := by
  unfold chip
  split
  · assumption
  · exact someLegal_legal

/-- The constraints of `legal`, one by one. -/
theorem legal_iff (c : Config) : c.legal = true ↔
    (∀ r, (c.glyphs r).Nodup) ∧ (∀ r, ∀ g ∈ c.glyphs r, g ∉ c.ws) ∧ (∃ g ∈ c.glyphs .jp, g ∈ c.glyphs .usPal) := by
  have two : ∀ P : Region → Prop, (∀ r, P r) ↔ P .jp ∧ P .usPal := fun P =>
    ⟨fun h => ⟨h _, h _⟩, fun h r => by cases r; exacts [h.1, h.2]⟩
  simp only [legal, two (fun r => (c.glyphs r).Nodup), two (fun r => ∀ g ∈ c.glyphs r, g ∉ c.ws), Bool.and_eq_true,
    decide_eq_true_eq, List.all_eq_true, List.any_eq_true, Bool.not_eq_true', List.contains_iff_mem,
    ← Bool.not_eq_true]
  tauto

theorem alpha_mem_glyphs (c : Config) (r : Region) (v : SymbolValue) : c.alpha r v ∈ c.glyphs r := by
  simp only [glyphs, List.mem_map, List.mem_range]
  exact ⟨v.toNat, v.isLt, by simp⟩

/-- Within a region no two values have the same glyph (R7, R101). -/
theorem alpha_injective {c : Config} (h : c.legal = true) {r : Region} {v w : SymbolValue}
    (e : c.alpha r v = c.alpha r w) : v = w := by
  have nodup := ((legal_iff c).1 h).1 r
  have inj := List.inj_on_of_nodup_map nodup (x := v.toNat) (List.mem_range.2 v.isLt) (y := w.toNat)
    (List.mem_range.2 w.isLt) (by simpa using e)
  exact BitVec.eq_of_toNat_eq inj

/-- No glyph of an alphabet is whitespace (R7). -/
theorem alpha_not_ws {c : Config} (h : c.legal = true) (r : Region) (v : SymbolValue) : c.alpha r v ∉ c.ws :=
  ((legal_iff c).1 h).2.1 r _ (alpha_mem_glyphs c r v)

end Sys2Proof.Config
end

