-- ==== Sys2Proof/Laws/PerInstr.lean ====
section
/-! SUPPORT. One family over the constructors of `Instr`: the word of a command keeps its table row's fixed bits. -/

namespace Sys2Proof.Laws

/-- `match` of a command's row in the opcode map (R74). -/
def rowMatch : Instr → Word
  | .nop => 0x00000000
  | .clr => 0x01000000
  | .clrerr => 0x02000000
  | .clrbuf => 0x03000000
  | .c2v _ => 0x10000000
  | .v2c _ => 0x11000000
  | .pushc _ => 0x12000000
  | .pushb _ => 0x13000000
  | .rdsym _ => 0x14000000
  | .deciph => 0x20000000
  | .enciph => 0x21000000
  | .cksum => 0x30000000
  | .ckvfy => 0x31000000
  | .ckwr _ => 0x32000000
  | .bfrd _ _ _ => 0x40000000
  | .bfwr _ _ _ => 0x41000000
  | .unpack => 0x50000000
  | .pack => 0x51000000
  | .load => 0x52000000
  | .encode => 0x53000000

/-- `mask` of a command's row in the opcode map (R74). -/
def rowMask : Instr → Word
  | .nop | .clr | .clrerr | .clrbuf | .deciph | .enciph | .cksum | .ckvfy => 0xFFFFFFFF
  | .unpack | .pack | .load | .encode => 0xFFFFFFFF
  | .c2v _ | .pushc _ => 0xFFE00000
  | .v2c _ | .pushb _ | .rdsym _ | .ckwr _ => 0xFFFFFF00
  | .bfrd _ _ _ | .bfwr _ _ _ => 0xFFFF8000

theorem wordG_masked (op : BitVec 8) (g : Glyph) : wordG op g &&& 0xFFE00000 = op ++ 0#24 := by
  apply BitVec.eq_of_getLsbD_eq
  intro j hj
  simp only [wordG, BitVec.getLsbD_and, BitVec.getLsbD_append]
  interval_cases j <;> simp

theorem wordI_masked (op imm : BitVec 8) : wordI op imm &&& 0xFFFFFF00 = op ++ 0#24 := by
  apply BitVec.eq_of_getLsbD_eq
  intro j hj
  simp only [wordI, BitVec.getLsbD_and, BitVec.getLsbD_append]
  interval_cases j <;> simp

theorem wordF_masked (op : BitVec 8) (off len : BitVec 7) (rev : Bool) :
    wordF op off len rev &&& 0xFFFF8000 = op ++ 0#24 := by
  apply BitVec.eq_of_getLsbD_eq
  intro j hj
  simp only [wordF, BitVec.getLsbD_and, BitVec.getLsbD_append]
  interval_cases j <;> simp

namespace FixedBits

/-- The word of a command selects its own row: `encode i & mask = match` (R74). -/
def Statement (i : Instr) : Prop := encode i &&& rowMask i = rowMatch i

theorem nop : Statement .nop := rfl
theorem clr : Statement .clr := rfl
theorem clrerr : Statement .clrerr := rfl
theorem clrbuf : Statement .clrbuf := rfl
theorem c2v (glyph : Glyph) : Statement (.c2v glyph) := wordG_masked _ glyph
theorem v2c (imm : BitVec 8) : Statement (.v2c imm) := wordI_masked _ imm
theorem pushc (glyph : Glyph) : Statement (.pushc glyph) := wordG_masked _ glyph
theorem pushb (imm : BitVec 8) : Statement (.pushb imm) := wordI_masked _ imm
theorem rdsym (imm : BitVec 8) : Statement (.rdsym imm) := wordI_masked _ imm
theorem deciph : Statement .deciph := rfl
theorem enciph : Statement .enciph := rfl
theorem cksum : Statement .cksum := rfl
theorem ckvfy : Statement .ckvfy := rfl
theorem ckwr (imm : BitVec 8) : Statement (.ckwr imm) := wordI_masked _ imm
theorem bfrd (off len : BitVec 7) (rev : Bool) : Statement (.bfrd off len rev) := wordF_masked _ off len rev
theorem bfwr (off len : BitVec 7) (rev : Bool) : Statement (.bfwr off len rev) := wordF_masked _ off len rev
theorem unpack : Statement .unpack := rfl
theorem pack : Statement .pack := rfl
theorem load : Statement .load := rfl
theorem encode : Statement .encode := rfl

end FixedBits

end Sys2Proof.Laws
end

