-- ==== Sys2Proof/Laws/Procedures.lean ====
section
/-! SUPPORT. The chip's block is the block with the chip's configuration, and what a run of host writes can do. -/

namespace Sys2Proof.Machine

@[simp] theorem execUnder_chip (i : Instr) (s : State) : execUnder Config.chip i s = exec i s := by
  cases i <;> rfl

@[simp] theorem hostWriteUnder_chip (a : Addr) (d : Word) (s : State) :
    hostWriteUnder Config.chip a d s = hostWrite a d s := by
  unfold hostWriteUnder hostWrite runCommand
  cases targetOf a with
  | cmd =>
    cases decode d with
    | ok i => exact execUnder_chip i s
    | error e => cases e <;> rfl
  | reg r => rfl
  | unmapped => rfl

@[simp] theorem hostWrites_nil (c : Config) (s : State) : hostWrites c [] s = .next s := rfl

/-- After a write that succeeds the host goes on (R110). -/
theorem hostWrites_cons_ok {c : Config} {a : Addr} {d : Word} {s t : State} (rest : List (Addr × Word))
    (h : hostWriteUnder c a d s = .next t) (ok : t.status.err = 0) :
    hostWrites c ((a, d) :: rest) s = hostWrites c rest t := by
  simp [hostWrites, h, ok]

/-- After a write that leaves a nonzero `ERR` the host stops (R110). -/
theorem hostWrites_cons_stop {c : Config} {a : Addr} {d : Word} {s t : State} (rest : List (Addr × Word))
    (h : hostWriteUnder c a d s = .next t) (bad : t.status.err ≠ 0) :
    hostWrites c ((a, d) :: rest) s = .next t := by
  simp only [hostWrites, h, if_neg bad]

end Sys2Proof.Machine
end

