-- ==== Sys2Proof/Laws/Step.lean ====
section
/-! SUPPORT. What a step and a host transaction can do. -/

namespace Sys2Proof.Machine

/-- A word that decodes runs its command (R72). -/
theorem runCommand_ok {w : Word} {i : Instr} (h : decode w = .ok i) (s : State) : runCommand w s = exec i s := by
  simp [runCommand, h]

/-- A word that does not decode raises `IllegalOperation` (R72, R75). -/
theorem runCommand_error {w : Word} {e : BadWord} (h : decode w = .error e) (s : State) :
    runCommand w s = .next (s.raise .illegalOperation) := by
  cases e <;> simp [runCommand, h]

/-- What a host write can be: the command in the word, the write rule of one register, or a refusal (R50, R52). -/
theorem hostWrite_cases (a : Addr) (d : Word) (s : State) :
    (targetOf a = .cmd ∧ hostWrite a d s = runCommand d s) ∨
    (∃ r, targetOf a = .reg r ∧ hostWrite a d s = .next (writeReg d s r)) ∨
    (targetOf a = .unmapped ∧ hostWrite a d s = .next (s.raise .illegalOperation)) := by
  unfold hostWrite
  cases h : targetOf a with
  | cmd => exact .inl ⟨rfl, rfl⟩
  | reg r => exact .inr (.inl ⟨r, rfl, rfl⟩)
  | unmapped => exact .inr (.inr ⟨rfl, rfl⟩)

/-- What a step can be: nothing, a host read, or a host write (R15, R50). -/
theorem step_cases (s : State) :
    (s.pending = [] ∧ step s = .next s) ∨
    (∃ a rest, s.pending = .read a :: rest ∧
      step s = .next { s with pending := rest, replies := hostRead a s :: s.replies }) ∨
    (∃ a d rest, s.pending = .write a d :: rest ∧ step s = hostWrite a d { s with pending := rest }) := by
  unfold step
  match h : s.pending with
  | [] => exact .inl ⟨rfl, rfl⟩
  | .read a :: rest => exact .inr (.inl ⟨a, rest, rfl, rfl⟩)
  | .write a d :: rest => exact .inr (.inr ⟨a, d, rest, rfl, rfl⟩)

end Sys2Proof.Machine
end

