-- ==== Sys2Proof/Laws/Symbols.lean ====
section
/-! SUPPORT. What the two ports of the Symbol Table answer (rules R101, R102, R107, R112 of `41_symbol_table.md`). -/

namespace Sys2Proof.Machine

theorem mem_symbolValues (v : SymbolValue) : v ∈ (List.range 64).map (BitVec.ofNat 6) :=
  List.mem_map.2 ⟨v.toNat, List.mem_range.2 v.isLt, by simp⟩

/-- The symbol port answers `v` exactly when `v`'s glyph is `g` (R101). -/
theorem c2v_eq_some_iff {c : Config} (h : c.legal = true) (r : Region) (g : Glyph) (v : SymbolValue) :
    c2v c r g = some v ↔ c.alpha r v = g := by
  constructor
  · intro e
    simpa using List.find?_some e
  · intro e
    obtain ⟨w, hw⟩ : ∃ w, c2v c r g = some w := by
      rw [← Option.isSome_iff_exists, c2v, List.find?_isSome]
      exact ⟨v, mem_symbolValues v, by simpa using e⟩
    have hg : c.alpha r w = g := by simpa using List.find?_some hw
    rw [hw, Config.alpha_injective h (hg.trans e.symm)]

/-- The symbol port answers nothing exactly when the alphabet lacks the glyph (R101). -/
theorem c2v_eq_none_iff (c : Config) (r : Region) (g : Glyph) : c2v c r g = none ↔ ∀ v, c.alpha r v ≠ g := by
  simp only [c2v, List.find?_eq_none, beq_iff_eq]
  exact ⟨fun h v => h v (mem_symbolValues v), fun h v _ => h v⟩

/-- Looking up a value's own glyph gives the value back (R112). -/
@[simp] theorem c2v_v2c (r : Region) (v : SymbolValue) : c2v Config.chip r (Config.chip.alpha r v) = some v :=
  (c2v_eq_some_iff Config.chip_legal r _ v).2 rfl

/-- The hint is set exactly when the other region's alphabet has the glyph (R107). -/
theorem regionHint_eq_true_iff {c : Config} (h : c.legal = true) (r : Region) (g : Glyph) :
    regionHint c r g = true ↔ ∃ v, c.alpha r.other v = g := by
  simp only [regionHint, Option.isSome_iff_exists, c2v_eq_some_iff h]

/-- A glyph of an alphabet is no whitespace (R7). -/
@[simp] theorem chip_alpha_not_ws (r : Region) (v : SymbolValue) :
    Config.chip.ws.contains (Config.chip.alpha r v) = false := by
  simpa using Config.alpha_not_ws Config.chip_legal r v

end Sys2Proof.Machine
end

