-- ==== Sys2Proof/Tests/Slice0.lean ====
section
/-! SUPPORT. The model's own tests. Words are written out from the encodings of `30_encoding.md`; numbers marked V-… are
the vectors of `95_test_vectors.md`, which its configuration TCFG makes concrete. The theorems `test_meets_…` show, for
each statement of `Certificates/Slice0/Obligations.lean` that has hypotheses, a state and operands that meet them. -/

namespace Sys2Proof.Tests

open Sys2Proof Sys2Proof.Machine

/-! ### Helpers -/

/-- A state with the given `CTRL`, the given lanes as the whole byte array, and the given field registers. -/
def secretState (region : Region) (fmt : Format) (lanes : List Byte) (fields : Fields) : State :=
  { State.reset with
    ctrl := { region := region, fmt := fmt }
    len := Fin.ofNat 21 lanes.length
    buf := overlay (Vector.replicate 20 0) lanes
    fields := fields }

/-- The state an outcome answers; the reset state for a stop, which no arm of this model makes. -/
def after : Host.Outcome State Fault Refusal → State
  | .next t => t
  | .fault _ => State.reset
  | .refused _ => State.reset

/-- The lanes of a state as numbers, up to `LEN`. -/
def lanes (s : State) : List Nat := s.bytes.map BitVec.toNat

/-- The configuration TCFG of `95_test_vectors.md` section 1. -/
def tcfg : Config :=
  { alpha := fun r v =>
      match r with
      | .jp => if v.toNat < 60 then 0x3041#21 + v.setWidth 21 else 0x3A#21 + BitVec.ofNat 21 (v.toNat - 60)
      | .usPal => 0x30#21 + v.setWidth 21
    key := fun r i =>
      match r with
      | .jp => BitVec.ofNat 6 (37 * i.val + 11)
      | .usPal => BitVec.ofNat 6 (37 * i.val + 40)
    offRom := fun _ _ => 0
    ws := Config.defaultWs }

theorem test_tcfg_is_legal : tcfg.legal = true := by decide

/-! ### Well-formedness and decoding -/

theorem test_wellFormed_at_the_greatest_operands :
    (Instr.c2v 0x1FFFFF).wellFormed = true ∧ (Instr.ckwr 255).wellFormed = true ∧
    (Instr.bfwr 127 127 true).wellFormed = true := by decide

/-- No term is ill-formed; each format's ill-formed WORD is refused by name (V-K40 to V-K45). -/
theorem test_ill_formed_words_are_refused :
    decode 0x04000000 = .error .unknownOpcode ∧ decode 0xFFFFFFFF = .error .unknownOpcode ∧
    decode 0x00000001 = .error .zeroBitSet ∧ decode 0x53800000 = .error .zeroBitSet ∧
    decode 0x10200041 = .error .zeroBitSet ∧ decode 0x40008000 = .error .zeroBitSet ∧
    decode 0x13000100 = .error .zeroBitSet := ⟨rfl, rfl, rfl, rfl, rfl, rfl, rfl⟩

theorem test_decode_format_Z :
    decode 0x00000000 = .ok .nop ∧ decode 0x01000000 = .ok .clr ∧ decode 0x02000000 = .ok .clrerr ∧
    decode 0x03000000 = .ok .clrbuf ∧ decode 0x20000000 = .ok .deciph ∧ decode 0x21000000 = .ok .enciph ∧
    decode 0x30000000 = .ok .cksum ∧ decode 0x31000000 = .ok .ckvfy ∧ decode 0x50000000 = .ok .unpack ∧
    decode 0x51000000 = .ok .pack ∧ decode 0x52000000 = .ok .load ∧ decode 0x53000000 = .ok .encode :=
  ⟨rfl, rfl, rfl, rfl, rfl, rfl, rfl, rfl, rfl, rfl, rfl, rfl⟩

theorem test_decode_format_G :
    decode 0x1000307C = .ok (.c2v 0x307C) ∧ decode 0x12000037 = .ok (.pushc 0x37) ∧
    decode 0x121FFFFF = .ok (.pushc 0x1FFFFF) := ⟨rfl, rfl, rfl⟩

theorem test_decode_format_I :
    decode 0x1100003B = .ok (.v2c 59) ∧ decode 0x1300003F = .ok (.pushb 63) ∧ decode 0x14000004 = .ok (.rdsym 4) ∧
    decode 0x32000002 = .ok (.ckwr 2) := ⟨rfl, rfl, rfl, rfl⟩

/-- V-B1, V-B2, V-B17, V-B27. -/
theorem test_decode_format_F :
    decode 0x40004785 = .ok (.bfrd 5 15 true) ∧ decode 0x40000785 = .ok (.bfrd 5 15 false) ∧
    decode 0x41004785 = .ok (.bfwr 5 15 true) ∧ decode 0x41002001 = .ok (.bfwr 1 64 false) :=
  ⟨rfl, rfl, rfl, rfl⟩

theorem test_table_word_is_decoded : decodeTableWord 32 0x32000002 = some (.ckwr 2) := by decide

theorem test_step_runs_the_fetch_word :
    step (State.reset.withFetchWord 32 0x13000025) =
      .next { State.reset with len := 1, buf := (Vector.replicate 20 0).set 0 0x25 } := rfl

/-! ### Commands, against the vectors of 95_test_vectors.md -/

/-- V-K4, V-K7, V-K12, V-K27: register writes that are refused. -/
theorem test_refused_register_writes :
    (after (hostWrite 0x02 4 State.reset)).status.image = 0x4006 ∧
    (after (hostWrite 0x03 21 State.reset)).status.image = 0x0201 ∧
    (after (hostWrite 0x31 0x7FFF State.reset)).status.image = 0x2005 ∧
    (after (hostWrite 0x7F 0 State.reset)).status.image = 0x4006 := by decide

/-- V-S5, V-S6: a shared glyph has a value per region. -/
theorem test_c2v_shared_glyph :
    (c2vUnder tcfg 0x3A State.reset).res = 0x3C ∧
    (c2vUnder tcfg 0x3A (secretState .usPal .game [] Fields.reset)).res = 0x0A := by decide

/-- V-S12, V-S13: the hint. -/
theorem test_c2v_hint :
    (c2vUnder tcfg 0x307D State.reset).status.image = 0x0402 ∧
    (c2vUnder tcfg 0x3E State.reset).status.image = 0x040A := by decide

/-- V-S17, V-S18. -/
theorem test_v2c : (v2cUnder tcfg 59 State.reset).res = 0x307C ∧ (v2cUnder tcfg 60 State.reset).res = 0x3A := by decide

/-- R103: a full buffer still discards whitespace and still reports a foreign glyph first. -/
theorem test_pushc_order :
    let full := { State.reset with len := 20 }
    (pushcUnder tcfg 0x20 full).status.err = 0 ∧ (pushcUnder tcfg 0x30 full).status.err = 2 ∧
    (pushcUnder tcfg 0x3041 full).status.err = 1 := by decide

/-- R110: the glyph after the foreign one is not pushed (V-S25's opening, then U+3041). -/
theorem test_secretToBytes_stops :
    let t := after (secretToBytes tcfg { region := .usPal, fmt := .memory } [0x20, 0x37, 0x43, 0x3041, 0x3B] State.reset)
    lanes t = [0x07, 0x13] ∧ t.status.image = 0x040A ∧ t.ctrl.bits = 7 := by decide

/-- R105: the separator flag stands after every fifth symbol. -/
theorem test_rdsym_separator :
    let s := secretState .jp .memory [7, 0, 11, 11, 60] Fields.reset
    (rdsymUnder tcfg 3 s).res = 0x0000304C ∧ (rdsymUnder tcfg 4 s).res = 0x8000003A ∧
    (rdsymUnder tcfg 5 s).status.err = 6 := by decide

/-- V-F4: `ENCIPH` and `DECIPH` of the same secret. -/
theorem test_cipher :
    lanes (cipherBuffer tcfg (secretState .usPal .memory [0x07, 0x1E, 0x39, 0x1C, 0x0A] Fields.reset)) =
      [0x07, 0x13, 0x0B, 0x0B, 0x36] ∧
    lanes (cipherBuffer tcfg (secretState .usPal .memory [0x07, 0x13, 0x0B, 0x0B, 0x36] Fields.reset)) =
      [0x07, 0x1E, 0x39, 0x1C, 0x0A] := by decide

/-- V-X16, V-X14, V-X9. -/
theorem test_checksum_commands :
    (after (execCksum (secretState .jp .game (List.replicate 20 0x3F) Fields.reset))).res = 0x0C ∧
    (after (execCkvfy (secretState .jp .game [0x31] Fields.reset))).chk = 0x10 ∧
    (after (execCkvfy (secretState .jp .game [0x31] Fields.reset))).status.err = 3 ∧
    lanes (after (execCkwr 2 (secretState .jp .game [0x2F, 0x1E, 0x39, 0x1C, 0] Fields.reset))) =
      [0x2F, 0x1E, 0x39, 0x1C, 0x22] := by decide

/-- V-B1, V-B2. -/
theorem test_bfrd :
    (after (execBfrd 5 15 true (secretState .jp .game [0x07, 0x1E, 0x39, 0x1C, 0x0A] Fields.reset))).data = 21437 ∧
    (after (execBfrd 5 15 false (secretState .jp .game [0x07, 0x1E, 0x39, 0x1C, 0x0A] Fields.reset))).data = 0x5EE5 := by
  decide

/-- V-B17, V-B22. -/
theorem test_bfwr :
    lanes (after (execBfwr 5 15 true { secretState .jp .game [0, 0, 0, 0, 0] Fields.reset with data := 0x53BD })) =
      [0x01, 0x1E, 0x39, 0x10, 0x00] ∧
    (after (execBfwr 20 4 false
      { secretState .jp .game [0, 0, 0, 0, 0] Fields.reset with data := 0x10 })).status.image = 0x2005 := by decide

/-- The field registers of V-F2. -/
def fieldsF2 : Fields :=
  { keysel := 5, gameId := 21437, flags := 0b01111, behav := 63, companion := 13, memory := 0, rings := 0,
    link := #v[0x4C, 0x69, 0x6E, 0x6B, 0x20], child := #v[0x50, 0x69, 0x70, 0x20, 0x20] }

set_option maxRecDepth 20000 in
/-- V-F2. -/
theorem test_pack_game :
    lanes (after (execPack (secretState .usPal .game [] fieldsF2))) =
      [0x29, 0x1E, 0x39, 0x1C, 0x32, 0x02, 0x29, 0x1A, 0x16, 0x3F, 0x1D, 0x20, 0x3B, 0x2B, 0x16, 0x02, 0x00, 0x24, 0x04,
       0x00] := by decide

/-- V-F2, read back. -/
theorem test_unpack_game :
    (after (execUnpack (secretState .usPal .game
      [0x29, 0x1E, 0x39, 0x1C, 0x32, 0x02, 0x29, 0x1A, 0x16, 0x3F, 0x1D, 0x20, 0x3B, 0x2B, 0x16, 0x02, 0x00, 0x24, 0x04,
       0x0B] Fields.reset))).fields = fieldsF2 := by decide

/-- The field registers of V-F4. -/
def fieldsF4 : Fields := { Fields.reset with gameId := 21437, memory := 3 }

/-- V-F4. -/
theorem test_encode_memory :
    lanes (encodeUnder tcfg (secretState .usPal .memory [] fieldsF4)) = [0x07, 0x13, 0x0B, 0x0B, 0x36] := by decide

/-- V-F4. -/
theorem test_load_memory :
    (loadUnder tcfg (secretState .usPal .memory [0x07, 0x13, 0x0B, 0x0B, 0x36] Fields.reset)).fields = fieldsF4 ∧
    (loadUnder tcfg (secretState .usPal .memory [0x07, 0x13, 0x0B, 0x0B, 0x36] Fields.reset)).chk = 0xAA := by decide

/-! ### Hypotheses that are met: the encoding and the host port -/

theorem test_meets_EncodeThenDecodeReturnsTheCommand : (Instr.bfrd 127 127 true).wellFormed = true := rfl

theorem test_meets_DecodedWordIsTheEncodingOfItsCommand : decode 0x40004785 = .ok (.bfrd 5 15 true) := rfl

theorem test_meets_OperandsAreTheirBitFields :
    decode 0x101FFFFF = .ok (.c2v 0x1FFFFF) ∧ decode 0x12000000 = .ok (.pushc 0) ∧ decode 0x110000FF = .ok (.v2c 255) ∧
    decode 0x13000000 = .ok (.pushb 0) ∧ decode 0x140000FF = .ok (.rdsym 255) ∧ decode 0x320000FF = .ok (.ckwr 255) ∧
    decode 0x40007FFF = .ok (.bfrd 127 127 true) ∧ decode 0x41000000 = .ok (.bfwr 0 0 false) :=
  ⟨rfl, rfl, rfl, rfl, rfl, rfl, rfl, rfl⟩

/-- One word at an end of each range of opcodes, then one for each format's zero bits. -/
theorem test_meets_IllegalWordsRaiseIllegalOperation :
    let op (w : Word) := w.toNat / 2 ^ 24
    (0x04 ≤ op 0x04000000 ∧ op 0x04000000 ≤ 0x0F) ∧ (0x15 ≤ op 0x1F000000 ∧ op 0x1F000000 ≤ 0x1F) ∧
    (0x22 ≤ op 0x22000000 ∧ op 0x22000000 ≤ 0x2F) ∧ (0x33 ≤ op 0x3F000000 ∧ op 0x3F000000 ≤ 0x3F) ∧
    (0x42 ≤ op 0x42000000 ∧ op 0x42000000 ≤ 0x4F) ∧ (0x54 ≤ op 0xFFFFFFFF ∧ op 0xFFFFFFFF ≤ 0xFF) ∧
    (op 0x00000001 ∈ [0x00, 0x01, 0x02, 0x03, 0x20, 0x21, 0x30, 0x31, 0x50, 0x51, 0x52, 0x53] ∧
      (0x00000001#32).toNat % 2 ^ 24 ≠ 0) ∧
    (op 0x13000100 ∈ [0x11, 0x13, 0x14, 0x32] ∧ (0x13000100#32).toNat / 2 ^ 8 % 2 ^ 16 ≠ 0) ∧
    (op 0x10200041 ∈ [0x10, 0x12] ∧ (0x10200041#32).toNat / 2 ^ 21 % 2 ^ 3 ≠ 0) ∧
    (op 0x40008000 ∈ [0x40, 0x41] ∧ (0x40008000#32).toNat / 2 ^ 15 % 2 ^ 9 ≠ 0) := by decide

theorem test_meets_StepRunsTheDeliveredCommand :
    (State.reset.withFetchWord 32 0x30000000).pending = [.write 0x00 0x30000000] ∧ decode 0x30000000 = .ok .cksum :=
  ⟨rfl, rfl⟩

theorem test_meets_CommandsKeepTheHostPort : exec .nop State.reset = .next State.reset := rfl

theorem test_meets_HostReadChangesNoRegister :
    ({ State.reset with pending := [.read 0x02] }).pending = [.read 0x02] := rfl

theorem test_meets_HostReadReturnsTheMappedRegister :
    let F (b : Byte) : Fields := { Fields.reset with behav := b }
    (F 0).behav = 0 ∧ (1 ≤ (F 1).behav.toNat ∧ (F 5).behav.toNat ≤ 5) ∧ (1 ≤ (F 5).behav.toNat ∧ (F 1).behav.toNat ≤ 5) ∧
    (6 ≤ (F 6).behav.toNat ∧ (F 6).behav.toNat ≤ 10) ∧ (6 ≤ (F 10).behav.toNat ∧ (F 10).behav.toNat ≤ 10) ∧
    11 ≤ (F 11).behav.toNat ∧ (0x7F#7).toNat ≥ 0x45 := by decide

theorem test_meets_ReadOnlyUnmappedAndWriteOnlyAddresses :
    (0x0A ≤ (0x0A#7).toNat ∧ (0x0F#7).toNat ≤ 0x0F) ∧ (0x24 ≤ (0x24#7).toNat ∧ (0x2F#7).toNat ≤ 0x2F) ∧
    (0x3D ≤ (0x3D#7).toNat ∧ (0x3F#7).toNat ≤ 0x3F) ∧ 0x45 ≤ (0x45#7).toNat := by decide

theorem test_meets_WriteToCtrlSetsRegionAndFormat :
    (8 ≤ (8#32).toNat) ∧ ((4#32).toNat / 2 % 4 = 2) ∧ ((7#32).toNat < 8 ∧ (7#32).toNat / 2 % 4 ≠ 2) := by decide

theorem test_meets_WriteToLenAndLanes :
    20 < (21#32).toNat ∧ (20#32).toNat ≤ 20 ∧ 63 < (64#32).toNat ∧ (63#32).toNat ≤ 63 := by decide

theorem test_meets_AcceptedWriteReadsBackAndAliasesNothing :
    let t : State := { State.reset with fields := { Fields.reset with behav := 11 } }
    hostWrite 0x33 11 State.reset = .next t ∧ t.status.err = 0 ∧ (0x32 : Addr) ≠ 0x33 := by
  refine ⟨rfl, ?_⟩
  decide

/-! ### Hypotheses that are met: the invariant and the errors -/

theorem test_meets_EveryStepKeepsTheRegistersLegal :
    State.reset.Legal ∧ step State.reset = .next State.reset := by
  refine ⟨?_, rfl⟩
  decide

theorem test_meets_FailedWriteChangesOnlyItsRecord :
    let t : State := { State.reset with status := { State.reset.errStatus 2 with rhint := false } }
    hostWrite 0x10 64 State.reset = .next t ∧ t.status.err ≠ 0 := by
  refine ⟨rfl, ?_⟩
  decide

theorem test_meets_SuccessfulWriteKeepsTheErrorRecord :
    hostWrite 0x00 0x01000000 State.reset = .next State.reset ∧ State.reset.status.err = 0 := by
  refine ⟨rfl, ?_⟩
  decide

/-- A transaction for each of the six codes, and for codes 5 and 6 one at each end of an address range and one command. -/
theorem test_meets_ErrorKindsHaveOnlyTheirCauses :
    (after (hostWrite 0x03 21 State.reset)).status.err = 1 ∧ (after (hostWrite 0x23 64 State.reset)).status.err = 2 ∧
    (after (hostWrite 0x00 0x31000000 (secretState .jp .game [0x31] Fields.reset))).status.err = 3 ∧
    (after (hostWrite 0x00 0x50000000 (secretState .jp .memory [0, 0, 0, 0, 0] Fields.reset))).status.err = 4 ∧
    (after (hostWrite 0x30 8 State.reset)).status.err = 5 ∧ (after (hostWrite 0x35 10 State.reset)).status.err = 5 ∧
    (after (hostWrite 0x3C 256 State.reset)).status.err = 5 ∧ (after (hostWrite 0x44 256 State.reset)).status.err = 5 ∧
    (after (hostWrite 0x00 0x41000000 { State.reset with data := 1 })).status.err = 5 ∧
    (after (hostWrite 0x01 0 State.reset)).status.err = 6 ∧ (after (hostWrite 0x3D 0 State.reset)).status.err = 6 ∧
    (after (hostWrite 0x00 0x00000001 State.reset)).status.err = 6 ∧
    (after (hostWrite 0x00 0x14000000 State.reset)).status.err = 6 := by
  decide

theorem test_meets_OutcomeIgnoresStatusChkAndRes :
    hostWrite 0x03 5 State.reset = .next { State.reset with len := 5 } := rfl

/-! ### Hypotheses that are met: symbols -/

/-- The glyph of value 63; and, since an alphabet has 64 glyphs and there are more glyph codes, a glyph foreign to it. -/
theorem test_meets_C2vLooksAGlyphUpOrRefusesIt :
    (∃ g, Config.chip.alpha State.reset.ctrl.region 63 = g) ∧
    ∃ g : Glyph, ∀ v, Config.chip.alpha State.reset.ctrl.region v ≠ g := by
  refine ⟨⟨_, rfl⟩, ?_⟩
  by_contra h
  push Not at h
  choose f hf using fun n : Fin 65 => h (BitVec.ofNat 21 n.val)
  have inj : Function.Injective fun n : Fin 65 => (f n).toFin := by
    intro m n e
    have e' : f m = f n := BitVec.eq_of_toFin_eq e
    have e'' := congrArg BitVec.toNat ((hf m).symm.trans ((congrArg _ e').trans (hf n)))
    simp only [BitVec.toNat_ofNat] at e''
    omega
  simpa using Fintype.card_le_of_injective _ inj

theorem test_meets_V2cReadsTheAlphabet : (63#8).toNat ≤ 63 ∧ 63 < (64#8).toNat := by decide

theorem test_meets_V2cThenC2vGivesTheValueBack : (63#8).toNat ≤ 63 := by decide

theorem test_meets_PushcAppendsOrRefusesInOrder :
    (∃ g, Config.chip.alpha State.reset.ctrl.region 63 = g) ∧ ({ State.reset with len := 19 }).len.val < 20 :=
  ⟨⟨_, rfl⟩, by decide⟩

theorem test_meets_PushbAppendsAByteOrRefuses :
    63 < (64#8).toNat ∧ ((63#8).toNat ≤ 63 ∧ ({ State.reset with len := 20 }).len.val = 20) ∧
    ((63#8).toNat ≤ 63 ∧ ({ State.reset with len := 19 }).len.val < 20) := by decide

theorem test_meets_RdsymReadsALaneAsAGlyph :
    ({ State.reset with len := 5 }).len.val ≤ (5#8).toNat ∧ (4#8).toNat < ({ State.reset with len := 5 }).len.val := by
  decide

/-- The test configuration has the separator in `WS`. -/
theorem test_meets_PrintedTextPushesBackToTheSameLanes :
    let s := secretState .jp .memory [7, 0, 11, 11, 60] Fields.reset
    tcfg.legal = true ∧ s.Legal ∧ State.reset.len = 0 ∧ State.reset.ctrl.region = s.ctrl.region ∧
    Config.separator ∈ tcfg.ws ∧ 0 < s.len.val := by
  refine ⟨test_tcfg_is_legal, ?_⟩
  decide

/-- Twenty glyphs and a space; then a glyph of the other region; then one glyph too many. -/
theorem test_meets_SecretToBytesMapsATextAndStopsAtTheFirstError :
    tcfg.legal = true ∧
    (0x20 :: List.replicate 20 0x30 : List Glyph).filter (fun g => !tcfg.ws.contains g) =
      (List.replicate 20 0 : List SymbolValue).map (tcfg.alpha .usPal) ∧
    (List.replicate 20 0 : List SymbolValue).length = 20 ∧
    (0x3041 : Glyph) ∉ tcfg.ws ∧ ∀ v, tcfg.alpha .usPal v ≠ 0x3041 := by
  refine ⟨test_tcfg_is_legal, ?_⟩
  decide

/-! ### Hypotheses that are met: cipher, checksum, bit-fields -/

/-- The witness for key 7 in lane 0: the last entry of the window of lane 19 is entry 47. -/
theorem test_meets_CipherCommandsXorTheKeyWindow :
    let s := secretState .jp .game (List.replicate 20 63) Fields.reset
    State.reset.len = 0 ∧ s.Legal ∧ 0 < s.len.val ∧ (47 : Fin 48).val = 4 * (s.buf[0].toNat / 8) + (19 : Fin 20).val ∧
    (28 : Fin 48).val = 4 * (s.buf[0].toNat / 8) ∧ (19 : Fin 20).val < s.len.val ∧
    (secretState .jp .game [63] Fields.reset).len.val ≤ (1 : Fin 20).val := by decide

theorem test_meets_CipherIsAnInvolution : 0 < (secretState .jp .game [63] Fields.reset).len.val := by decide

theorem test_meets_CkvfyComparesTheTwoNibbles :
    State.reset.len = 0 ∧
    (secretState .jp .game [63] Fields.reset).len.val = (0 : Fin 20).val + 1 ∧
    (secretState .jp .game (List.replicate 20 63) Fields.reset).len.val = (19 : Fin 20).val + 1 := by decide

theorem test_meets_CkwrSealsTheLastLane :
    3 < (4#8).toNat ∧ (3#8).toNat ≤ 3 ∧ State.reset.len = 0 ∧ (secretState .jp .game [63] Fields.reset).len.val = (0 : Fin 20).val + 1 := by
  decide

/-- Too wide; one position past the end; and the widest field, at the end of eleven lanes. -/
theorem test_meets_BfrdReadsTheFieldAsASum :
    let s := secretState .jp .game (List.replicate 11 63) Fields.reset
    64 < (65#7).toNat ∧ 6 * s.len.val < (3#7).toNat + (64#7).toNat ∧
    ((64#7).toNat ≤ 64 ∧ (2#7).toNat + (64#7).toNat ≤ 6 * s.len.val) := by decide

/-- Too wide; one position past the end; a value one too large; and the widest value a checked field can hold. -/
theorem test_meets_BfwrInjectsExactlyTheField :
    let s := { secretState .jp .game (List.replicate 20 63) Fields.reset with data := 0x7FFFFFFFFFFFFFFF }
    64 < (65#7).toNat ∧ 6 * s.len.val < (120#7).toNat + (1#7).toNat ∧
    ((62#7).toNat < 64 ∧ (58#7).toNat + (62#7).toNat ≤ 6 * s.len.val ∧ 2 ^ (62#7).toNat ≤ s.data.toNat) ∧
    (s.Legal ∧ (63#7).toNat ≤ 64 ∧ (57#7).toNat + (63#7).toNat ≤ 6 * s.len.val ∧
      s.data.toNat < 2 ^ (63#7).toNat) := by decide

theorem test_meets_BitFieldReadAndWriteAreInverse :
    let s := { secretState .jp .game (List.replicate 20 63) Fields.reset with data := 0x7FFFFFFFFFFFFFFF }
    s.Legal ∧ (63#7).toNat ≤ 64 ∧ (57#7).toNat + (63#7).toNat ≤ 6 * s.len.val ∧
    s.data.toNat < 2 ^ (63#7).toNat := by decide

/-! ### Hypotheses that are met: codecs -/

/-- Plain secrets of the three formats: every field zero, the checksum in the last lane. -/
def plain : Format → List Byte
  | .game => List.replicate 20 0
  | .ring => 0x02 :: List.replicate 13 0 ++ [0x02]
  | .memory => [0x06, 0, 0, 0, 0x06]

/-- The state that holds the ciphered secret. -/
def ciphered (fmt : Format) : State := secretState .jp fmt (cipher Config.chip .jp (plain fmt)) Fields.reset

theorem ciphered_bytes (fmt : Format) : (ciphered fmt).bytes = cipher Config.chip .jp (plain fmt) := by
  have h : (cipher Config.chip .jp (plain fmt)).length = fmt.size := by rw [length_cipher]; cases fmt <;> rfl
  refine State.bytes_storeBytes { ciphered fmt with buf := Vector.replicate 20 0 } _ ?_
  simp only [ciphered, secretState, h]
  cases fmt <;> rfl

theorem ciphered_fmt (fmt : Format) : (ciphered fmt).ctrl = { region := .jp, fmt := fmt } := rfl

theorem ciphered_len (fmt : Format) : (ciphered fmt).len.val = fmt.size := by
  rw [← State.length_bytes, ciphered_bytes, length_cipher]
  cases fmt <;> rfl

theorem ciphered_fields (fmt : Format) : (ciphered fmt).fields = Fields.reset := rfl

/-- Deciphering gives the plain secret. -/
theorem ciphered_cipher (fmt : Format) : cipher Config.chip .jp (ciphered fmt).bytes = plain fmt := by
  rw [ciphered_bytes, cipher_cipher]

theorem ciphered_legal (fmt : Format) : (ciphered fmt).Legal := by
  refine ⟨fun i => ?_, by cases fmt <;> decide, by cases fmt <;> decide, by cases fmt <;> decide,
    by cases fmt <;> rfl, by cases fmt <;> decide, by simp [ciphered, secretState, State.reset]⟩
  show ((overlay (Vector.replicate 20 0) (cipher Config.chip .jp (plain fmt)))[i.val]).toNat ≤ 63
  rw [getElem_overlay _ _ _ i.isLt]
  by_cases h : i.val < (cipher Config.chip .jp (plain fmt)).length
  · rw [List.getD_eq_getElem _ _ h]
    have := cipher_lt Config.chip .jp (plain fmt) (by cases fmt <;> decide) i.val h
    omega
  · rw [List.getD_eq_default _ _ (by omega)]
    simp

theorem test_meets_PackLaysOutAGameSecret :
    (secretState .usPal .game [] fieldsF2).ctrl.fmt = .game ∧ (secretState .usPal .game [] fieldsF2).fields.behav.toNat ≤ 63 := by
  decide

theorem test_meets_PackLaysOutARingSecret : (secretState .jp .ring [] fieldsF2).ctrl.fmt = .ring := by decide

theorem test_meets_PackLaysOutAMemorySecret : (secretState .jp .memory [] fieldsF2).ctrl.fmt = .memory := by decide

theorem test_meets_WideBehaviourIsNotEncodable :
    let s := secretState .jp .game [] { Fields.reset with behav := 64 }
    s.ctrl.fmt = .game ∧ 63 < s.fields.behav.toNat := by decide

/-- A wrong length; a wrong discriminator; a game id of all ones; a memory index of ten. -/
theorem test_meets_UnpackChecksInOrder :
    (secretState .jp .memory [6, 0, 0, 0] Fields.reset).len.val ≠ 5 ∧
    (let s := secretState .jp .memory [4, 0, 0, 0, 0] Fields.reset
     s.len.val = 5 ∧ 2 * (s.bitAt 3).toNat + (s.bitAt 4).toNat ≠ (3#2).toNat) ∧
    (let s := secretState .jp .memory [7, 63, 63, 48, 0] Fields.reset
     s.len.val = 5 ∧ 2 * (s.bitAt 3).toNat + (s.bitAt 4).toNat = (3#2).toNat ∧ ∀ j < 15, s.bitAt (5 + j) = true) ∧
    (let s := secretState .jp .memory [6, 0, 0, 5, 0] Fields.reset
     s.len.val = 5 ∧ 2 * (s.bitAt 3).toNat + (s.bitAt 4).toNat = (3#2).toNat ∧ s.bitAt 23 = true ∧ s.bitAt 21 = true) := by
  decide

theorem test_meets_UnpackReadsAGameSecret :
    let s := secretState .jp .game (plain .game) Fields.reset
    s.ctrl.fmt = .game ∧ s.len = 20 ∧ s.bitAt 3 = false ∧ s.bitAt 4 = false ∧ ∃ j < 15, s.bitAt (5 + j) = false := by
  decide

theorem test_meets_UnpackReadsARingSecret :
    let s := secretState .jp .ring (plain .ring) Fields.reset
    s.ctrl.fmt = .ring ∧ s.len = 15 ∧ s.bitAt 3 = false ∧ s.bitAt 4 = true ∧ ∃ j < 15, s.bitAt (5 + j) = false := by
  decide

theorem test_meets_UnpackReadsAMemorySecret :
    let s := secretState .jp .memory (plain .memory) Fields.reset
    s.ctrl.fmt = .memory ∧ s.len = 5 ∧ s.bitAt 3 = true ∧ s.bitAt 4 = true ∧ (∃ j < 15, s.bitAt (5 + j) = false) ∧
    s.bitAt 23 = false ∧ (secretState .jp .memory [6, 0, 0, 9, 0] Fields.reset).bitAt 22 = false ∧
    (secretState .jp .memory [6, 0, 0, 9, 0] Fields.reset).bitAt 21 = false := by
  decide

theorem test_meets_LoadIsDeciphCkvfyUnpackWithTheBufferKept :
    State.reset.len.val ≠ 20 ∧ (secretState .jp .game (plain .game) Fields.reset).len.val = 20 := by decide

/-- For each format, whatever the chip's key ROM is. -/
theorem test_meets_LoadCompletesOnAValidSecret (fmt : Format) :
    let s := ciphered fmt
    let T := cipher Config.chip s.ctrl.region s.bytes
    let F := extract s.ctrl.fmt (bitString T) s.fields
    s.len.val = s.ctrl.fmt.size ∧ calcNibble T = storedNibble T ∧
    fieldRead (bitString T) 3 2 false = s.ctrl.fmt.bits.toNat ∧ F.gameId.toNat ≤ 32766 ∧
    (s.ctrl.fmt = .memory → F.memory.toNat ≤ 9) := by
  simp only [ciphered_len, ciphered_fmt, ciphered_cipher, ciphered_fields]
  cases fmt <;> decide

/-- For each format, whatever the chip's key ROM is. -/
theorem test_meets_LoadThenEncodeRestoresTheLanes (fmt : Format) :
    ∃ t p : State, (ciphered fmt).Legal ∧ exec .load (ciphered fmt) = .next t ∧ t.status.err = 0 ∧
      exec .deciph (ciphered fmt) = .next p := by
  refine ⟨_, _, ciphered_legal fmt, rfl, ?_, rfl⟩
  simp only [loadUnder, ciphered_len, ciphered_fmt, ciphered_cipher]
  cases fmt <;> decide

theorem test_meets_EncodeIsPackCkwrEnciph :
    (secretState .usPal .game [] fieldsF2).ctrl.fmt = .game ∧ (secretState .usPal .game [] fieldsF2).fields.behav.toNat ≤ 63 := by
  decide

theorem test_meets_EncodeThenLoadRestoresTheFields :
    (secretState .usPal .game [] fieldsF2).Legal ∧ (secretState .usPal .game [] fieldsF2).ctrl.fmt = .game ∧
    (secretState .usPal .game [] fieldsF2).fields.behav.toNat ≤ 63 ∧ (secretState .jp .ring [] fieldsF2).ctrl.fmt ≠ .game := by
  decide

theorem test_meets_EncodedSecretVerifies :
    (secretState .usPal .game [] fieldsF2).ctrl.fmt = .game ∧ (secretState .usPal .game [] fieldsF2).fields.behav.toNat ≤ 63 := by
  decide

end Sys2Proof.Tests
end

section
/-! ### Every transaction answers a next state (rules R15 and R16 of `00_scope.md`) -/

namespace Sys2Proof.Machine

/-- Every command answers a next state: no arm of `exec` ends in a fault or a refusal (R16). -/
theorem exec_eq_next (i : Instr) (s : State) : ∃ t, exec i s = .next t := by
  cases i <;> exact ⟨_, rfl⟩

/-- A word that does not decode is answered too, by the error of R72. -/
theorem runCommand_eq_next (w : Word) (s : State) : ∃ t, runCommand w s = .next t := by
  cases h : decode w with
  | ok i => simpa only [runCommand_ok h] using exec_eq_next i s
  | error e => exact ⟨_, runCommand_error h s⟩

theorem hostWrite_eq_next (a : Addr) (d : Word) (s : State) : ∃ t, hostWrite a d s = .next t := by
  rcases hostWrite_cases a d s with ⟨_, hcmd⟩ | ⟨r, _, hreg⟩ | ⟨_, hunmapped⟩
  · simpa only [hcmd] using runCommand_eq_next d s
  · exact ⟨_, hreg⟩
  · exact ⟨_, hunmapped⟩

/-- Settles O10: nothing pending and a host read answer at once, and a host write answers by `hostWrite_eq_next`. -/
theorem everyStepAnswersNext : Obligations.EveryStepAnswersNext := by
  intro s
  rcases step_cases s with ⟨_, hidle⟩ | ⟨a, rest, _, hread⟩ | ⟨a, d, rest, _, hwrite⟩
  · exact ⟨_, hidle⟩
  · exact ⟨_, hread⟩
  · simpa only [hwrite] using hostWrite_eq_next a d { s with pending := rest }

end Sys2Proof.Machine
end

section
/-! ### Pushing a text into the buffer (rules R103 and R110 of `41_symbol_table.md`) -/

namespace Sys2Proof.Machine

/-- The state after pushing the values `vals` in order, whatever `STATUS` says. -/
def State.pushValues (vals : List SymbolValue) (s : State) : State :=
  vals.foldl (fun s v => s.pushLane (v.setWidth 8)) s

@[simp] theorem State.pushValues_nil (s : State) : s.pushValues [] = s := rfl

@[simp] theorem State.pushValues_cons (v : SymbolValue) (vals : List SymbolValue) (s : State) :
    s.pushValues (v :: vals) = (s.pushLane (v.setWidth 8)).pushValues vals := rfl

/-- Pushing writes the buffer and no other register. -/
theorem State.pushValues_frame (vals : List SymbolValue) (s : State) :
    s.pushValues vals = { s with len := (s.pushValues vals).len, buf := (s.pushValues vals).buf } := by
  induction vals generalizing s with
  | nil => rfl
  | cons v vals ih => exact ih _

/-- A push into a buffer that is not full counts one lane more. -/
theorem State.val_pushLane_len (b : Byte) {s : State} (h : s.len.val < 20) :
    (s.pushLane b).len.val = s.len.val + 1 := by
  simp [Fin.val_add, Nat.mod_eq_of_lt (show s.len.val + 1 < 21 by omega)]

theorem State.val_pushValues_len (vals : List SymbolValue) (s : State) (h : s.len.val + vals.length ≤ 20) :
    (s.pushValues vals).len.val = s.len.val + vals.length := by
  induction vals generalizing s with
  | nil => rfl
  | cons v vals ih =>
    rw [List.length_cons] at h
    have hlen := s.val_pushLane_len (v.setWidth 8) (by omega)
    rw [State.pushValues_cons, ih _ (by omega), hlen, List.length_cons]
    omega

/-- The values go into the lanes from `LEN` up; the lanes before and after them stay. -/
theorem State.getElem_pushValues_buf (vals : List SymbolValue) (s : State) (h : s.len.val + vals.length ≤ 20)
    (i : Nat) (hi : i < 20) :
    (s.pushValues vals).buf[i] =
      if i < s.len.val then s.buf[i] else ((vals.map (·.setWidth 8))[i - s.len.val]?).getD s.buf[i] := by
  induction vals generalizing s with
  | nil => simp
  | cons v vals ih =>
    rw [List.length_cons] at h
    have hlen := s.val_pushLane_len (v.setWidth 8) (by omega)
    rw [State.pushValues_cons, ih _ (by omega), hlen, State.pushLane_buf, Vector.getElem_setIfInBounds]
    rcases Nat.lt_trichotomy i s.len.val with below | rfl | above
    · simp [below, show i < s.len.val + 1 by omega, show s.len.val ≠ i by omega]
    · simp
    · have shift : i - s.len.val = (i - (s.len.val + 1)) + 1 := by omega
      simp [show ¬ i < s.len.val by omega, show ¬ i < s.len.val + 1 by omega, show s.len.val ≠ i by omega, shift]

/-- Where `ERR` is 0, success writes nothing. -/
theorem State.succeed_of_err_eq_zero {s : State} (h : s.status.err = 0) : s.succeed = s := by
  simp only [State.succeed, Status.pass, ← h]

/-- `PUSHC` discards whitespace (R103). -/
theorem pushcUnder_of_mem_ws {c : Config} {g : Glyph} (h : g ∈ c.ws) (s : State) : pushcUnder c g s = s.succeed := by
  simp [pushcUnder, h]

/-- `PUSHC` of a glyph of the selected alphabet appends its value while there is room (R103). -/
theorem pushcUnder_alpha {c : Config} (hc : c.legal = true) (v : SymbolValue) {s : State} (h : s.len.val < 20) :
    pushcUnder c (c.alpha s.ctrl.region v) s = (s.pushLane (v.setWidth 8)).succeed := by
  have notWs := Config.alpha_not_ws hc s.ctrl.region v
  have value := (c2v_eq_some_iff hc s.ctrl.region _ v).2 rfl
  have room : s.len ≠ 20 := fun full => by simp [full] at h
  simp [pushcUnder, notWs, value, room]

/-- `PUSHC` does not look at the `ERR` it finds. -/
theorem pushcUnder_succeed (c : Config) (g : Glyph) (s : State) : pushcUnder c g s.succeed = pushcUnder c g s := by
  simp only [pushcUnder, State.succeed_ctrl]
  split
  · rfl
  · cases c2v c s.ctrl.region g with
    | none => rfl
    | some v => rfl

/-! The fields of a word of format G (R71). -/

theorem wordG_opcode (op : BitVec 8) (g : Glyph) : (wordG op g).extractLsb' 24 8 = op := by
  rw [wordG, BitVec.extractLsb'_append_eq_of_le (by decide)]
  exact BitVec.extractLsb'_append_eq_left

theorem wordG_zeroBits (op : BitVec 8) (g : Glyph) : (wordG op g).extractLsb' 21 3 = 0 := by
  rw [wordG, BitVec.extractLsb'_append_eq_of_le (by decide)]
  exact BitVec.extractLsb'_append_eq_right

theorem wordG_glyph (op : BitVec 8) (g : Glyph) : (wordG op g).extractLsb' 0 21 = g :=
  BitVec.extractLsb'_append_eq_right

theorem decode_encode_pushc (g : Glyph) : decode (encode (.pushc g)) = .ok (.pushc g) := by
  have shape : shapeOf 0x12 = some (.formatG .pushc) := rfl
  simp only [decode, encode, wordG_opcode, shape, Shape.zeroBitsClear, wordG_zeroBits, Shape.instr, wordG_glyph,
    beq_self_eq_true, if_true]

/-- The host write of `pushstr` for one glyph runs `PUSHC` (R77, R78). -/
theorem hostWriteUnder_pushc (c : Config) (g : Glyph) (s : State) :
    hostWriteUnder c cmdAddr (encode (.pushc g)) s = .next (pushcUnder c g s) := by
  have target : targetOf cmdAddr = .cmd := rfl
  simp [hostWriteUnder, target, decode_encode_pushc, execUnder]

theorem pushstr_cons (g : Glyph) (text : List Glyph) :
    pushstr (g :: text) = (cmdAddr, encode (.pushc g)) :: pushstr text := rfl

/-- A text of whitespace and of glyphs of the selected alphabet, for which there is room, pushes its values; then the host
goes on with the writes that follow (R110). -/
theorem hostWrites_pushstr {c : Config} (hc : c.legal = true) (rest : List (Addr × Word)) (text : List Glyph)
    (vals : List SymbolValue) (s : State) (ok : s.status.err = 0)
    (ht : text.filter (fun g => !c.ws.contains g) = vals.map (c.alpha s.ctrl.region))
    (room : s.len.val + vals.length ≤ 20) :
    hostWrites c (pushstr text ++ rest) s = hostWrites c rest (s.pushValues vals) := by
  induction text generalizing vals s with
  | nil =>
    obtain rfl : vals = [] := List.map_eq_nil_iff.1 ht.symm
    rfl
  | cons g text ih =>
    have first := hostWriteUnder_pushc c g s
    rw [pushstr_cons, List.cons_append]
    by_cases hg : g ∈ c.ws
    · rw [pushcUnder_of_mem_ws hg, State.succeed_of_err_eq_zero ok] at first
      rw [hostWrites_cons_ok _ first ok]
      exact ih vals s ok (by simpa [hg] using ht) room
    · rw [List.filter_cons_of_pos (by simpa using hg)] at ht
      obtain ⟨v, vals, rfl, rfl, htail⟩ := List.map_eq_cons_iff.1 ht.symm
      rw [List.length_cons] at room
      have hlen := s.val_pushLane_len (v.setWidth 8) (by omega)
      rw [pushcUnder_alpha hc v (by omega),
        State.succeed_of_err_eq_zero (s := s.pushLane (v.setWidth 8)) ok] at first
      rw [hostWrites_cons_ok _ first ok, State.pushValues_cons]
      exact ih vals _ ok htail.symm (by omega)

/-- The first push overwrites the `ERR` it finds. -/
theorem hostWrites_pushstr_succeed (c : Config) {text : List Glyph} (h : text ≠ []) (rest : List (Addr × Word))
    (s : State) : hostWrites c (pushstr text ++ rest) s.succeed = hostWrites c (pushstr text ++ rest) s := by
  obtain ⟨g, text, rfl⟩ := List.exists_cons_of_ne_nil h
  simp only [pushstr_cons, List.cons_append, hostWrites, hostWriteUnder_pushc, pushcUnder_succeed]

end Sys2Proof.Machine
end

section
/-! ### Printing the buffer, and pushing the print back (rules R105, R111 and R112 of `41_symbol_table.md`) -/

namespace Sys2Proof.Machine

/-- The symbol values that `RDSYM` looks up: the low six bits of the valid lanes, in order (R105). -/
def State.symbolValues (s : State) : List SymbolValue := (List.range s.len.val).map fun i => (s.lane i).setWidth 6

@[simp] theorem State.length_symbolValues (s : State) : s.symbolValues.length = s.len.val := by
  simp [State.symbolValues]

/-- A legal lane is below 64, so its symbol value determines it (R42). -/
theorem State.getElem?_symbolValues {s : State} (legal : s.Legal) (i : Fin 20) (hi : i.val < s.len.val) :
    (s.symbolValues.map (·.setWidth 8))[i.val]? = some s.buf[i] := by
  obtain ⟨lanes, _⟩ := legal
  have fits : (s.buf[i.val].setWidth 6).setWidth 8 = s.buf[i.val] := by
    have := lanes i
    rw [Fin.getElem_fin] at this
    bv_omega
  simpa [State.symbolValues, hi, State.lane_eq] using fits

/-- `RDSYM` writes `RES` and `ERR` only, so every command of `rdstr` reads the lanes of the first state (R111). -/
theorem readSymbols_eq_map (c : Config) (is : List Nat) (s : State) (h : ∀ i ∈ is, i < s.len.val) :
    readSymbols c is s = is.map fun i => symbolImage c i s := by
  induction is generalizing s with
  | nil => rfl
  | cons i is ih =>
    rw [List.forall_mem_cons] at h
    obtain ⟨hi, his⟩ := h
    have index : (BitVec.ofNat 8 i).toNat = i := by
      have := s.len.isLt
      rw [BitVec.toNat_ofNat]
      omega
    have read : execUnder c (.rdsym (BitVec.ofNat 8 i)) s = .next (s.setRes (symbolImage c i s)).succeed := by
      simp [execUnder, rdsymUnder, index, hi]
    simp only [readSymbols, read, List.map_cons]
    rw [ih (s.setRes (symbolImage c i s)).succeed his]
    rfl

/-- Bits 20 to 0 of a printed word are the glyph (R105). -/
theorem glyphOf_symbolImage (c : Config) (i : Nat) (s : State) :
    glyphOf (symbolImage c i s) = c.alpha s.ctrl.region ((s.lane i).setWidth 6) :=
  BitVec.extractLsb'_append_eq_right

/-- Bit 31 of a printed word asks for the separator after every fifth glyph (R105). -/
theorem getLsbD_symbolImage (c : Config) (i : Nat) (s : State) :
    (symbolImage c i s).getLsbD 31 = decide ((i + 1) % 5 = 0) := by
  simp only [symbolImage, BitVec.getLsbD_append]
  simp

theorem glyphText_eq (c : Config) (s : State) : glyphText c s = s.symbolValues.map (c.alpha s.ctrl.region) := by
  rw [glyphText, readSymbols_eq_map c _ s fun i hi => List.mem_range.1 hi]
  simp [State.symbolValues, glyphOf_symbolImage]

theorem rdstr_eq (c : Config) (s : State) :
    rdstr c s = (List.range s.len.val).flatMap fun i =>
      c.alpha s.ctrl.region ((s.lane i).setWidth 6) :: if (i + 1) % 5 = 0 then [Config.separator] else [] := by
  rw [rdstr, readSymbols_eq_map c _ s fun i hi => List.mem_range.1 hi]
  simp [List.flatMap_map, emitSymbol, glyphOf_symbolImage, getLsbD_symbolImage, -BitVec.getLsbD_eq_getElem]

/-- No printed glyph is whitespace. -/
theorem filter_glyphText {c : Config} (hc : c.legal = true) (s : State) :
    (glyphText c s).filter (fun g => !c.ws.contains g) = s.symbolValues.map (c.alpha s.ctrl.region) := by
  rw [glyphText_eq, List.filter_eq_self]
  intro g hg
  obtain ⟨v, _, rfl⟩ := List.mem_map.1 hg
  simpa using Config.alpha_not_ws hc s.ctrl.region v

/-- Where U+0020 is whitespace, exactly the separators of the print are (log entry 3). -/
theorem filter_rdstr {c : Config} (hc : c.legal = true) (sep : Config.separator ∈ c.ws) (s : State) :
    (rdstr c s).filter (fun g => !c.ws.contains g) = s.symbolValues.map (c.alpha s.ctrl.region) := by
  have one (i : Nat) :
      (c.alpha s.ctrl.region ((s.lane i).setWidth 6) ::
        if (i + 1) % 5 = 0 then [Config.separator] else []).filter (fun g => !c.ws.contains g) =
      [c.alpha s.ctrl.region ((s.lane i).setWidth 6)] := by
    have notWs := Config.alpha_not_ws hc s.ctrl.region ((s.lane i).setWidth 6)
    split <;> simp [notWs, sep]
  rw [rdstr_eq, List.filter_flatMap, State.symbolValues, List.map_map]
  simp only [one]
  exact List.map_eq_flatMap.symm

/-- `t` is `u` with the valid lanes of `s`, and no register but the buffer and `ERR` changed; `ERR` is 0 when there was
anything to push. -/
def HasLanesOf (s u t : State) : Prop :=
  t = { u with buf := t.buf, len := s.len, status := { u.status with err := t.status.err } } ∧
  (0 < s.len.val → t.status.err = 0) ∧ ∀ i : Fin 20, i.val < s.len.val → t.buf[i] = s.buf[i]

/-- Pushing the values of a legal state's lanes into an empty buffer gives the lanes back. -/
theorem hasLanesOf_pushValues {s u : State} (legal : s.Legal) (empty : u.len = 0) :
    HasLanesOf s u (u.succeed.pushValues s.symbolValues) := by
  have zero : u.succeed.len.val = 0 := by simp [empty]
  have room : u.succeed.len.val + s.symbolValues.length ≤ 20 := by
    have := s.len.isLt
    rw [zero, State.length_symbolValues]
    omega
  have frame := u.succeed.pushValues_frame s.symbolValues
  have len : (u.succeed.pushValues s.symbolValues).len = s.len := by
    apply Fin.ext
    rw [State.val_pushValues_len _ _ room, zero, State.length_symbolValues, Nat.zero_add]
  have status : (u.succeed.pushValues s.symbolValues).status = u.okStatus := by rw [frame]; rfl
  refine ⟨?_, fun _ => by rw [status]; rfl, fun i hi => ?_⟩
  · rw [status]
    rw [len] at frame
    exact frame
  · rw [Fin.getElem_fin, State.getElem_pushValues_buf _ _ room, zero, if_neg (Nat.not_lt_zero _), Nat.sub_zero,
      State.getElem?_symbolValues legal i hi, Option.getD_some]

/-- Any text that spells the valid lanes of a legal state, whitespace aside, pushes back to them (R112). -/
theorem hostWrites_pushstr_hasLanesOf {c : Config} (hc : c.legal = true) {s u : State} (legal : s.Legal)
    (empty : u.len = 0) (region : u.ctrl.region = s.ctrl.region) (text : List Glyph)
    (spells : text.filter (fun g => !c.ws.contains g) = s.symbolValues.map (c.alpha s.ctrl.region)) :
    ∃ t : State, hostWrites c (pushstr text) u = .next t ∧ HasLanesOf s u t := by
  by_cases blank : text = []
  · subst blank
    have noValues : s.len.val = 0 := by
      rw [← State.length_symbolValues, List.map_eq_nil_iff.1 spells.symm, List.length_nil]
    have sameLen : u.len = s.len := empty.trans (Fin.ext noValues.symm)
    exact ⟨u, rfl, by rw [← sameLen], by omega, by omega⟩
  · have room : u.succeed.len.val + s.symbolValues.length ≤ 20 := by
      have := s.len.isLt
      simp [empty]
      omega
    have run := hostWrites_pushstr hc [] text s.symbolValues u.succeed rfl
      (by rw [State.succeed_ctrl, region]; exact spells) room
    rw [hostWrites_pushstr_succeed c blank, List.append_nil] at run
    exact ⟨_, run, hasLanesOf_pushValues legal empty⟩

/-- Settles O35: both texts spell the valid lanes, the one with separators where U+0020 is whitespace. -/
theorem printedTextPushesBackToTheSameLanes : Obligations.PrintedTextPushesBackToTheSameLanes := by
  intro c s u hc legal empty region
  exact ⟨hostWrites_pushstr_hasLanesOf hc legal empty region _ (filter_glyphText hc s),
    fun sep => hostWrites_pushstr_hasLanesOf hc legal empty region _ (filter_rdstr hc sep s)⟩

end Sys2Proof.Machine
end

section
/-! ### The address map, both ways, and the step that delivers a command (rules R30 and R51) -/

namespace Sys2Proof.Machine

/-- The address of a register (R51). -/
def Reg.addr : Reg → Addr
  | .status => 0x01
  | .ctrl => 0x02
  | .len => 0x03
  | .res => 0x04
  | .chk => 0x05
  | .behcls => 0x06
  | .dataLo => 0x08
  | .dataHi => 0x09
  | .buf i => BitVec.ofNat 7 (0x10 + i.val)
  | .keysel => 0x30
  | .gameId => 0x31
  | .flags => 0x32
  | .behav => 0x33
  | .companion => 0x34
  | .memory => 0x35
  | .ringsLo => 0x36
  | .ringsHi => 0x37
  | .link i => BitVec.ofNat 7 (0x38 + i.val)
  | .child i => BitVec.ofNat 7 (0x40 + i.val)

/-- The addresses of R51 without a register. -/
abbrev Unmapped (a : Addr) : Prop :=
  a.toNat = 0x07 ∨ (0x0A ≤ a.toNat ∧ a.toNat ≤ 0x0F) ∨ (0x24 ≤ a.toNat ∧ a.toNat ≤ 0x2F) ∨
    (0x3D ≤ a.toNat ∧ a.toNat ≤ 0x3F) ∨ 0x45 ≤ a.toNat

/-- A register's address selects it. -/
@[simp] theorem targetOf_addr (r : Reg) : targetOf r.addr = .reg r := by
  cases r with
  | buf i => revert i; decide
  | link i => revert i; decide
  | child i => revert i; decide
  | _ => rfl

/-- The one address that selects a target, where there is one. -/
def Target.addr? : Target → Option Addr
  | .cmd => some 0x00
  | .reg r => some r.addr
  | .unmapped => none

/-- No two of the 128 addresses select the same register. -/
theorem addr?_targetOf : ∀ a : Addr, targetOf a = .unmapped ∨ (targetOf a).addr? = some a := by
  decide

theorem eq_addr_of_targetOf {a : Addr} {r : Reg} (h : targetOf a = .reg r) : a = r.addr :=
  Eq.symm (by simpa [h, Target.addr?] using addr?_targetOf a)

theorem eq_zero_of_targetOf {a : Addr} (h : targetOf a = .cmd) : a = 0x00 :=
  Eq.symm (by simpa [h, Target.addr?] using addr?_targetOf a)

theorem targetOf_unmapped : ∀ a : Addr, Unmapped a → targetOf a = .unmapped := by
  decide

/-- A read of a register's address (R50). -/
@[simp] theorem hostRead_addr (r : Reg) (s : State) : hostRead r.addr s = readReg s r := by
  simp [hostRead]

/-- A write to a register's address (R50). -/
@[simp] theorem hostWrite_addr (r : Reg) (d : Word) (s : State) : hostWrite r.addr d s = .next (writeReg d s r) := by
  simp [hostWrite]

theorem hostRead_unmapped {a : Addr} (h : Unmapped a) (s : State) : hostRead a s = 0 := by
  simp [hostRead, targetOf_unmapped a h]

/-- A write to the write port runs the command in the word (R30). -/
theorem hostWrite_cmd (d : Word) (s : State) : hostWrite 0x00 d s = runCommand d s := rfl

/-- Settles O7: the step takes the write, and the write to `CMD` runs the decoded command. -/
theorem stepRunsTheDeliveredCommand : Obligations.StepRunsTheDeliveredCommand := by
  intro s w i rest pending decoded
  calc step s = hostWrite 0x00 w { s with pending := rest } := by rw [step, pending]; rfl
    _ = runCommand w { s with pending := rest } := hostWrite_cmd w _
    _ = exec i { s with pending := rest } := runCommand_ok decoded _

end Sys2Proof.Machine
end

section
/-! ### The register invariant, part by part (rules R29, R32, R38 and R42 of `10_state.md`) -/

namespace Sys2Proof.Machine

/-- Every lane is below 64 (R42). -/
def LegalLanes (buf : Vector Byte 20) : Prop := ∀ i : Fin 20, buf[i].toNat ≤ 63

/-- The same for an array of bytes that a command makes. -/
def LegalBytes (B : List Byte) : Prop := ∀ b ∈ B, b.toNat < 64

/-- The ranges of `GAMEID` and `MEMORY` (R32, R38). -/
def LegalFields (F : Fields) : Prop := F.gameId.toNat ≤ 32766 ∧ F.memory.toNat ≤ 9

/-- `EFMT` is a format's number, `EACC[0]` is 0, `ERR` is not 7 and stands in `EACC` (R29, R210, R216). -/
def LegalStatus (st : Status) : Prop :=
  st.efmt ≠ 2 ∧ st.eacc.getLsbD 0 = false ∧ st.err ≠ 7 ∧ (st.err ≠ 0 → st.eacc.getLsbD st.err.toNat = true)

theorem State.legal_iff (s : State) : s.Legal ↔ LegalLanes s.buf ∧ LegalFields s.fields ∧ LegalStatus s.status := by
  simp only [State.Legal, LegalLanes, LegalFields, LegalStatus, and_assoc]

/-- Settles O19: the reset state is a closed term. -/
theorem resetIsLegal : Obligations.ResetIsLegal := by
  unfold Obligations.ResetIsLegal
  decide

/-! #### Lanes -/

theorem LegalBytes.append {A B : List Byte} (hA : LegalBytes A) (hB : LegalBytes B) : LegalBytes (A ++ B) := by
  intro b hb
  rcases List.mem_append.1 hb with h | h
  · exact hA b h
  · exact hB b h

theorem legalBytes_singleton {b : Byte} (h : b.toNat < 64) : LegalBytes [b] := by
  intro c hc
  rwa [List.mem_singleton.1 hc]

/-- The array that commands see is made of lanes. -/
theorem LegalLanes.bytes {s : State} (h : LegalLanes s.buf) : LegalBytes s.bytes := by
  intro b hb
  obtain ⟨i, hi, rfl⟩ := List.getElem_of_mem hb
  rw [State.getElem_bytes]
  have := h ⟨i, by have := s.len.isLt; simp at hi; omega⟩
  simp only [Fin.getElem_fin] at this
  omega

theorem LegalLanes.overlay {buf : Vector Byte 20} {T : List Byte} (h : LegalLanes buf) (hT : LegalBytes T) :
    LegalLanes (overlay buf T) := by
  intro i
  rw [Fin.getElem_fin, getElem_overlay]
  by_cases hi : i.val < T.length
  · rw [List.getD_eq_getElem _ _ hi]
    exact Nat.le_of_lt_succ (hT _ (List.getElem_mem hi))
  · rw [List.getD_eq_default _ _ (by omega)]
    exact h i

theorem LegalLanes.set {buf : Vector Byte 20} {b : Byte} (h : LegalLanes buf) (n : Fin 20) (hb : b.toNat ≤ 63) :
    LegalLanes (buf.set n b) := by
  intro i
  rw [Fin.getElem_fin, Vector.getElem_set]
  split
  · exact hb
  · exact h i

theorem LegalLanes.setIfInBounds {buf : Vector Byte 20} {b : Byte} (h : LegalLanes buf) (n : Nat) (hb : b.toNat ≤ 63) :
    LegalLanes (buf.setIfInBounds n b) := by
  intro i
  rw [Fin.getElem_fin, Vector.getElem_setIfInBounds]
  split
  · exact hb
  · exact h i

theorem legalLanes_zero : LegalLanes (Vector.replicate 20 0) := by
  intro i
  simp

theorem LegalBytes.cipher {B : List Byte} (h : LegalBytes B) (c : Config) (r : Region) : LegalBytes (cipher c r B) := by
  intro b hb
  obtain ⟨i, hi, rfl⟩ := List.getElem_of_mem hb
  exact cipher_lt c r B h i hi

/-- A sealed last byte has six bits (R139). -/
theorem LegalBytes.sealBytes {B : List Byte} (h : LegalBytes B) (m : BitVec 2) : LegalBytes (sealBytes m B) := by
  refine LegalBytes.append (fun b hb => h b (List.mem_of_mem_dropLast hb)) (legalBytes_singleton ?_)
  rw [BitVec.toNat_setWidth]
  exact Nat.lt_of_le_of_lt (Nat.mod_le _ _) (m ++ calcNibble B).isLt

/-- Regrouping whole chunks of six bits gives bytes below 64 (R151). -/
theorem legalBytes_bitsToByteArray {S : List Bool} {n : Nat} (h : S.length = 6 * n) : LegalBytes (bitsToByteArray S) :=
  bitsToByteArray_lt S n h

/-- Every row of a layout stands inside the data positions of its format (R171 to R174). -/
theorem row_in_bounds (f : Format) : ∀ row ∈ rowsOf f, row.off + row.len ≤ 6 * (f.size - 1) := by
  cases f <;> decide

theorem length_writeRows (rows : List FieldRow) (F : Fields) (S : List Bool)
    (h : ∀ row ∈ rows, row.off + row.len ≤ S.length) : (writeRows rows F S).length = S.length := by
  induction rows generalizing S with
  | nil => rfl
  | cons row rows ih =>
    rw [List.forall_mem_cons] at h
    obtain ⟨hrow, hrows⟩ := h
    have first := length_fieldWrite S row.off row.len row.rev (row.reg.get F) hrow
    have rest := ih (fieldWrite S row.off row.len row.rev (row.reg.get F)) (by rwa [first])
    exact rest.trans first

theorem length_packBits (f : Format) (F : Fields) : (packBits f F).length = 6 * (f.size - 1) := by
  have rows : (writeRows (rowsOf f) F (List.replicate (6 * (f.size - 1)) false)).length = 6 * (f.size - 1) := by
    rw [length_writeRows _ _ _ (by simpa using row_in_bounds f), List.length_replicate]
  have disc : 3 + 2 ≤ 6 * (f.size - 1) := by cases f <;> decide
  rw [packBits, length_fieldWrite _ _ _ _ _ (by rwa [rows]), rows]

/-- A plain secret has bytes below 64 (R183). -/
theorem legalBytes_packBytes (f : Format) (F : Fields) : LegalBytes (packBytes f F) :=
  LegalBytes.append (legalBytes_bitsToByteArray (length_packBits f F)) (legalBytes_singleton (by decide))

/-! #### Field registers -/

/-- A row that does not name `MEMORY` leaves it. -/
theorem FieldReg.set_memory {reg : FieldReg} (h : reg ≠ .memory) (v : Nat) (F : Fields) :
    (reg.set v F).memory = F.memory := by
  cases reg with
  | memory => exact absurd rfl h
  | _ => rfl

theorem readRows_memory {rows : List FieldRow} (h : ∀ row ∈ rows, row.reg ≠ .memory) (S : List Bool) (F : Fields) :
    (readRows rows S F).memory = F.memory := by
  induction rows generalizing F with
  | nil => rfl
  | cons row rows ih =>
    rw [List.forall_mem_cons] at h
    obtain ⟨hrow, hrows⟩ := h
    exact (ih hrows _).trans (FieldReg.set_memory hrow _ F)

/-- Only a Memory secret writes `MEMORY` (R185). -/
theorem extract_memory {f : Format} (h : f ≠ .memory) (S : List Bool) (F : Fields) :
    (extract f S F).memory = F.memory := by
  cases f with
  | game => exact readRows_memory (rows := rowsOf .game) (by decide) S F
  | ring => exact readRows_memory (rows := rowsOf .ring) (by decide) S F
  | memory => exact absurd rfl h

/-- What passes the range check of R181 is in range. -/
theorem LegalFields.extract {F : Fields} (h : LegalFields F) {f : Format} {S : List Bool}
    (inRange : ¬ recordOutOfRange f (extract f S F) = true) : LegalFields (extract f S F) := by
  obtain ⟨-, memoryBefore⟩ := h
  simp only [recordOutOfRange, decide_eq_true_eq, not_or, not_and, not_lt] at inRange
  obtain ⟨gameId, memory⟩ := inRange
  refine ⟨by have := (Machine.extract f S F).gameId.isLt; omega, ?_⟩
  by_cases hf : f = .memory
  · exact memory hf
  · rw [extract_memory hf]
    exact memoryBefore

/-! #### `STATUS` -/

theorem LegalStatus.pass {st : Status} (h : LegalStatus st) : LegalStatus st.pass := by
  obtain ⟨efmt, eacc, -, -⟩ := h
  exact ⟨efmt, eacc, (by decide : (0 : BitVec 3) ≠ 7), fun nonzero => absurd rfl nonzero⟩

/-- Error entry sets the sticky bit of its code, which is neither 0 nor 7 (R216). -/
theorem LegalStatus.fail {st : Status} (efmt : st.efmt ≠ 2) (eacc : st.eacc.getLsbD 0 = false) (k : ErrorKind) :
    LegalStatus (st.fail k) := by
  obtain ⟨bitZero, bitCode⟩ : (st.eacc ||| (1#7 <<< k.code.toNat)).getLsbD 0 = false ∧
      (st.eacc ||| (1#7 <<< k.code.toNat)).getLsbD k.code.toNat = true := by
    rw [BitVec.getLsbD_or, BitVec.getLsbD_or, eacc]
    cases k <;> simp [ErrorKind.code]
  exact ⟨efmt, bitZero, by cases k <;> simp [Status.fail, ErrorKind.code], fun _ => bitCode⟩

theorem LegalStatus.reset : LegalStatus State.reset.status := by
  obtain ⟨-, -, status⟩ := State.reset.legal_iff.1 resetIsLegal
  exact status

theorem Format.bits_ne_two (f : Format) : f.bits ≠ 2 := by
  cases f <;> decide

end Sys2Proof.Machine
end

section
/-! ### How a host write can end (rules R29, R91, R92 and R216) -/

namespace Sys2Proof.Machine

/-- `u` is `s` with some registers rewritten: `STATUS` and the host's side of the port are as before, and lanes and field
registers that were in range still are. -/
structure State.Rewrites (s u : State) : Prop where
  status : u.status = s.status
  pending : u.pending = s.pending
  replies : u.replies = s.replies
  lanes : LegalLanes s.buf → LegalLanes u.buf
  fields : LegalFields s.fields → LegalFields u.fields

/-- What a host write other than `CLR` and `CLRERR` can do: rewrite registers and end without error (R29), or enter an error
with its record, `CHK` apart nothing else being written (R211, R216). -/
inductive State.Ends (s : State) : State → Prop where
  | ok {u : State} (h : s.Rewrites u) : s.Ends u.succeed
  | fail (k : ErrorKind) (c : Byte) : s.Ends (State.raise k { s with chk := c })
  | symbol (hint : Bool) : s.Ends (s.raiseInvalidSymbol hint)
  | discriminator (c : Byte) : s.Ends (State.raiseDiscriminator { s with chk := c })

/-- Code 0 is success (R210). -/
theorem ErrorKind.code_ne_zero (k : ErrorKind) : k.code ≠ 0 := by
  cases k <;> decide

namespace State

theorem Rewrites.refl (s : State) : s.Rewrites s := ⟨rfl, rfl, rfl, id, id⟩

/-- A rewrite of registers that the invariant does not speak of. -/
theorem Rewrites.of_same {s u : State} (status : u.status = s.status) (pending : u.pending = s.pending)
    (replies : u.replies = s.replies) (buf : u.buf = s.buf) (fields : u.fields = s.fields) : s.Rewrites u :=
  ⟨status, pending, replies, buf ▸ id, fields ▸ id⟩

/-- A rewrite of `BUF` and `LEN`. -/
theorem Rewrites.lanes_len {s : State} {buf : Vector Byte 20} (len : Fin 21) (h : LegalLanes s.buf → LegalLanes buf) :
    s.Rewrites { s with buf := buf, len := len } :=
  ⟨rfl, rfl, rfl, h, id⟩

/-- A rewrite of the field registers. -/
theorem Rewrites.ofFields {s : State} {F : Fields} (h : LegalFields s.fields → LegalFields F) :
    s.Rewrites { s with fields := F } :=
  ⟨rfl, rfl, rfl, id, h⟩

theorem Ends.raise (k : ErrorKind) (s : State) : s.Ends (s.raise k) := .fail k s.chk

/-- The two ways of a check. -/
theorem Ends.ite {s t u : State} {p : Prop} [Decidable p] (ht : p → s.Ends t) (hu : ¬ p → s.Ends u) :
    s.Ends (if p then t else u) := by
  split
  · exact ht ‹_›
  · exact hu ‹_›

/-- A host write that ends in one of these ways keeps the host's side of the port. -/
theorem Ends.port {s t : State} (h : s.Ends t) : t.pending = s.pending ∧ t.replies = s.replies := by
  cases h with
  | ok h => exact ⟨h.pending, h.replies⟩
  | fail | symbol | discriminator => exact ⟨rfl, rfl⟩

/-- It keeps the error record when it ends without error. -/
theorem Ends.status_of_err_eq_zero {s t : State} (h : s.Ends t) (ok : t.status.err = 0) : t.status = s.okStatus := by
  cases h with
  | ok h => rw [succeed_status, okStatus, h.status, okStatus]
  | fail k => exact absurd ok k.code_ne_zero
  | symbol => exact absurd ok (ErrorKind.code_ne_zero .invalidSymbol)
  | discriminator => exact absurd ok (ErrorKind.code_ne_zero .discriminator)

/-- It keeps the registers legal. -/
theorem Ends.legal {s t : State} (h : s.Ends t) (legal : s.Legal) : t.Legal := by
  obtain ⟨lanes, fields, status⟩ := s.legal_iff.1 legal
  obtain ⟨efmt, eacc, -, -⟩ := id status
  rw [legal_iff]
  cases h with
  | @ok u h => exact ⟨h.lanes lanes, h.fields fields, (h.status ▸ status.pass : LegalStatus u.status.pass)⟩
  | fail k => exact ⟨lanes, fields, .fail efmt eacc k⟩
  | symbol hint => exact ⟨lanes, fields, .fail (st := { s.status with rhint := hint }) efmt eacc .invalidSymbol⟩
  | discriminator =>
    exact ⟨lanes, fields,
      .fail (st := { s.status with efmt := s.ctrl.fmt.bits }) s.ctrl.fmt.bits_ne_two eacc .discriminator⟩

end State

/-! #### The commands -/

theorem clearBuffer_rewrites (s : State) : s.Rewrites s.clearBuffer :=
  .lanes_len 0 fun _ => legalLanes_zero

theorem setRes_rewrites (v : Word) (s : State) : s.Rewrites (s.setRes v) := .of_same rfl rfl rfl rfl rfl

theorem pushLane_rewrites {b : Byte} (h : b.toNat ≤ 63) (s : State) : s.Rewrites (s.pushLane b) :=
  .lanes_len (s.len + 1) fun lanes => lanes.setIfInBounds s.len.val h

theorem storeBytes_rewrites {s : State} {T : List Byte} (h : LegalBytes s.bytes → LegalBytes T) :
    s.Rewrites (s.storeBytes T) :=
  .lanes_len s.len fun lanes => lanes.overlay (h lanes.bytes)

theorem storeSecret_rewrites {T : List Byte} (h : LegalBytes T) (s : State) : s.Rewrites (s.storeSecret T) :=
  .lanes_len (Fin.ofNat 21 s.ctrl.fmt.size) fun lanes => lanes.overlay h

/-- `C2V` (R106). -/
theorem c2vUnder_ends (c : Config) (g : Glyph) (s : State) : s.Ends (c2vUnder c g s) := by
  unfold c2vUnder
  cases c2v c s.ctrl.region g with
  | none => exact .symbol _
  | some v => exact .ok (setRes_rewrites _ s)

/-- `PUSHC` (R103): the value of a glyph has six bits. -/
theorem pushcUnder_ends (c : Config) (g : Glyph) (s : State) : s.Ends (pushcUnder c g s) := by
  unfold pushcUnder
  cases c2v c s.ctrl.region g with
  | none => exact .ite (fun _ => .ok (.refl s)) fun _ => .symbol _
  | some v =>
    have sixBits : (v.setWidth 8).toNat ≤ 63 := by bv_omega
    exact .ite (fun _ => .ok (.refl s)) fun _ => .ite (fun _ => .raise _ s) fun _ => .ok (pushLane_rewrites sixBits s)

/-- `PUSHB` (R104). -/
theorem pushb_ends (b : Byte) (s : State) : ∃ t, execPushb b s = .next t ∧ s.Ends t :=
  ⟨_, rfl, .ite (fun _ => .symbol _) fun small => .ite (fun _ => .raise _ s) fun _ =>
    .ok (pushLane_rewrites (Nat.not_lt.1 small) s)⟩

/-- The cipher commands (R123, R124). -/
theorem cipherBuffer_ends (c : Config) (s : State) : s.Ends (cipherBuffer c s) :=
  .ite (fun _ => .raise _ s) fun _ => .ok (storeBytes_rewrites fun h => h.cipher c s.ctrl.region)

/-- `CKVFY` (R138) writes `CHK` on success and on error. -/
theorem ckvfy_ends (s : State) : ∃ t, execCkvfy s = .next t ∧ s.Ends t :=
  ⟨_, rfl, .ite (fun _ => .raise _ s) fun _ =>
    .ite (fun _ => .ok (.of_same rfl rfl rfl rfl rfl)) fun _ => .fail .checksum _⟩

/-- `CKWR` (R139). -/
theorem ckwr_ends (m : BitVec 8) (s : State) : ∃ t, execCkwr m s = .next t ∧ s.Ends t :=
  ⟨_, rfl, .ite (fun _ => .raise _ s) fun _ => .ite (fun _ => .raise _ s) fun _ =>
    .ok (storeBytes_rewrites fun h => h.sealBytes _)⟩

/-- `BFRD` (R155). -/
theorem bfrd_ends (off len : BitVec 7) (rev : Bool) (s : State) : ∃ t, execBfrd off len rev s = .next t ∧ s.Ends t :=
  ⟨_, rfl, .ite (fun _ => .raise _ s) fun _ => .ok (.of_same rfl rfl rfl rfl rfl)⟩

/-- What the bounds check of R155 and R156 leaves. -/
theorem field_in_bounds {off len : Nat} {s : State} (h : ¬ fieldOutOfBounds off len s = true) :
    len ≤ 64 ∧ off + len ≤ 6 * s.len.val := by
  simpa [fieldOutOfBounds] using h

/-- `BFWR` (R156): within bounds the bit-string keeps its length, so it regroups into whole lanes. -/
theorem bfwr_ends (off len : BitVec 7) (rev : Bool) (s : State) : ∃ t, execBfwr off len rev s = .next t ∧ s.Ends t := by
  refine ⟨_, rfl, .ite (fun _ => .raise _ s) fun inBounds => .ite (fun _ => .raise _ s) fun _ =>
    .ok (storeBytes_rewrites fun _ => legalBytes_bitsToByteArray (n := s.len.val) ?_)⟩
  obtain ⟨-, fits⟩ := field_in_bounds inBounds
  rw [length_fieldWrite _ _ _ _ _ (by simpa using fits), length_bitString, State.length_bytes]

/-- Discriminator, extraction and range check, after a record of `CHK` (R182, R190). -/
theorem takeRecord_ends (T : List Byte) (c : Byte) (s : State) : s.Ends (takeRecord T { s with chk := c }) :=
  .ite (fun _ => .discriminator c) fun _ => .ite (fun _ => .fail .fieldRange c) fun inRange =>
    .ok ⟨rfl, rfl, rfl, id, fun fields => fields.extract inRange⟩

/-- `UNPACK` (R182). -/
theorem unpack_ends (s : State) : ∃ t, execUnpack s = .next t ∧ s.Ends t :=
  ⟨_, rfl, .ite (fun _ => .raise _ s) fun _ => takeRecord_ends s.bytes s.chk s⟩

/-- `LOAD` (R190). -/
theorem loadUnder_ends (c : Config) (s : State) : s.Ends (loadUnder c s) :=
  .ite (fun _ => .raise _ s) fun _ => .ite (fun _ => .fail .checksum _) fun _ => takeRecord_ends _ _ s

/-- `PACK` (R184). -/
theorem pack_ends (s : State) : ∃ t, execPack s = .next t ∧ s.Ends t :=
  ⟨_, rfl, .ite (fun _ => .raise _ s) fun _ => .ok (storeSecret_rewrites (legalBytes_packBytes _ _) s)⟩

/-- `ENCODE` (R194). -/
theorem encodeUnder_ends (c : Config) (s : State) : s.Ends (encodeUnder c s) :=
  .ite (fun _ => .raise _ s) fun _ =>
    .ok (storeSecret_rewrites (((legalBytes_packBytes _ _).sealBytes _).cipher c s.ctrl.region) s)

/-- Every command but `CLR` and `CLRERR` ends in one of these ways. -/
theorem exec_ends {i : Instr} (notClr : i ≠ .clr) (notClrerr : i ≠ .clrerr) (s : State) :
    ∃ t, exec i s = .next t ∧ s.Ends t := by
  cases i with
  | clr => exact absurd rfl notClr
  | clrerr => exact absurd rfl notClrerr
  | nop => exact ⟨_, rfl, .ok (.refl s)⟩
  | clrbuf => exact ⟨_, rfl, .ok (clearBuffer_rewrites s)⟩
  | c2v g => exact ⟨_, rfl, c2vUnder_ends Config.chip g s⟩
  | v2c v => exact ⟨_, rfl, .ite (fun _ => .symbol _) fun _ => .ok (setRes_rewrites _ s)⟩
  | pushc g => exact ⟨_, rfl, pushcUnder_ends Config.chip g s⟩
  | pushb b => exact pushb_ends b s
  | rdsym n => exact ⟨_, rfl, .ite (fun _ => .raise _ s) fun _ => .ok (setRes_rewrites _ s)⟩
  | deciph | enciph => exact ⟨_, rfl, cipherBuffer_ends Config.chip s⟩
  | cksum => exact ⟨_, rfl, .ok (setRes_rewrites _ s)⟩
  | ckvfy => exact ckvfy_ends s
  | ckwr m => exact ckwr_ends m s
  | bfrd off len rev => exact bfrd_ends off len rev s
  | bfwr off len rev => exact bfwr_ends off len rev s
  | unpack => exact unpack_ends s
  | pack => exact pack_ends s
  | load => exact ⟨_, rfl, loadUnder_ends Config.chip s⟩
  | encode => exact ⟨_, rfl, encodeUnder_ends Config.chip s⟩

/-- What a command can do: `CLR`, `CLRERR`, or one of the ends above. -/
theorem exec_cases (i : Instr) (s : State) : ∃ t, exec i s = .next t ∧
    (i = .clr ∧ t = s.clearRegisters ∨ i = .clrerr ∧ t = s.clearErrors ∨ s.Ends t) := by
  by_cases clr : i = .clr
  · exact ⟨_, by rw [clr]; rfl, .inl ⟨clr, rfl⟩⟩
  by_cases clrerr : i = .clrerr
  · exact ⟨_, by rw [clrerr]; rfl, .inr (.inl ⟨clrerr, rfl⟩)⟩
  obtain ⟨t, run, ends⟩ := exec_ends clr clrerr s
  exact ⟨t, run, .inr (.inr ends)⟩

/-- Settles O8: `CLR` and `CLRERR` write registers only, and every other command ends in a way that keeps the port. -/
theorem commandsKeepTheHostPort : Obligations.CommandsKeepTheHostPort := by
  intro i s t run
  obtain ⟨u, run', h⟩ := exec_cases i s
  obtain rfl : u = t := by simpa [run] using run'.symm
  rcases h with ⟨-, rfl⟩ | ⟨-, rfl⟩ | h
  · exact ⟨rfl, rfl⟩
  · exact ⟨rfl, rfl⟩
  · exact h.port

/-! #### Register writes -/

/-- A range-checked write ends in either way, when what it stores is in range. -/
theorem writeField_ends {d : Word} {max : Nat} {F : Fields} {s : State}
    (h : d.toNat ≤ max → LegalFields s.fields → LegalFields F) : s.Ends (s.writeField d max F) :=
  .ite (fun _ => .raise _ s) fun small => .ok (.ofFields (h (Nat.not_lt.1 small)))

theorem writeCtrl_ends (d : Word) (s : State) : s.Ends (s.writeCtrl d) := by
  unfold State.writeCtrl
  cases Ctrl.ofBits (d.extractLsb' 0 3) with
  | none => exact .raise _ s
  | some c => exact .ite (fun _ => .raise _ s) fun _ => .ok (.of_same rfl rfl rfl rfl rfl)

theorem writeLen_ends (d : Word) (s : State) : s.Ends (s.writeLen d) := by
  unfold State.writeLen
  split
  · exact .ok (.of_same rfl rfl rfl rfl rfl)
  · exact .raise _ s

theorem writeLane_ends (i : Fin 20) (d : Word) (s : State) : s.Ends (s.writeLane i d) :=
  .ite (fun _ => .symbol _) fun small =>
    .ok (.lanes_len s.len fun lanes => lanes.set i (by bv_omega))

theorem writeReg_ends (d : Word) (s : State) (r : Reg) : s.Ends (writeReg d s r) := by
  cases r with
  | status | res | chk | behcls => exact .raise _ s
  | ctrl => exact writeCtrl_ends d s
  | len => exact writeLen_ends d s
  | dataLo | dataHi => exact .ok (.of_same rfl rfl rfl rfl rfl)
  | buf i => exact writeLane_ends i d s
  | gameId => exact writeField_ends fun small ⟨_, memory⟩ => ⟨by simp only; bv_omega, memory⟩
  | memory => exact writeField_ends fun small ⟨gameId, _⟩ => ⟨gameId, by simp only; bv_omega⟩
  | ringsLo | ringsHi => exact .ok (.ofFields id)
  | keysel | flags | behav | companion | link | child => exact writeField_ends fun _ => id

/-! #### Host writes and steps -/

theorem runCommand_cases (w : Word) (s : State) : ∃ t, runCommand w s = .next t ∧
    (decode w = .ok .clr ∧ t = s.clearRegisters ∨ decode w = .ok .clrerr ∧ t = s.clearErrors ∨ s.Ends t) := by
  cases h : decode w with
  | ok i =>
    obtain ⟨t, run, ht⟩ := exec_cases i s
    refine ⟨t, (runCommand_ok h s).trans run, ?_⟩
    rcases ht with ⟨rfl, ht⟩ | ⟨rfl, ht⟩ | ht
    · exact .inl ⟨rfl, ht⟩
    · exact .inr (.inl ⟨rfl, ht⟩)
    · exact .inr (.inr ht)
  | error e => exact ⟨_, runCommand_error h s, .inr (.inr (.raise _ s))⟩

/-- What a host write can do: `CLR` or `CLRERR` through `CMD`, or one of the ends above. -/
theorem hostWrite_ends (a : Addr) (d : Word) (s : State) : ∃ t, hostWrite a d s = .next t ∧
    (targetOf a = .cmd ∧ (decode d = .ok .clr ∧ t = s.clearRegisters ∨ decode d = .ok .clrerr ∧ t = s.clearErrors) ∨
      s.Ends t) := by
  rcases hostWrite_cases a d s with ⟨ha, run⟩ | ⟨r, -, run⟩ | ⟨-, run⟩
  · obtain ⟨t, run', ht⟩ := runCommand_cases d s
    refine ⟨t, run.trans run', ?_⟩
    rcases ht with ht | ht | ht
    · exact .inl ⟨ha, .inl ht⟩
    · exact .inl ⟨ha, .inr ht⟩
    · exact .inr ht
  · exact ⟨_, run, .inr (writeReg_ends d s r)⟩
  · exact ⟨_, run, .inr (.raise _ s)⟩

theorem hostWrite_keeps_legal {a : Addr} {d : Word} {s t : State} (legal : s.Legal) (run : hostWrite a d s = .next t) :
    t.Legal := by
  obtain ⟨u, run', h⟩ := hostWrite_ends a d s
  obtain rfl : u = t := by simpa [run] using run'.symm
  rcases h with ⟨-, ⟨-, rfl⟩ | ⟨-, rfl⟩⟩ | h
  · exact resetIsLegal
  · obtain ⟨lanes, fields, -⟩ := s.legal_iff.1 legal
    exact (State.legal_iff _).2 ⟨lanes, fields, LegalStatus.reset⟩
  · exact h.legal legal

/-- Settles O20: an idle step and a host read write no register, and a host write keeps the invariant however it ends. -/
theorem everyStepKeepsTheRegistersLegal : Obligations.EveryStepKeepsTheRegistersLegal := by
  intro s t legal run
  rcases step_cases s with ⟨-, idle⟩ | ⟨a, rest, -, read⟩ | ⟨a, d, rest, -, write⟩
  · obtain rfl : s = t := by simpa [idle] using run
    exact legal
  · obtain rfl := Host.Outcome.next.inj (read.symm.trans run)
    exact legal
  · exact hostWrite_keeps_legal (s := { s with pending := rest }) legal (write.symm.trans run)

end Sys2Proof.Machine
end

section
/-! ### Which writes clear the error record, and that no outcome depends on it (rules R29, R45, R91, R92 and R217) -/

namespace Sys2Proof.Machine

/-- The row of `CLR` or of `CLRERR` in the opcode map is the one with its opcode (R74). -/
theorem shapeOf_control {op : BitVec 8} {shape : Shape} {w : Word} {cmd : Instr} (row : shapeOf op = some shape)
    (instr : shape.instr w = cmd) (control : cmd = .clr ∨ cmd = .clrerr) :
    shape = .formatZ cmd ∧ wordZ op = encode cmd := by
  unfold shapeOf at row
  split at row <;> cases row <;> simp only [Shape.instr] at instr <;> subst instr <;> simp at control
  case h_2 hop =>
    obtain rfl : op = 1 := BitVec.eq_of_toNat_eq hop
    exact ⟨rfl, rfl⟩
  case h_3 hop =>
    obtain rfl : op = 2 := BitVec.eq_of_toNat_eq hop
    exact ⟨rfl, rfl⟩

/-- A word is its opcode byte and the 24 bits below it (R70). -/
theorem eq_wordZ {w : Word} (zero : w.extractLsb' 0 24 = 0) : w = wordZ (w.extractLsb' 24 8) := by
  have parts := BitVec.extractLsb'_append_extractLsb'_eq_extractLsb' (x := w) (start₁ := 0) (len₁ := 24)
    (start₂ := 24) (len₂ := 8) (by decide)
  rw [zero, BitVec.extractLsb'_eq_self] at parts
  exact parts.symm

/-- `CLR` and `CLRERR` have one word each (R71, R74). -/
theorem eq_encode_of_decode_control {w : Word} {cmd : Instr} (h : decode w = .ok cmd)
    (control : cmd = .clr ∨ cmd = .clrerr) : w = encode cmd := by
  unfold decode at h
  cases row : shapeOf (w.extractLsb' 24 8) with
  | none => simp [row] at h
  | some shape =>
    simp only [row] at h
    split at h
    · next zero =>
      obtain ⟨rfl, word⟩ := shapeOf_control row (Except.ok.inj h) control
      exact (eq_wordZ (by simpa [Shape.zeroBitsClear] using zero)).trans word
    · cases h

/-- Settles O23: a write that ends without error keeps the record, or is the one word of `CLR` or of `CLRERR`. -/
theorem successfulWriteKeepsTheErrorRecord : Obligations.SuccessfulWriteKeepsTheErrorRecord := by
  intro s t a d run ok
  obtain ⟨u, run', h⟩ := hostWrite_ends a d s
  obtain rfl : u = t := by simpa [run] using run'.symm
  rcases h with ⟨ha, ⟨hd, rfl⟩ | ⟨hd, rfl⟩⟩ | h
  · exact .inr ⟨eq_zero_of_targetOf ha, .inl (eq_encode_of_decode_control hd (.inl rfl)), rfl⟩
  · exact .inr ⟨eq_zero_of_targetOf ha, .inr (eq_encode_of_decode_control hd (.inr rfl)), rfl⟩
  · exact .inl (h.status_of_err_eq_zero ok)

/-- `s` with another error record, `CHK` and `RES`. -/
def State.withRecord (st : Status) (c : Byte) (r : Word) (s : State) : State := { s with status := st, chk := c, res := r }

/-- Two ends of a host write with the same `ERR` that differ only in `STATUS`, `CHK` and `RES`. -/
def SameOutcome (t u : State) : Prop :=
  u = { t with status := u.status, chk := u.chk, res := u.res } ∧ u.status.err = t.status.err

theorem SameOutcome.ite {t u t' u' : State} {p : Prop} [Decidable p] (h : SameOutcome t u) (h' : SameOutcome t' u') :
    SameOutcome (if p then t else t') (if p then u else u') := by
  split
  · exact h
  · exact h'

section
variable (st : Status) (c : Byte) (r : Word) (s : State)

theorem takeRecord_sameOutcome (T : List Byte) :
    SameOutcome (takeRecord T s) (takeRecord T (s.withRecord st c r)) :=
  .ite ⟨rfl, rfl⟩ (.ite ⟨rfl, rfl⟩ ⟨rfl, rfl⟩)

theorem c2vUnder_sameOutcome (cfg : Config) (g : Glyph) :
    SameOutcome (c2vUnder cfg g s) (c2vUnder cfg g (s.withRecord st c r)) := by
  have ctrl : (s.withRecord st c r).ctrl = s.ctrl := rfl
  simp only [c2vUnder, ctrl]
  cases c2v cfg s.ctrl.region g with
  | none => exact ⟨rfl, rfl⟩
  | some v => exact ⟨rfl, rfl⟩

theorem pushcUnder_sameOutcome (cfg : Config) (g : Glyph) :
    SameOutcome (pushcUnder cfg g s) (pushcUnder cfg g (s.withRecord st c r)) := by
  have ctrl : (s.withRecord st c r).ctrl = s.ctrl := rfl
  simp only [pushcUnder, ctrl]
  cases c2v cfg s.ctrl.region g with
  | none => exact .ite ⟨rfl, rfl⟩ ⟨rfl, rfl⟩
  | some v => exact .ite ⟨rfl, rfl⟩ (.ite ⟨rfl, rfl⟩ ⟨rfl, rfl⟩)

/-- No command looks at the record, `CHK` or `RES` (R45). -/
theorem exec_sameOutcome (i : Instr) :
    ∃ t u, exec i s = .next t ∧ exec i (s.withRecord st c r) = .next u ∧ SameOutcome t u := by
  cases i with
  | nop | clr | clrerr | clrbuf | cksum => exact ⟨_, _, rfl, rfl, rfl, rfl⟩
  | c2v g => exact ⟨_, _, rfl, rfl, c2vUnder_sameOutcome st c r s Config.chip g⟩
  | pushc g => exact ⟨_, _, rfl, rfl, pushcUnder_sameOutcome st c r s Config.chip g⟩
  | v2c | rdsym | deciph | enciph | pack | encode | bfrd =>
    exact ⟨_, _, rfl, rfl, .ite ⟨rfl, rfl⟩ ⟨rfl, rfl⟩⟩
  | pushb | ckvfy | ckwr | bfwr => exact ⟨_, _, rfl, rfl, .ite ⟨rfl, rfl⟩ (.ite ⟨rfl, rfl⟩ ⟨rfl, rfl⟩)⟩
  | unpack => exact ⟨_, _, rfl, rfl, .ite ⟨rfl, rfl⟩ (takeRecord_sameOutcome st c r s s.bytes)⟩
  | load => exact ⟨_, _, rfl, rfl, .ite ⟨rfl, rfl⟩ (.ite ⟨rfl, rfl⟩ (takeRecord_sameOutcome st _ r _ _))⟩

theorem writeCtrl_sameOutcome (d : Word) : SameOutcome (s.writeCtrl d) ((s.withRecord st c r).writeCtrl d) := by
  unfold State.writeCtrl
  cases Ctrl.ofBits (d.extractLsb' 0 3) with
  | none => exact ⟨rfl, rfl⟩
  | some ctrl => exact .ite ⟨rfl, rfl⟩ ⟨rfl, rfl⟩

theorem writeLen_sameOutcome (d : Word) : SameOutcome (s.writeLen d) ((s.withRecord st c r).writeLen d) := by
  unfold State.writeLen
  split <;> exact ⟨rfl, rfl⟩

/-- No register write looks at them either. -/
theorem writeReg_sameOutcome (d : Word) (reg : Reg) :
    SameOutcome (writeReg d s reg) (writeReg d (s.withRecord st c r) reg) := by
  cases reg with
  | ctrl => exact writeCtrl_sameOutcome st c r s d
  | len => exact writeLen_sameOutcome st c r s d
  | status | res | chk | behcls | dataLo | dataHi | ringsLo | ringsHi => exact ⟨rfl, rfl⟩
  | buf | keysel | gameId | flags | behav | companion | memory | link | child => exact .ite ⟨rfl, rfl⟩ ⟨rfl, rfl⟩

theorem runCommand_sameOutcome (w : Word) :
    ∃ t u, runCommand w s = .next t ∧ runCommand w (s.withRecord st c r) = .next u ∧ SameOutcome t u := by
  cases h : decode w with
  | ok i => simpa only [runCommand_ok h] using exec_sameOutcome st c r s i
  | error e => exact ⟨_, _, runCommand_error h _, runCommand_error h _, rfl, rfl⟩

theorem hostWrite_sameOutcome (a : Addr) (d : Word) :
    ∃ t u, hostWrite a d s = .next t ∧ hostWrite a d (s.withRecord st c r) = .next u ∧ SameOutcome t u := by
  unfold hostWrite
  cases targetOf a with
  | cmd => exact runCommand_sameOutcome st c r s d
  | reg reg => exact ⟨_, _, rfl, rfl, writeReg_sameOutcome st c r s d reg⟩
  | unmapped => exact ⟨_, _, rfl, rfl, rfl, rfl⟩

end

/-- Settles O25: the write to the state with another record runs to the same outcome. -/
theorem outcomeIgnoresStatusChkAndRes : Obligations.OutcomeIgnoresStatusChkAndRes := by
  intro s t a d st c r run
  obtain ⟨t', u, run', runWith, same⟩ := hostWrite_sameOutcome st c r s a d
  obtain rfl := Host.Outcome.next.inj (run.symm.trans run')
  exact ⟨u, runWith, same⟩

end Sys2Proof.Machine
end

section
/-! ### What a host read returns (rules R35 and R51 to R55 of `20_memory.md`) -/

namespace Sys2Proof.Machine

/-- A concatenation as a number. -/
theorem toNat_append_eq_add {m n : Nat} (hi : BitVec m) (lo : BitVec n) :
    (hi ++ lo).toNat = 2 ^ n * hi.toNat + lo.toNat := by
  rw [BitVec.toNat_append, ← Nat.shiftLeft_add_eq_or_of_lt lo.isLt, Nat.shiftLeft_eq, Nat.mul_comm]

/-- Zero extension keeps the number (R54). -/
theorem toNat_zeroExtend {n : Nat} (h : n ≤ 32) (x : BitVec n) : (x.setWidth 32).toNat = x.toNat := by
  rw [BitVec.toNat_setWidth_of_le h]

/-- The two halves of a 64-bit register make it up (R55). -/
theorem toNat_halves (x : BitVec 64) :
    2 ^ 32 * (x.extractLsb' 32 32).toNat + (x.extractLsb' 0 32).toNat = x.toNat := by
  simp only [BitVec.extractLsb'_toNat, Nat.shiftRight_eq_div_pow]
  omega

/-- The image of `STATUS` (R29). -/
theorem Status.toNat_image (st : Status) :
    st.image.toNat = st.err.toNat + 8 * st.rhint.toNat + 16 * st.efmt.toNat + 256 * st.eacc.toNat := by
  simp only [Status.image, toNat_append_eq_add, BitVec.toNat_ofBool, BitVec.toNat_zero]
  omega

/-- The image of `CTRL` (R23). -/
theorem Ctrl.toNat_bits (c : Ctrl) :
    c.bits.toNat = (match c.region with | .jp => 0 | .usPal => 1) +
      2 * (match c.fmt with | .game => 0 | .ring => 1 | .memory => 3) := by
  obtain ⟨region, fmt⟩ := c
  cases region <;> cases fmt <;> rfl

/-- The classes of `BEHAV` (R35). -/
theorem behClass_eq (b : Byte) :
    (b = 0 → behClass b = 0) ∧ (1 ≤ b.toNat → b.toNat ≤ 5 → behClass b = 1) ∧
    (6 ≤ b.toNat → b.toNat ≤ 10 → behClass b = 2) ∧ (11 ≤ b.toNat → behClass b = 3) := by
  unfold behClass
  refine ⟨?_, ?_, ?_, ?_⟩
  · rintro rfl
    rfl
  · intro h h'
    rw [if_neg (by omega), if_pos h']
  · intro h h'
    rw [if_neg (by omega), if_neg (by omega), if_pos h']
  · intro h
    rw [if_neg (by omega), if_neg (by omega), if_neg (by omega)]

/-- Settles O11: each address is a register's, and the register reads as its image. -/
theorem hostReadReturnsTheMappedRegister : Obligations.HostReadReturnsTheMappedRegister := by
  intro s
  obtain ⟨none, curious, shy, bouncy⟩ := behClass_eq s.fields.behav
  have behcls {k : BitVec 2} (h : behClass s.fields.behav = k) : hostRead 0x06 s = k.setWidth 32 :=
    (hostRead_addr .behcls s).trans (by rw [readReg, h])
  have zeroExtended {n : Nat} (r : Reg) (x : BitVec n) (h : n ≤ 32) (read : readReg s r = x.setWidth 32) :
      (hostRead r.addr s).toNat = x.toNat := by
    rw [hostRead_addr, read, toNat_zeroExtend h]
  refine ⟨rfl, s.status.toNat_image, ?_, ?_, rfl, zeroExtended .chk _ (by decide) rfl, fun h => behcls (none h),
    fun h h' => behcls (curious h h'), fun h h' => behcls (shy h h'), fun h => behcls (bouncy h),
    toNat_halves s.data, fun i => zeroExtended (.buf i) _ (by decide) rfl,
    zeroExtended .keysel _ (by decide) rfl, zeroExtended .gameId _ (by decide) rfl,
    zeroExtended .flags _ (by decide) rfl, zeroExtended .behav _ (by decide) rfl,
    zeroExtended .companion _ (by decide) rfl, zeroExtended .memory _ (by decide) rfl, toNat_halves s.fields.rings,
    fun i => zeroExtended (.link i) _ (by decide) rfl, fun i => zeroExtended (.child i) _ (by decide) rfl,
    fun a h => hostRead_unmapped h s⟩
  · exact (zeroExtended .ctrl s.ctrl.bits (by decide) rfl).trans s.ctrl.toNat_bits
  · have := s.len.isLt
    exact (BitVec.toNat_ofNat _ _).trans (Nat.mod_eq_of_lt (by omega))

/-- Settles O18: the reset state is a closed term, and there are 128 addresses to read. -/
theorem resetZeroesEveryRegister : Obligations.ResetZeroesEveryRegister := by
  refine ⟨rfl, rfl, ?_, rfl, rfl, rfl, rfl, rfl, rfl, rfl, rfl, rfl, rfl, rfl, ?_, ?_, ?_⟩ <;> decide

end Sys2Proof.Machine
end

section
/-! ### What a host write stores (rules R23 to R40 of `10_state.md`) -/

namespace Sys2Proof.Machine

/-! #### Either it is refused with one error code, or it stores its value and ends without error -/

theorem State.writeField_eq (d : Word) (max : Nat) (F : Fields) (s : State) :
    s.writeField d max F =
      if max < d.toNat then { s with status := s.errStatus 5 } else { s with fields := F, status := s.okStatus } := rfl

theorem State.writeLane_eq (i : Fin 20) (d : Word) (s : State) :
    s.writeLane i d =
      if 63 < d.toNat then { s with status := { s.errStatus 2 with rhint := false } }
      else { s with buf := s.buf.set i (d.setWidth 8), status := s.okStatus } := rfl

theorem State.writeLen_of_le {d : Word} (h : d.toNat ≤ 20) (s : State) :
    s.writeLen d = { s with len := ⟨d.toNat, Nat.lt_succ_of_le h⟩, status := s.okStatus } := by
  rw [State.writeLen, dif_pos (Nat.lt_succ_of_le h)]
  rfl

theorem State.writeLen_of_lt {d : Word} (h : 20 < d.toNat) (s : State) :
    s.writeLen d = { s with status := s.errStatus 1 } := by
  rw [State.writeLen, dif_neg (by omega)]
  rfl

/-- A pattern of `CTRL` names a region and a format, unless `FMT` would be 2 (R23). -/
theorem Ctrl.ofBits_eq_none_iff : ∀ b : BitVec 3, Ctrl.ofBits b = none ↔ b.toNat / 2 = 2 := by
  decide

theorem Ctrl.bits_of_ofBits : ∀ b : BitVec 3, ∀ c ∈ Ctrl.ofBits b, c.bits = b := by
  decide

/-- The number of a pattern tells its two fields. -/
theorem Ctrl.fields_of_bits (c : Ctrl) :
    (c.region = .usPal ↔ c.bits.toNat % 2 = 1) ∧ (c.fmt = .game ↔ c.bits.toNat / 2 = 0) ∧
    (c.fmt = .ring ↔ c.bits.toNat / 2 = 1) ∧ (c.fmt = .memory ↔ c.bits.toNat / 2 = 3) := by
  obtain ⟨region, fmt⟩ := c
  cases region <;> cases fmt <;> decide

theorem toNat_ctrlPattern (d : Word) : (d.extractLsb' 0 3).toNat = d.toNat % 8 := by
  simp

/-- `CTRL` refuses what is above 7 and the two patterns with `FMT = 2`. -/
theorem State.writeCtrl_refused {d : Word} (h : 8 ≤ d.toNat ∨ d.toNat / 2 % 4 = 2) (s : State) :
    s.writeCtrl d = { s with status := s.errStatus 6 } := by
  unfold State.writeCtrl
  cases hc : Ctrl.ofBits (d.extractLsb' 0 3) with
  | none => rfl
  | some c =>
    have fmt := (Ctrl.ofBits_eq_none_iff (d.extractLsb' 0 3)).not.1 (by simp [hc])
    rw [toNat_ctrlPattern] at fmt
    exact if_pos (by omega)

/-- It takes any other value, which is then its pattern. -/
theorem State.writeCtrl_accepted {d : Word} (h : d.toNat < 8) (hfmt : d.toNat / 2 % 4 ≠ 2) (s : State) :
    ∃ c : Ctrl, c.bits.toNat = d.toNat ∧ s.writeCtrl d = { s with ctrl := c, status := s.okStatus } := by
  have pattern : (d.extractLsb' 0 3).toNat = d.toNat := by rw [toNat_ctrlPattern, Nat.mod_eq_of_lt h]
  unfold State.writeCtrl
  cases hc : Ctrl.ofBits (d.extractLsb' 0 3) with
  | none =>
    have fmt := (Ctrl.ofBits_eq_none_iff _).1 hc
    omega
  | some c => exact ⟨c, by rw [Ctrl.bits_of_ofBits _ c hc, pattern], if_neg (by omega)⟩

/-- Settles O13: the pattern that is accepted tells the two fields. -/
theorem writeToCtrlSetsRegionAndFormat : Obligations.WriteToCtrlSetsRegionAndFormat := by
  intro s d
  have write : hostWrite 0x02 d s = .next (s.writeCtrl d) := hostWrite_addr .ctrl d s
  refine ⟨fun h => by rw [write, s.writeCtrl_refused h], fun h hfmt => ?_⟩
  obtain ⟨c, bits, accepted⟩ := s.writeCtrl_accepted h hfmt
  refine ⟨c, by rw [write, accepted], ?_⟩
  rw [← bits]
  exact c.fields_of_bits

/-- Settles O14: both registers are one range check. -/
theorem writeToLenAndLanes : Obligations.WriteToLenAndLanes := by
  intro s d
  have len : hostWrite 0x03 d s = .next (s.writeLen d) := hostWrite_addr .len d s
  have lane (i : Fin 20) : hostWrite (BitVec.ofNat 7 (0x10 + i.val)) d s = .next (s.writeLane i d) :=
    hostWrite_addr (.buf i) d s
  refine ⟨fun h => by rw [len, s.writeLen_of_lt h], fun h => ⟨_, rfl, by rw [len, s.writeLen_of_le h]⟩,
    fun i h => ?_, fun i h => ?_⟩
  · rw [lane, State.writeLane_eq, if_pos h]
  · rw [lane, State.writeLane_eq, if_neg (Nat.not_lt.2 h)]

/-- Settles O15: each address is a field register's, and its write is one range check. -/
theorem writeToFieldRegisterIsRangeChecked : Obligations.WriteToFieldRegisterIsRangeChecked := by
  intro s d
  have checked {r : Reg} {max : Nat} {F : Fields} (h : writeReg d s r = s.writeField d max F) :
      hostWrite r.addr d s =
        if max < d.toNat then .next { s with status := s.errStatus 5 }
        else .next { s with fields := F, status := s.okStatus } := by
    rw [hostWrite_addr, h, State.writeField_eq, apply_ite Host.Outcome.next]
  exact ⟨checked (r := .keysel) rfl, checked (r := .gameId) rfl, checked (r := .flags) rfl, checked (r := .behav) rfl,
    checked (r := .companion) rfl, checked (r := .memory) rfl, fun i => checked (r := .link i) rfl,
    fun i => checked (r := .child i) rfl⟩

/-- A 64-bit register made of two halves. -/
theorem toNat_two_halves (hi lo : Word) :
    (hi ++ lo : BitVec 64).toNat % 2 ^ 32 = lo.toNat ∧ (hi ++ lo : BitVec 64).toNat / 2 ^ 32 = hi.toNat := by
  have eq : (hi ++ lo : BitVec 64).toNat = 2 ^ 32 * hi.toNat + lo.toNat := toNat_append_eq_add hi lo
  omega

theorem toNat_lowHalf (x : BitVec 64) : (x.extractLsb' 0 32).toNat = x.toNat % 2 ^ 32 := by
  simp

theorem toNat_highHalf (x : BitVec 64) : (x.extractLsb' 32 32).toNat = x.toNat / 2 ^ 32 := by
  have := toNat_halves x
  omega

/-- Settles O16: a write to a half is the concatenation of the value and the other half. -/
theorem wideRegistersAreTwoHalves : Obligations.WideRegistersAreTwoHalves := by
  intro s d
  have low (x : BitVec 64) := toNat_two_halves (x.extractLsb' 32 32) d
  have high (x : BitVec 64) := toNat_two_halves d (x.extractLsb' 0 32)
  simp only [toNat_lowHalf, toNat_highHalf] at low high
  exact ⟨⟨_, rfl, low s.data⟩, ⟨_, rfl, high s.data⟩, ⟨_, rfl, low s.fields.rings⟩, ⟨_, rfl, high s.fields.rings⟩⟩

end Sys2Proof.Machine
end

section
/-! ### A register reads back what was written to it, and no other register reads differently (rule R21 of `10_state.md`) -/

namespace Sys2Proof.Machine

/-- `u` is `s` with `d` in register `r`: it reads back, and every other image is as before, but for `STATUS` and, where `r`
is `BEHAV`, `BEHCLS`. -/
structure Stores (d : Word) (r : Reg) (s u : State) : Prop where
  same : readReg u r = d
  others : ∀ q : Reg, q ≠ r → q ≠ .status → (q = .behcls → r ≠ .behav) → readReg u q = readReg s q

/-- Every register but `STATUS` reads the same under any `STATUS`. -/
theorem readReg_with_status {r : Reg} (h : r ≠ .status) (st : Status) (s : State) :
    readReg { s with status := st } r = readReg s r := by
  cases r with
  | status => exact absurd rfl h
  | _ => rfl

theorem Stores.succeed {d : Word} {r : Reg} {s u : State} (h : Stores d r s u) (notStatus : r ≠ .status) :
    Stores d r s u.succeed where
  same := (readReg_with_status notStatus _ u).trans h.same
  others q ne notStatus behcls := (readReg_with_status notStatus _ u).trans (h.others q ne notStatus behcls)

/-- A word that fits `n` bits is its low `n` bits (R54). -/
theorem setWidth_setWidth_of_lt {d : Word} {n : Nat} (hn : n ≤ 32) (h : d.toNat < 2 ^ n) :
    (d.setWidth n).setWidth 32 = d := by
  apply BitVec.eq_of_toNat_eq
  rw [toNat_zeroExtend hn, BitVec.toNat_setWidth, Nat.mod_eq_of_lt h]

/-! The halves of a concatenation (R55). -/

theorem lowHalf_append (hi lo : Word) : (hi ++ lo : BitVec 64).extractLsb' 0 32 = lo :=
  BitVec.extractLsb'_append_eq_right

theorem highHalf_append (hi lo : Word) : (hi ++ lo : BitVec 64).extractLsb' 32 32 = hi :=
  BitVec.extractLsb'_append_eq_left

/-! #### The registers outside the field registers -/

section
variable {d : Word} {s : State}

theorem stores_ctrl {c : Ctrl} (h : c.bits.toNat = d.toNat) : Stores d .ctrl s { s with ctrl := c } where
  same := BitVec.eq_of_toNat_eq ((toNat_zeroExtend (by decide) _).trans h)
  others q ne _ _ := by
    cases q with
    | ctrl => exact absurd rfl ne
    | _ => rfl

theorem stores_len {n : Fin 21} (h : n.val = d.toNat) : Stores d .len s { s with len := n } where
  same := by simp [readReg, h]
  others q ne _ _ := by
    cases q with
    | len => exact absurd rfl ne
    | _ => rfl

theorem stores_buf (i : Fin 20) (h : d.toNat ≤ 63) : Stores d (.buf i) s { s with buf := s.buf.set i (d.setWidth 8) } where
  same := by simpa [readReg] using setWidth_setWidth_of_lt (n := 8) (by decide) (by omega)
  others q ne _ _ := by
    cases q with
    | buf j =>
      have hne : i.val ≠ j.val := fun e => ne (by rw [Fin.ext e])
      simp [readReg, hne]
    | _ => rfl

theorem stores_dataLo : Stores d .dataLo s { s with data := s.data.extractLsb' 32 32 ++ d } where
  same := lowHalf_append _ d
  others q ne _ _ := by
    cases q with
    | dataLo => exact absurd rfl ne
    | dataHi => exact highHalf_append _ d
    | _ => rfl

theorem stores_dataHi : Stores d .dataHi s { s with data := d ++ s.data.extractLsb' 0 32 } where
  same := highHalf_append d _
  others q ne _ _ := by
    cases q with
    | dataLo => exact lowHalf_append d _
    | dataHi => exact absurd rfl ne
    | _ => rfl

/-! #### The field registers -/

theorem stores_ringsLo :
    Stores d .ringsLo s { s with fields := { s.fields with rings := s.fields.rings.extractLsb' 32 32 ++ d } } where
  same := lowHalf_append _ d
  others q ne _ _ := by
    cases q with
    | ringsLo => exact absurd rfl ne
    | ringsHi => exact highHalf_append _ d
    | _ => rfl

theorem stores_ringsHi :
    Stores d .ringsHi s { s with fields := { s.fields with rings := d ++ s.fields.rings.extractLsb' 0 32 } } where
  same := highHalf_append d _
  others q ne _ _ := by
    cases q with
    | ringsLo => exact lowHalf_append d _
    | ringsHi => exact absurd rfl ne
    | _ => rfl

theorem stores_keysel (h : d.toNat ≤ 7) :
    Stores d .keysel s { s with fields := { s.fields with keysel := d.setWidth 3 } } where
  same := setWidth_setWidth_of_lt (by decide) (by omega)
  others q ne _ _ := by
    cases q with
    | keysel => exact absurd rfl ne
    | _ => rfl

theorem stores_gameId (h : d.toNat ≤ 32766) :
    Stores d .gameId s { s with fields := { s.fields with gameId := d.setWidth 15 } } where
  same := setWidth_setWidth_of_lt (by decide) (by omega)
  others q ne _ _ := by
    cases q with
    | gameId => exact absurd rfl ne
    | _ => rfl

theorem stores_flags (h : d.toNat ≤ 31) :
    Stores d .flags s { s with fields := { s.fields with flags := d.setWidth 5 } } where
  same := setWidth_setWidth_of_lt (by decide) (by omega)
  others q ne _ _ := by
    cases q with
    | flags => exact absurd rfl ne
    | _ => rfl

/-- `BEHCLS` is read off `BEHAV` (R35). -/
theorem stores_behav (h : d.toNat ≤ 255) :
    Stores d .behav s { s with fields := { s.fields with behav := d.setWidth 8 } } where
  same := setWidth_setWidth_of_lt (by decide) (by omega)
  others q ne _ behcls := by
    cases q with
    | behav => exact absurd rfl ne
    | behcls => exact absurd rfl (behcls rfl)
    | _ => rfl

theorem stores_companion (h : d.toNat ≤ 15) :
    Stores d .companion s { s with fields := { s.fields with companion := d.setWidth 4 } } where
  same := setWidth_setWidth_of_lt (by decide) (by omega)
  others q ne _ _ := by
    cases q with
    | companion => exact absurd rfl ne
    | _ => rfl

theorem stores_memory (h : d.toNat ≤ 9) :
    Stores d .memory s { s with fields := { s.fields with memory := d.setWidth 4 } } where
  same := setWidth_setWidth_of_lt (by decide) (by omega)
  others q ne _ _ := by
    cases q with
    | memory => exact absurd rfl ne
    | _ => rfl

theorem stores_link (i : Fin 5) (h : d.toNat ≤ 255) :
    Stores d (.link i) s { s with fields := { s.fields with link := s.fields.link.set i (d.setWidth 8) } } where
  same := by simpa [readReg] using setWidth_setWidth_of_lt (n := 8) (by decide) (by omega)
  others q ne _ _ := by
    cases q with
    | link j =>
      have hne : i.val ≠ j.val := fun e => ne (by rw [Fin.ext e])
      simp [readReg, hne]
    | _ => rfl

theorem stores_child (i : Fin 5) (h : d.toNat ≤ 255) :
    Stores d (.child i) s { s with fields := { s.fields with child := s.fields.child.set i (d.setWidth 8) } } where
  same := by simpa [readReg] using setWidth_setWidth_of_lt (n := 8) (by decide) (by omega)
  others q ne _ _ := by
    cases q with
    | child j =>
      have hne : i.val ≠ j.val := fun e => ne (by rw [Fin.ext e])
      simp [readReg, hne]
    | _ => rfl

/-! #### An accepted write -/

/-- A refusal leaves a nonzero `ERR`. -/
theorem raise_err_ne_zero (k : ErrorKind) (s : State) : (s.raise k).status.err ≠ 0 := k.code_ne_zero

theorem writeField_stores {r : Reg} {max : Nat} {F : Fields} (notStatus : r ≠ .status)
    (h : d.toNat ≤ max → Stores d r s { s with fields := F }) (ok : (s.writeField d max F).status.err = 0) :
    Stores d r s (s.writeField d max F) := by
  unfold State.writeField at ok ⊢
  split at ok
  · exact absurd ok (raise_err_ne_zero _ s)
  · next small =>
    rw [if_neg small]
    exact (h (Nat.not_lt.1 small)).succeed notStatus

theorem writeCtrl_stores (ok : (s.writeCtrl d).status.err = 0) : Stores d .ctrl s (s.writeCtrl d) := by
  by_cases legal : d.toNat < 8 ∧ d.toNat / 2 % 4 ≠ 2
  · obtain ⟨small, fmt⟩ := legal
    obtain ⟨c, bits, accepted⟩ := s.writeCtrl_accepted small fmt
    rw [accepted]
    exact (stores_ctrl bits).succeed (by decide)
  · rw [s.writeCtrl_refused (by omega)] at ok
    exact absurd ok (raise_err_ne_zero .illegalOperation s)

theorem writeLen_stores (ok : (s.writeLen d).status.err = 0) : Stores d .len s (s.writeLen d) := by
  by_cases small : d.toNat ≤ 20
  · rw [s.writeLen_of_le small]
    exact (stores_len (n := ⟨d.toNat, Nat.lt_succ_of_le small⟩) rfl).succeed (by decide)
  · rw [s.writeLen_of_lt (Nat.not_le.1 small)] at ok
    exact absurd ok (raise_err_ne_zero .lengthError s)

theorem writeLane_stores (i : Fin 20) (ok : (s.writeLane i d).status.err = 0) :
    Stores d (.buf i) s (s.writeLane i d) := by
  unfold State.writeLane at ok ⊢
  split at ok
  · exact absurd ok (raise_err_ne_zero .invalidSymbol _)
  · next small =>
    rw [if_neg small]
    exact (stores_buf i (Nat.not_lt.1 small)).succeed (by simp)

/-- A register write without error stores its value. -/
theorem writeReg_stores {r : Reg} (ok : (writeReg d s r).status.err = 0) : Stores d r s (writeReg d s r) := by
  cases r with
  | status | res | chk | behcls => exact absurd ok (raise_err_ne_zero _ s)
  | ctrl => exact writeCtrl_stores ok
  | len => exact writeLen_stores ok
  | buf i => exact writeLane_stores i ok
  | dataLo => exact stores_dataLo.succeed (by decide)
  | dataHi => exact stores_dataHi.succeed (by decide)
  | ringsLo => exact stores_ringsLo.succeed (by decide)
  | ringsHi => exact stores_ringsHi.succeed (by decide)
  | keysel => exact writeField_stores (by decide) stores_keysel ok
  | gameId => exact writeField_stores (by decide) stores_gameId ok
  | flags => exact writeField_stores (by decide) stores_flags ok
  | behav => exact writeField_stores (by decide) stores_behav ok
  | companion => exact writeField_stores (by decide) stores_companion ok
  | memory => exact writeField_stores (by decide) stores_memory ok
  | link i => exact writeField_stores (by simp) (stores_link i) ok
  | child i => exact writeField_stores (by simp) (stores_child i) ok

/-- What an accepted write to a register does to the reads of all addresses (R51). -/
theorem Stores.hostRead {r : Reg} {u : State} (h : Stores d r s u) {b : Addr} (ne : b ≠ r.addr) (notStatus : b ≠ 0x01)
    (behcls : b = 0x06 → r.addr ≠ 0x33) : hostRead b u = hostRead b s := by
  cases hb : targetOf b with
  | reg q =>
    obtain rfl := eq_addr_of_targetOf hb
    rw [hostRead_addr, hostRead_addr]
    exact h.others q (fun e => ne (by rw [e])) (fun e => notStatus (by rw [e]; rfl))
      fun e e' => behcls (by rw [e]; rfl) (by rw [e']; rfl)
  | cmd | unmapped => simp [Machine.hostRead, hb]

end

/-- Settles O17: only a register can accept the write, and it stores the value. -/
theorem acceptedWriteReadsBackAndAliasesNothing : Obligations.AcceptedWriteReadsBackAndAliasesNothing := by
  intro s t a d notCmd run ok
  rcases hostWrite_cases a d s with ⟨ha, -⟩ | ⟨r, ha, write⟩ | ⟨-, write⟩
  · exact absurd (eq_zero_of_targetOf ha) notCmd
  · obtain rfl := eq_addr_of_targetOf ha
    obtain rfl := Host.Outcome.next.inj (run.symm.trans write)
    have stores := writeReg_stores ok
    exact ⟨(hostRead_addr r _).trans stores.same, fun b ne notStatus behcls => stores.hostRead ne notStatus behcls⟩
  · obtain rfl := Host.Outcome.next.inj (run.symm.trans write)
    exact absurd ok (raise_err_ne_zero _ s)

end Sys2Proof.Machine
end

section
/-! ### A host read changes no register, and which addresses refuse a write or read 0 (rules R50, R52 and R53 of
`20_memory.md`) -/

namespace Sys2Proof.Machine

/-- Settles O9: of the three things a step can be, only the host read has a read at the head of the list. -/
theorem hostReadChangesNoRegister : Obligations.HostReadChangesNoRegister := by
  intro s a rest pending
  rcases step_cases s with ⟨idle, -⟩ | ⟨b, tail, read, answer⟩ | ⟨b, d, tail, write, -⟩
  · exact absurd (idle.symm.trans pending) (by simp)
  · obtain ⟨⟨rfl⟩, rfl⟩ := List.cons.inj (read.symm.trans pending)
    exact answer
  · exact absurd (write.symm.trans pending) (by simp)

/-- A write to an address without a register is refused (R52). -/
theorem hostWrite_unmapped {a : Addr} (h : Unmapped a) (d : Word) (s : State) :
    hostWrite a d s = .next { s with status := s.errStatus 6 } := by
  rw [hostWrite, targetOf_unmapped a h]
  rfl

/-- A write to a register with no write rule is refused (R53). -/
theorem hostWrite_readOnly {r : Reg} (readOnly : r = .status ∨ r = .res ∨ r = .chk ∨ r = .behcls) (d : Word)
    (s : State) : hostWrite r.addr d s = .next { s with status := s.errStatus 6 } := by
  rw [hostWrite_addr]
  rcases readOnly with rfl | rfl | rfl | rfl <;> rfl

/-- Settles O12: a refused write names no register or a read-only one, and a read that answers 0 names no register or
`CMD`. -/
theorem readOnlyUnmappedAndWriteOnlyAddresses : Obligations.ReadOnlyUnmappedAndWriteOnlyAddresses := by
  intro s a d unmapped
  have noRegister (h : unmapped) : Unmapped a := h.imp_left (congrArg BitVec.toNat)
  constructor
  · rintro (h | rfl | rfl | rfl | rfl)
    · exact hostWrite_unmapped (noRegister h) d s
    · exact hostWrite_readOnly (r := .status) (by simp) d s
    · exact hostWrite_readOnly (r := .res) (by simp) d s
    · exact hostWrite_readOnly (r := .chk) (by simp) d s
    · exact hostWrite_readOnly (r := .behcls) (by simp) d s
  · rintro (h | rfl)
    · exact hostRead_unmapped (noRegister h) s
    · rfl

end Sys2Proof.Machine
end

section
/-! ### The words of commands: what the decoder reads and what it refuses (rules R70 to R75 of `30_encoding.md`) -/

namespace Sys2Proof.Machine

/-! The fields of a word of each format (R71); those of format G stand above. -/

theorem wordZ_opcode (op : BitVec 8) : (wordZ op).extractLsb' 24 8 = op := BitVec.extractLsb'_append_eq_left

theorem wordZ_below_opcode (op : BitVec 8) {lo n : Nat} (h : lo + n ≤ 24) : (wordZ op).extractLsb' lo n = 0 := by
  rw [wordZ, BitVec.extractLsb'_append_eq_of_add_le h]
  exact BitVec.extractLsb'_zero

theorem wordI_opcode (op imm : BitVec 8) : (wordI op imm).extractLsb' 24 8 = op := by
  rw [wordI, BitVec.extractLsb'_append_eq_of_le (by decide)]
  exact BitVec.extractLsb'_append_eq_left

theorem wordI_zeroBits (op imm : BitVec 8) : (wordI op imm).extractLsb' 8 16 = 0 := by
  rw [wordI, BitVec.extractLsb'_append_eq_of_le (by decide)]
  exact BitVec.extractLsb'_append_eq_right

theorem wordI_imm (op imm : BitVec 8) : (wordI op imm).extractLsb' 0 8 = imm := BitVec.extractLsb'_append_eq_right

section
variable (op : BitVec 8) (off len : BitVec 7) (rev : Bool)

theorem wordF_opcode : (wordF op off len rev).extractLsb' 24 8 = op := by
  simp only [wordF]
  rw [BitVec.extractLsb'_append_eq_of_le (by decide), BitVec.extractLsb'_append_eq_of_le (by decide),
    BitVec.extractLsb'_append_eq_of_le (by decide)]
  exact BitVec.extractLsb'_append_eq_left

theorem wordF_zeroBits : (wordF op off len rev).extractLsb' 15 9 = 0 := by
  simp only [wordF]
  rw [BitVec.extractLsb'_append_eq_of_le (by decide), BitVec.extractLsb'_append_eq_of_le (by decide),
    BitVec.extractLsb'_append_eq_of_le (by decide)]
  exact BitVec.extractLsb'_append_eq_right

theorem wordF_off : (wordF op off len rev).extractLsb' 0 7 = off := BitVec.extractLsb'_append_eq_right

theorem wordF_len : (wordF op off len rev).extractLsb' 7 7 = len := by
  rw [wordF, BitVec.extractLsb'_append_eq_of_le (by decide)]
  exact BitVec.extractLsb'_append_eq_right

theorem wordF_rev : (wordF op off len rev).getLsbD 14 = rev := by
  simp only [wordF, BitVec.getLsbD_append]; simp

end

/-! A word with the zero bits of a format is the word of that format with its own fields (R71). `eq_wordZ` above is the
case of format Z. -/

theorem eq_wordI {w : Word} (zero : w.extractLsb' 8 16 = 0) :
    w = wordI (w.extractLsb' 24 8) (w.extractLsb' 0 8) :=
  calc w = w.extractLsb' 24 8 ++ w.extractLsb' 8 16 ++ w.extractLsb' 0 8 := by
        repeat rw [BitVec.extractLsb'_append_extractLsb'_eq_extractLsb' (by decide)]
        exact BitVec.extractLsb'_eq_self.symm
    _ = wordI (w.extractLsb' 24 8) (w.extractLsb' 0 8) := by rw [zero]; rfl

theorem eq_wordG {w : Word} (zero : w.extractLsb' 21 3 = 0) :
    w = wordG (w.extractLsb' 24 8) (w.extractLsb' 0 21) :=
  calc w = w.extractLsb' 24 8 ++ w.extractLsb' 21 3 ++ w.extractLsb' 0 21 := by
        repeat rw [BitVec.extractLsb'_append_extractLsb'_eq_extractLsb' (by decide)]
        exact BitVec.extractLsb'_eq_self.symm
    _ = wordG (w.extractLsb' 24 8) (w.extractLsb' 0 21) := by rw [zero]; rfl

theorem extractLsb'_one (w : Word) (n : Nat) : w.extractLsb' n 1 = BitVec.ofBool (w.getLsbD n) := by
  apply BitVec.eq_of_getLsbD_eq
  intro i hi
  obtain rfl : i = 0 := by omega
  simp

theorem eq_wordF {w : Word} (zero : w.extractLsb' 15 9 = 0) :
    w = wordF (w.extractLsb' 24 8) (w.extractLsb' 0 7) (w.extractLsb' 7 7) (w.getLsbD 14) :=
  calc w = w.extractLsb' 24 8 ++ w.extractLsb' 15 9 ++ w.extractLsb' 14 1 ++ w.extractLsb' 7 7 ++ w.extractLsb' 0 7 := by
        repeat rw [BitVec.extractLsb'_append_extractLsb'_eq_extractLsb' (by decide)]
        exact BitVec.extractLsb'_eq_self.symm
    _ = wordF (w.extractLsb' 24 8) (w.extractLsb' 0 7) (w.extractLsb' 7 7) (w.getLsbD 14) := by
        rw [zero, extractLsb'_one]; rfl

/-! What the decoder answers, by the opcode's row (R72). -/

theorem decode_of_no_row {w : Word} (row : shapeOf (w.extractLsb' 24 8) = none) : decode w = .error .unknownOpcode := by
  simp only [decode, row]

theorem decode_of_zeroBitSet {w : Word} {shape : Shape} (row : shapeOf (w.extractLsb' 24 8) = some shape)
    (set : shape.zeroBitsClear w = false) : decode w = .error .zeroBitSet := by
  simp [decode, row, set]

theorem decode_of_row {w : Word} {shape : Shape} (row : shapeOf (w.extractLsb' 24 8) = some shape)
    (clear : shape.zeroBitsClear w = true) : decode w = .ok (shape.instr w) := by
  simp only [decode, row, clear, if_true]

/-- Only a word with a row and clear zero bits decodes. -/
theorem row_of_decode {w : Word} {i : Instr} (h : decode w = .ok i) :
    ∃ shape, shapeOf (w.extractLsb' 24 8) = some shape ∧ shape.zeroBitsClear w = true ∧ shape.instr w = i := by
  cases row : shapeOf (w.extractLsb' 24 8) with
  | none => cases (decode_of_no_row row).symm.trans h
  | some shape =>
    cases clear : shape.zeroBitsClear w with
    | false => cases (decode_of_zeroBitSet row clear).symm.trans h
    | true => exact ⟨shape, rfl, clear, Except.ok.inj ((decode_of_row row clear).symm.trans h)⟩

/-! ### Decoding after encoding -/

theorem decode_wordZ {op : BitVec 8} {cmd : Instr} (row : shapeOf op = some (.formatZ cmd)) :
    decode (wordZ op) = .ok cmd := by
  rw [← wordZ_opcode op] at row
  exact decode_of_row row (by simp [Shape.zeroBitsClear, wordZ_below_opcode])

theorem decode_wordI {op : BitVec 8} {build : BitVec 8 → Instr} (row : shapeOf op = some (.formatI build))
    (imm : BitVec 8) : decode (wordI op imm) = .ok (build imm) := by
  rw [← wordI_opcode op imm] at row
  rw [decode_of_row row (by simp [Shape.zeroBitsClear, wordI_zeroBits]), Shape.instr, wordI_imm]

theorem decode_wordG {op : BitVec 8} {build : Glyph → Instr} (row : shapeOf op = some (.formatG build)) (g : Glyph) :
    decode (wordG op g) = .ok (build g) := by
  rw [← wordG_opcode op g] at row
  rw [decode_of_row row (by simp [Shape.zeroBitsClear, wordG_zeroBits]), Shape.instr, wordG_glyph]

theorem decode_wordF {op : BitVec 8} {build : BitVec 7 → BitVec 7 → Bool → Instr}
    (row : shapeOf op = some (.formatF build)) (off len : BitVec 7) (rev : Bool) :
    decode (wordF op off len rev) = .ok (build off len rev) := by
  rw [← wordF_opcode op off len rev] at row
  rw [decode_of_row row (by simp [Shape.zeroBitsClear, wordF_zeroBits]), Shape.instr, wordF_off, wordF_len, wordF_rev]

/-- Each command's word has the opcode of the command's own row, which the decoder finds (R74). -/
theorem decode_encode (i : Instr) : decode (encode i) = .ok i := by
  cases i with
  | nop | clr | clrerr | clrbuf | deciph | enciph | cksum | ckvfy | unpack | pack | load | encode =>
    exact decode_wordZ rfl
  | v2c imm | pushb imm | rdsym imm | ckwr imm => exact decode_wordI rfl imm
  | c2v g | pushc g => exact decode_wordG rfl g
  | bfrd off len rev | bfwr off len rev => exact decode_wordF rfl off len rev

/-- Settles O1: the types of the operands are their fields, so well-formedness asks nothing more of a command. -/
theorem encodeThenDecodeReturnsTheCommand : Obligations.EncodeThenDecodeReturnsTheCommand :=
  fun i _ => decode_encode i

/-! ### Encoding after decoding -/

/-- The word of a format with opcode `op` and the operands that stand in `w` (R71, R73). -/
def wordFrom (op : BitVec 8) (w : Word) : Shape → Word
  | .formatZ _ => wordZ op
  | .formatI _ => wordI op (w.extractLsb' 0 8)
  | .formatG _ => wordG op (w.extractLsb' 0 21)
  | .formatF _ => wordF op (w.extractLsb' 0 7) (w.extractLsb' 7 7) (w.getLsbD 14)

/-- The encoder gives the command of a row the opcode of that row (R74). -/
theorem encode_instr_of_row {op : BitVec 8} {shape : Shape} (row : shapeOf op = some shape) (w : Word) :
    encode (shape.instr w) = wordFrom op w shape := by
  unfold shapeOf at row
  split at row
  case h_21 => cases row
  all_goals
    next code =>
    obtain rfl := Option.some.inj row
    obtain rfl := (BitVec.toNat_eq_nat.mp code).2
    rfl

theorem wordFrom_opcode {shape : Shape} {w : Word} (clear : shape.zeroBitsClear w = true) :
    wordFrom (w.extractLsb' 24 8) w shape = w := by
  cases shape with
  | formatZ cmd => exact (eq_wordZ (eq_of_beq clear)).symm
  | formatI build => exact (eq_wordI (eq_of_beq clear)).symm
  | formatG build => exact (eq_wordG (eq_of_beq clear)).symm
  | formatF build => exact (eq_wordF (eq_of_beq clear)).symm

theorem encode_of_decode {w : Word} {i : Instr} (h : decode w = .ok i) : encode i = w := by
  obtain ⟨shape, row, clear, rfl⟩ := row_of_decode h
  rw [encode_instr_of_row row, wordFrom_opcode clear]

/-- Settles O2: the zero bits are the only bits of a word that are neither opcode nor operand. -/
theorem decodedWordIsTheEncodingOfItsCommand : Obligations.DecodedWordIsTheEncodingOfItsCommand :=
  fun _ _ => encode_of_decode

theorem decode_eq_ok_iff {w : Word} {i : Instr} : decode w = .ok i ↔ w = encode i :=
  ⟨fun h => (encode_of_decode h).symm, fun h => h ▸ decode_encode i⟩

/-! ### Rows by match and mask -/

/-- A mask of ones over the opcode and over a field below it selects the words with that opcode and that field zero. -/
theorem fields_of_masked {w mask : Word} {op : BitVec 8} {lo n : Nat} (opcode : mask.extractLsb' 24 8 = BitVec.allOnes 8)
    (ones : mask.extractLsb' lo n = BitVec.allOnes n) (below : lo + n ≤ 24) (h : w &&& mask = wordZ op) :
    w.extractLsb' 24 8 = op ∧ w.extractLsb' lo n = 0 := by
  have unmasked {lo n : Nat} (ones : mask.extractLsb' lo n = BitVec.allOnes n) :
      w.extractLsb' lo n = (wordZ op).extractLsb' lo n := by
    rw [← h, BitVec.extractLsb'_and, ones, BitVec.and_allOnes]
  exact ⟨(unmasked opcode).trans (wordZ_opcode op), (unmasked ones).trans (wordZ_below_opcode op below)⟩

section
variable {op : BitVec 8} {w : Word}

theorem masked_eq_iff_wordZ : w &&& 0xFFFFFFFF = op ++ 0#24 ↔ w = wordZ op := by
  rw [show (0xFFFFFFFF : Word) = BitVec.allOnes 32 from rfl, BitVec.and_allOnes]
  rfl

theorem masked_eq_iff_wordI : w &&& 0xFFFFFF00 = op ++ 0#24 ↔ ∃ imm, w = wordI op imm := by
  constructor
  · intro h
    obtain ⟨rfl, zero⟩ := fields_of_masked (lo := 8) (n := 16) rfl rfl (by decide) h
    exact ⟨_, eq_wordI zero⟩
  · rintro ⟨imm, rfl⟩
    exact Laws.wordI_masked op imm

theorem masked_eq_iff_wordG : w &&& 0xFFE00000 = op ++ 0#24 ↔ ∃ g, w = wordG op g := by
  constructor
  · intro h
    obtain ⟨rfl, zero⟩ := fields_of_masked (lo := 21) (n := 3) rfl rfl (by decide) h
    exact ⟨_, eq_wordG zero⟩
  · rintro ⟨g, rfl⟩
    exact Laws.wordG_masked op g

theorem masked_eq_iff_wordF : w &&& 0xFFFF8000 = op ++ 0#24 ↔ ∃ off len rev, w = wordF op off len rev := by
  constructor
  · intro h
    obtain ⟨rfl, zero⟩ := fields_of_masked (lo := 15) (n := 9) rfl rfl (by decide) h
    exact ⟨_, _, _, eq_wordF zero⟩
  · rintro ⟨off, len, rev, rfl⟩
    exact Laws.wordF_masked op off len rev

end

section
variable (op : BitVec 8) {w : Word}

theorem decode_iff_maskedZ {i : Instr} (word : encode i = wordZ op) :
    decode w = .ok i ↔ w &&& 0xFFFFFFFF = op ++ 0#24 := by
  rw [decode_eq_ok_iff, word, masked_eq_iff_wordZ]

theorem decode_iff_maskedI {build : BitVec 8 → Instr} (word : ∀ imm, encode (build imm) = wordI op imm) :
    (∃ imm, decode w = .ok (build imm)) ↔ w &&& 0xFFFFFF00 = op ++ 0#24 := by
  simp only [decode_eq_ok_iff, word, masked_eq_iff_wordI]

theorem decode_iff_maskedG {build : Glyph → Instr} (word : ∀ g, encode (build g) = wordG op g) :
    (∃ g, decode w = .ok (build g)) ↔ w &&& 0xFFE00000 = op ++ 0#24 := by
  simp only [decode_eq_ok_iff, word, masked_eq_iff_wordG]

theorem decode_iff_maskedF {build : BitVec 7 → BitVec 7 → Bool → Instr}
    (word : ∀ off len rev, encode (build off len rev) = wordF op off len rev) :
    (∃ off len rev, decode w = .ok (build off len rev)) ↔ w &&& 0xFFFF8000 = op ++ 0#24 := by
  simp only [decode_eq_ok_iff, word, masked_eq_iff_wordF]

end

/-- Settles O3: each row's match is its opcode above 24 zero bits, and its mask is that of its format. -/
theorem wordSelectsItsRowByMatchAndMask : Obligations.WordSelectsItsRowByMatchAndMask := fun _ =>
  ⟨decode_iff_maskedZ 0x00 rfl, decode_iff_maskedZ 0x01 rfl, decode_iff_maskedZ 0x02 rfl, decode_iff_maskedZ 0x03 rfl,
    decode_iff_maskedG 0x10 fun _ => rfl, decode_iff_maskedI 0x11 fun _ => rfl, decode_iff_maskedG 0x12 fun _ => rfl,
    decode_iff_maskedI 0x13 fun _ => rfl, decode_iff_maskedI 0x14 fun _ => rfl,
    decode_iff_maskedZ 0x20 rfl, decode_iff_maskedZ 0x21 rfl, decode_iff_maskedZ 0x30 rfl, decode_iff_maskedZ 0x31 rfl,
    decode_iff_maskedI 0x32 fun _ => rfl,
    decode_iff_maskedF 0x40 fun _ _ _ => rfl, decode_iff_maskedF 0x41 fun _ _ _ => rfl,
    decode_iff_maskedZ 0x50 rfl, decode_iff_maskedZ 0x51 rfl, decode_iff_maskedZ 0x52 rfl, decode_iff_maskedZ 0x53 rfl⟩

/-! ### Operands as numbers (R73) -/

theorem toNat_field (w : Word) (lo n : Nat) : (w.extractLsb' lo n).toNat = w.toNat / 2 ^ lo % 2 ^ n := by
  rw [BitVec.extractLsb'_toNat, Nat.shiftRight_eq_div_pow]

theorem toNat_glyph (op : BitVec 8) (g : Glyph) : g.toNat = (wordG op g).toNat % 2 ^ 21 := by
  simpa only [wordG_glyph, pow_zero, Nat.div_one] using toNat_field (wordG op g) 0 21

theorem toNat_imm (op imm : BitVec 8) : imm.toNat = (wordI op imm).toNat % 2 ^ 8 := by
  simpa only [wordI_imm, pow_zero, Nat.div_one] using toNat_field (wordI op imm) 0 8

theorem toNat_bitField (op : BitVec 8) (off len : BitVec 7) (rev : Bool) :
    off.toNat = (wordF op off len rev).toNat % 2 ^ 7 ∧ len.toNat = (wordF op off len rev).toNat / 2 ^ 7 % 2 ^ 7 ∧
    rev.toNat = (wordF op off len rev).toNat / 2 ^ 14 % 2 := by
  refine ⟨?off, ?len, ?rev⟩
  case off => simpa only [wordF_off, pow_zero, Nat.div_one] using toNat_field (wordF op off len rev) 0 7
  case len => simpa only [wordF_len] using toNat_field (wordF op off len rev) 7 7
  case rev => rw [← Nat.toNat_testBit, BitVec.testBit_toNat, wordF_rev]

/-- Settles O4: a word that decodes is the encoding of its command, whose word has the operands in their fields. -/
theorem operandsAreTheirBitFields : Obligations.OperandsAreTheirBitFields := by
  refine fun w => ⟨fun g h => ?_, fun m h => ?_, fun off len rev h => ?_⟩
  · rcases h with h | h <;> (obtain rfl := encode_of_decode h; exact toNat_glyph _ g)
  · rcases h with h | h | h | h <;> (obtain rfl := encode_of_decode h; exact toNat_imm _ m)
  · rcases h with h | h <;> (obtain rfl := encode_of_decode h; exact toNat_bitField _ off len rev)

/-! ### Illegal words (R75) -/

/-- The six reserved ranges of opcodes (R75). -/
def ReservedOpcode (op : Nat) : Prop :=
  (0x04 ≤ op ∧ op ≤ 0x0F) ∨ (0x15 ≤ op ∧ op ≤ 0x1F) ∨ (0x22 ≤ op ∧ op ≤ 0x2F) ∨ (0x33 ≤ op ∧ op ≤ 0x3F) ∨
  (0x42 ≤ op ∧ op ≤ 0x4F) ∨ (0x54 ≤ op ∧ op ≤ 0xFF)

section
variable {op : BitVec 8}

theorem shapeOf_reserved (h : ReservedOpcode op.toNat) : shapeOf op = none := by
  unfold ReservedOpcode at h
  unfold shapeOf
  split
  case h_21 => rfl
  all_goals omega

theorem shapeOf_formatZ
    (h : op.toNat ∈ [0x00, 0x01, 0x02, 0x03, 0x20, 0x21, 0x30, 0x31, 0x50, 0x51, 0x52, 0x53]) :
    ∃ cmd, shapeOf op = some (.formatZ cmd) := by
  simp only [List.mem_cons, List.not_mem_nil, or_false] at h
  rcases h with h | h | h | h | h | h | h | h | h | h | h | h <;> simp [shapeOf, h]

theorem shapeOf_formatI (h : op.toNat ∈ [0x11, 0x13, 0x14, 0x32]) : ∃ build, shapeOf op = some (.formatI build) := by
  simp only [List.mem_cons, List.not_mem_nil, or_false] at h
  rcases h with h | h | h | h <;> simp [shapeOf, h]

theorem shapeOf_formatG (h : op.toNat ∈ [0x10, 0x12]) : ∃ build, shapeOf op = some (.formatG build) := by
  simp only [List.mem_cons, List.not_mem_nil, or_false] at h
  rcases h with h | h <;> simp [shapeOf, h]

theorem shapeOf_formatF (h : op.toNat ∈ [0x40, 0x41]) : ∃ build, shapeOf op = some (.formatF build) := by
  simp only [List.mem_cons, List.not_mem_nil, or_false] at h
  rcases h with h | h <;> simp [shapeOf, h]

end

theorem toNat_opcode (w : Word) : (w.extractLsb' 24 8).toNat = w.toNat / 2 ^ 24 := by
  rw [toNat_field]
  omega

theorem zeroField_set {w : Word} {lo n : Nat} (h : w.toNat / 2 ^ lo % 2 ^ n ≠ 0) : (w.extractLsb' lo n == 0) = false := by
  refine beq_false_of_ne fun zero => h ?_
  rw [← toNat_field, zero, BitVec.ofNat_eq_ofNat, BitVec.toNat_zero]

/-- A word that does not decode changes only `STATUS` (R72, R75). -/
theorem hostWrite_cmd_illegal {w : Word} {e : BadWord} (h : decode w = .error e) (s : State) :
    hostWrite 0x00 w s = .next { s with status := s.errStatus 6 } := by
  rw [hostWrite_cmd, runCommand_error h]
  rfl

/-- Settles O5: a reserved opcode has no row, and the row of a listed opcode asks for the zero bits of its format. -/
theorem illegalWordsRaiseIllegalOperation : Obligations.IllegalWordsRaiseIllegalOperation := by
  intro w s illegal
  suffices undecodable : ∃ e, decode w = .error e by
    obtain ⟨e, undecodable⟩ := undecodable
    exact hostWrite_cmd_illegal undecodable s
  simp only [← toNat_opcode] at illegal
  by_cases reserved : ReservedOpcode (w.extractLsb' 24 8).toNat
  · exact ⟨_, decode_of_no_row (shapeOf_reserved reserved)⟩
  · simp only [ReservedOpcode, not_or] at reserved
    simp only [reserved, false_or] at illegal
    rcases illegal with ⟨op, set⟩ | ⟨op, set⟩ | ⟨op, set⟩ | ⟨op, set⟩
    · obtain ⟨cmd, row⟩ := shapeOf_formatZ op
      exact ⟨_, decode_of_zeroBitSet row (zeroField_set (by simpa using set))⟩
    · obtain ⟨build, row⟩ := shapeOf_formatI op
      exact ⟨_, decode_of_zeroBitSet row (zeroField_set set)⟩
    · obtain ⟨build, row⟩ := shapeOf_formatG op
      exact ⟨_, decode_of_zeroBitSet row (zeroField_set set)⟩
    · obtain ⟨build, row⟩ := shapeOf_formatF op
      exact ⟨_, decode_of_zeroBitSet row (zeroField_set set)⟩

/-- Settles O6: eight of the words are encodings, one has a reserved opcode and one a zero bit that is set. -/
theorem sampleWordsDecode : Obligations.SampleWordsDecode :=
  ⟨decode_encode .nop, decode_encode .clrerr, decode_encode (.pushc 0x37), decode_encode .deciph,
    decode_encode (.ckwr 2), decode_encode (.bfrd 5 15 true), decode_encode (.bfwr 3 2 false), decode_encode .encode,
    decode_of_no_row rfl, decode_of_zeroBitSet (shape := .formatG .c2v) rfl rfl⟩

end Sys2Proof.Machine
end

section
/-! ### The control commands (rules R90 to R93 of `40_control.md`) -/

namespace Sys2Proof.Machine

theorem exec_nop (s : State) : exec .nop s = .next s.succeed := rfl

theorem exec_clr (s : State) : exec .clr s = .next s.clearRegisters := rfl

theorem exec_clrerr (s : State) : exec .clrerr s = .next s.clearErrors := rfl

theorem exec_clrbuf (s : State) : exec .clrbuf s = .next s.clearBuffer.succeed := rfl

theorem clearBuffer_lane (s : State) (i : Fin 20) : s.clearBuffer.buf[i] = 0 := by
  rw [State.clearBuffer_buf]
  exact Vector.getElem_replicate i.isLt

/-- Settles O26: `NOP` is the success end alone, `CLRERR` the cleared record, and `CLRBUF` the empty buffer and then the
success end. -/
theorem nopClrerrAndClrbufWriteOnlyTheirRegisters : Obligations.NopClrerrAndClrbufWriteOnlyTheirRegisters :=
  ⟨decode_encode .nop, decode_encode .clrerr, decode_encode .clrbuf, fun s =>
    ⟨exec_nop s, exec_clrerr s, s.clearBuffer.succeed, exec_clrbuf s, rfl, clearBuffer_lane s⟩⟩

/-- Settles O27: `CLR` is the reset of every register, which leaves the host's side of the port (log entry 5). -/
theorem clrGivesTheResetState : Obligations.ClrGivesTheResetState :=
  ⟨decode_encode .clr, exec_clr⟩

end Sys2Proof.Machine
end

section
/-! ### The commands of the Symbol Table (rules R103 to R109 and R112 of `41_symbol_table.md`) -/

namespace Sys2Proof.Machine

/-! #### Words with an operand, as the opcode's word with the operand in its low bits (R71) -/

/-- Zero bits below `x` leave room for `y`. -/
theorem append_zero_or_setWidth {m n : Nat} (x : BitVec m) (y : BitVec n) :
    (x ++ 0#n) ||| y.setWidth (m + n) = x ++ y := by
  apply BitVec.eq_of_getLsbD_eq
  intro i hi
  rw [BitVec.getLsbD_or, BitVec.getLsbD_append, BitVec.getLsbD_append, BitVec.getLsbD_setWidth]
  by_cases below : i < n
  · simp [below, hi]
  · simp [below, BitVec.getLsbD_of_ge y i (Nat.not_lt.1 below)]

theorem wordZ_or_eq_wordI (op imm : BitVec 8) : wordZ op ||| imm.setWidth 32 = wordI op imm := by
  have room : wordZ op = op ++ 0#16 ++ 0#8 := by
    rw [BitVec.append_assoc, BitVec.zero_append_zero]
    rfl
  rw [room]
  exact append_zero_or_setWidth (op ++ 0#16) imm

theorem wordZ_or_eq_wordG (op : BitVec 8) (g : Glyph) : wordZ op ||| g.setWidth 32 = wordG op g := by
  have room : wordZ op = op ++ 0#3 ++ 0#21 := by
    rw [BitVec.append_assoc, BitVec.zero_append_zero]
    rfl
  rw [room]
  exact append_zero_or_setWidth (op ++ 0#3) g

theorem decode_wordZ_or_imm {op : BitVec 8} {build : BitVec 8 → Instr} (row : shapeOf op = some (.formatI build))
    (imm : BitVec 8) : decode (wordZ op ||| imm.setWidth 32) = .ok (build imm) := by
  rw [wordZ_or_eq_wordI, decode_wordI row]

theorem decode_wordZ_or_glyph {op : BitVec 8} {build : Glyph → Instr} (row : shapeOf op = some (.formatG build))
    (g : Glyph) : decode (wordZ op ||| g.setWidth 32) = .ok (build g) := by
  rw [wordZ_or_eq_wordG, decode_wordG row]

/-! #### The two ports: `C2V` and `V2C` -/

/-- `C2V` of a glyph of the selected alphabet (R106). -/
theorem c2vUnder_alpha {c : Config} (hc : c.legal = true) (v : SymbolValue) (s : State) :
    c2vUnder c (c.alpha s.ctrl.region v) s = { s with res := v.setWidth 32, status := s.okStatus } := by
  rw [c2vUnder, (c2v_eq_some_iff hc s.ctrl.region _ v).2 rfl]
  rfl

/-- `C2V` of a foreign glyph (R106, R107). -/
theorem c2vUnder_foreign {c : Config} {g : Glyph} {s : State} (foreign : ∀ v, c.alpha s.ctrl.region v ≠ g) :
    c2vUnder c g s = { s with status := { s.errStatus 2 with rhint := regionHint c s.ctrl.region g } } := by
  rw [c2vUnder, (c2v_eq_none_iff c s.ctrl.region g).2 foreign]
  rfl

/-- `V2C` of the value of a symbol (R109). -/
theorem v2cUnder_of_le (c : Config) {v : BitVec 8} (h : v.toNat ≤ 63) (s : State) :
    v2cUnder c v s =
      { s with res := (c.alpha s.ctrl.region (v.setWidth 6)).setWidth 32, status := s.okStatus } :=
  if_neg (Nat.not_lt.2 h)

/-- `V2C` of a byte that is the value of no symbol (R109). -/
theorem v2cUnder_of_lt (c : Config) {v : BitVec 8} (h : 63 < v.toNat) (s : State) :
    v2cUnder c v s = { s with status := { s.errStatus 2 with rhint := false } } :=
  if_pos h

/-- Settles O28: the symbol port finds the glyph, or the hint is what the other region's port finds. -/
theorem c2vLooksAGlyphUpOrRefusesIt : Obligations.C2vLooksAGlyphUpOrRefusesIt := by
  intro s g
  refine ⟨decode_wordZ_or_glyph (op := 0x10) rfl g, ?found, fun foreign => ?foreign⟩
  case found =>
    rintro v rfl
    exact congrArg Host.Outcome.next (c2vUnder_alpha Config.chip_legal v s)
  case foreign =>
    exact ⟨_, congrArg Host.Outcome.next (c2vUnder_foreign foreign), regionHint_eq_true_iff Config.chip_legal _ g⟩

/-- Settles O29: the value port is total on the values of symbols, and `V2C` refuses every other byte. -/
theorem v2cReadsTheAlphabet : Obligations.V2cReadsTheAlphabet := fun s v =>
  ⟨decode_wordZ_or_imm (op := 0x11) rfl v, fun h => congrArg Host.Outcome.next (v2cUnder_of_le Config.chip h s),
    fun h => congrArg Host.Outcome.next (v2cUnder_of_lt Config.chip h s)⟩

/-- `C2V` of the glyph that `V2C` leaves in `RES` (R112). -/
theorem c2vUnder_res_alpha {c : Config} (hc : c.legal = true) {v : SymbolValue} {t : State}
    (res : t.res = (c.alpha t.ctrl.region v).setWidth 32) :
    c2vUnder c (t.res.setWidth 21) t = { t with res := v.setWidth 32, status := t.okStatus } := by
  rw [res, BitVec.setWidth_setWidth_of_le _ (by decide), BitVec.setWidth_eq, c2vUnder_alpha hc]

/-- Settles O30: `V2C` keeps the region, so `C2V` finds the value of the glyph that it left in `RES`. -/
theorem v2cThenC2vGivesTheValueBack : Obligations.V2cThenC2vGivesTheValueBack := by
  intro s v h
  have sixBits : ((v.setWidth 6).setWidth 32).toNat = v.toNat := by bv_omega
  exact ⟨_, _, congrArg Host.Outcome.next (v2cUnder_of_le Config.chip h s),
    congrArg Host.Outcome.next (c2vUnder_res_alpha Config.chip_legal (v := v.setWidth 6) rfl), rfl, sixBits⟩

/-! #### Appending a lane: `PUSHC` and `PUSHB` -/

/-- `t` is `s` with `b` appended to the buffer, and no other register but `ERR` changed. -/
def Appends (b : Byte) (s t : State) : Prop :=
  t = { s with buf := t.buf, len := t.len, status := s.okStatus } ∧ t.len.val = s.len.val + 1 ∧
  ∀ i : Fin 20, t.buf[i] = if i.val = s.len.val then b else s.buf[i]

theorem appends_pushLane (b : Byte) {s : State} (room : s.len.val < 20) : Appends b s (s.pushLane b).succeed := by
  refine ⟨rfl, State.val_pushLane_len b room, fun i => ?_⟩
  simp only [State.succeed_buf, State.pushLane_buf, Fin.getElem_fin, Vector.getElem_setIfInBounds, eq_comm]

/-- A full buffer has `LEN = 20` as a number. -/
theorem State.len_eq_twenty_iff (s : State) : s.len = 20 ↔ s.len.val = 20 := Fin.ext_iff

/-- `PUSHC` of a foreign glyph that is no whitespace, whether or not there is room (R103, R107). -/
theorem pushcUnder_foreign {c : Config} {g : Glyph} {s : State} (notWs : g ∉ c.ws)
    (foreign : ∀ v, c.alpha s.ctrl.region v ≠ g) :
    pushcUnder c g s = { s with status := { s.errStatus 2 with rhint := regionHint c s.ctrl.region g } } := by
  rw [pushcUnder, if_neg (by simpa using notWs), (c2v_eq_none_iff c s.ctrl.region g).2 foreign]
  rfl

/-- `PUSHC` of a glyph of the selected alphabet into a full buffer (R103). -/
theorem pushcUnder_alpha_full {c : Config} (hc : c.legal = true) (v : SymbolValue) {s : State} (full : s.len.val = 20) :
    pushcUnder c (c.alpha s.ctrl.region v) s = { s with status := s.errStatus 1 } := by
  have notWs := Config.alpha_not_ws hc s.ctrl.region v
  rw [pushcUnder, if_neg (by simpa using notWs), (c2v_eq_some_iff hc s.ctrl.region _ v).2 rfl]
  exact if_pos (s.len_eq_twenty_iff.2 full)

/-- Settles O31: the four outcomes, in the order of the checks. -/
theorem pushcAppendsOrRefusesInOrder : Obligations.PushcAppendsOrRefusesInOrder := by
  intro s g
  have appends : ∀ v, Config.chip.alpha s.ctrl.region v = g → s.len.val < 20 →
      Appends (v.setWidth 8) s (pushcUnder Config.chip g s) := by
    rintro v rfl room
    rw [pushcUnder_alpha Config.chip_legal v room]
    exact appends_pushLane _ room
  refine ⟨decode_wordZ_or_glyph (op := 0x12) rfl g, regionHint Config.chip s.ctrl.region g, pushcUnder Config.chip g s,
    rfl, regionHint_eq_true_iff Config.chip_legal _ g, ?outcome, fun v hv room => (appends v hv room).2⟩
  by_cases ws : g ∈ Config.chip.ws
  · rw [if_pos ws, pushcUnder_of_mem_ws ws]
    rfl
  rw [if_neg ws]
  by_cases foreign : ∀ v, Config.chip.alpha s.ctrl.region v ≠ g
  · rw [if_pos foreign, pushcUnder_foreign ws foreign]
  rw [if_neg foreign]
  obtain ⟨v, hv⟩ := not_forall_not.1 foreign
  by_cases full : s.len.val = 20
  · rw [if_pos full, ← hv, pushcUnder_alpha_full Config.chip_legal v full]
  · rw [if_neg full]
    exact (appends v hv (by omega)).1

/-- Settles O32: the value is checked before the capacity. -/
theorem pushbAppendsAByteOrRefuses : Obligations.PushbAppendsAByteOrRefuses := by
  intro s b
  refine ⟨decode_wordZ_or_imm (op := 0x13) rfl b, fun large => ?large, fun small full => ?full, fun small room => ?room⟩
  case large => exact congrArg Host.Outcome.next (if_pos large)
  case full =>
    exact congrArg Host.Outcome.next ((if_neg (Nat.not_lt.2 small)).trans (if_pos (s.len_eq_twenty_iff.2 full)))
  case room =>
    have notFull : s.len ≠ 20 := fun full => room.ne (s.len_eq_twenty_iff.1 full)
    exact ⟨(s.pushLane b).succeed,
      congrArg Host.Outcome.next ((if_neg (Nat.not_lt.2 small)).trans (if_neg notFull)), appends_pushLane b room⟩

/-! #### Reading a lane: `RDSYM` -/

/-- The image of a lane as a number (R105). -/
theorem toNat_symbolImage (c : Config) (i : Nat) (s : State) :
    (symbolImage c i s).toNat =
      (c.alpha s.ctrl.region ((s.lane i).setWidth 6)).toNat + if (i + 1) % 5 = 0 then 2 ^ 31 else 0 := by
  simp only [symbolImage, toNat_append_eq_add, BitVec.toNat_ofBool, BitVec.toNat_zero]
  by_cases separator : (i + 1) % 5 = 0
  · simp [separator, v2c, Nat.add_comm]
  · simp [separator, v2c]

/-- Settles O33: below `LEN` the lane's image goes into `RES`. -/
theorem rdsymReadsALaneAsAGlyph : Obligations.RdsymReadsALaneAsAGlyph := by
  intro s i
  refine ⟨decode_wordZ_or_imm (op := 0x14) rfl i, fun h => congrArg Host.Outcome.next (if_pos h), fun h => ?_⟩
  refine ⟨symbolImage Config.chip i.toNat s, congrArg Host.Outcome.next (if_neg (Nat.not_le.2 h)), ?_⟩
  rw [toNat_symbolImage, s.lane_eq]

end Sys2Proof.Machine
end

section
/-! ### `secretToBytes` (rule R110 of `41_symbol_table.md`) -/

namespace Sys2Proof.Machine

/-- The state that `secretToBytes` pushes into: the region selected and the buffer empty. -/
def State.opened (ctrl : Ctrl) (s : State) : State := { s with ctrl := ctrl }.clearBuffer.succeed

/-- A write of a value of `CTRL` stores it, whatever the configuration (R23). -/
theorem hostWriteUnder_ctrl (c : Config) (ctrl : Ctrl) (s : State) :
    hostWriteUnder c 0x02 (ctrl.bits.setWidth 32) s = .next { s with ctrl := ctrl }.succeed := by
  obtain ⟨region, fmt⟩ := ctrl
  cases region <;> cases fmt <;> rfl

theorem hostWriteUnder_clrbuf (c : Config) (s : State) :
    hostWriteUnder c cmdAddr (encode .clrbuf) s = .next s.clearBuffer.succeed := rfl

theorem secretToBytes_eq (c : Config) (ctrl : Ctrl) (text : List Glyph) (s : State) :
    secretToBytes c ctrl text s = hostWrites c (pushstr text) (s.opened ctrl) := by
  rw [secretToBytes, hostWrites_cons_ok _ (hostWriteUnder_ctrl c ctrl s) rfl]
  exact hostWrites_cons_ok _ (hostWriteUnder_clrbuf c _) rfl

/-- `t` is `s` with the configuration `ctrl` and with exactly `vals` in the buffer; only `STATUS` may differ otherwise. -/
def HoldsValues (ctrl : Ctrl) (vals : List SymbolValue) (s t : State) : Prop :=
  t = { s with ctrl := ctrl, len := t.len, buf := t.buf, status := t.status } ∧ t.len.val = vals.length ∧
  ∀ i : Fin 20, t.buf[i] = ((vals.map (·.setWidth 8))[i.val]?).getD 0

/-- The pushes leave the values in the buffer, whatever `STATUS` says. -/
theorem holdsValues_pushValues (ctrl : Ctrl) {vals : List SymbolValue} (h : vals.length ≤ 20) (s : State) (st : Status) :
    HoldsValues ctrl vals s { (s.opened ctrl).pushValues vals with status := st } := by
  have empty : (s.opened ctrl).len.val = 0 := rfl
  have room : (s.opened ctrl).len.val + vals.length ≤ 20 := by omega
  refine ⟨?frame, ?len, fun i => ?lane⟩
  case frame =>
    rw [State.pushValues_frame]
    rfl
  case len => exact (State.val_pushValues_len vals _ room).trans (by omega)
  case lane =>
    have zero : (s.opened ctrl).buf[i.val] = 0 := clearBuffer_lane { s with ctrl := ctrl } i
    rw [Fin.getElem_fin, State.getElem_pushValues_buf vals _ room, empty, if_neg (Nat.not_lt_zero _), Nat.sub_zero, zero]

section
variable {c : Config} {ctrl : Ctrl} {text : List Glyph} {vals : List SymbolValue}

/-- After a text that spells `vals`, the host goes on in the state with these values pushed. -/
theorem secretToBytes_append (hc : c.legal = true)
    (spells : text.filter (fun g => !c.ws.contains g) = vals.map (c.alpha ctrl.region)) (h : vals.length ≤ 20)
    (rest : List Glyph) (s : State) :
    secretToBytes c ctrl (text ++ rest) s = hostWrites c (pushstr rest) ((s.opened ctrl).pushValues vals) := by
  have room : (s.opened ctrl).len.val + vals.length ≤ 20 := (Nat.zero_add _).trans_le h
  rw [secretToBytes_eq, pushstr, List.map_append]
  exact hostWrites_pushstr hc (pushstr rest) text vals (s.opened ctrl) rfl spells room

/-- At a glyph whose push fails the host stops with the values that stand before it. -/
theorem secretToBytes_stops (hc : c.legal = true)
    (spells : text.filter (fun g => !c.ws.contains g) = vals.map (c.alpha ctrl.region)) (h : vals.length ≤ 20)
    {g : Glyph} {s : State} {st : Status}
    (push : pushcUnder c g ((s.opened ctrl).pushValues vals) = { (s.opened ctrl).pushValues vals with status := st })
    (bad : st.err ≠ 0) (rest : List Glyph) :
    secretToBytes c ctrl (text ++ g :: rest) s = .next { (s.opened ctrl).pushValues vals with status := st } := by
  rw [secretToBytes_append hc spells h, pushstr_cons]
  exact hostWrites_cons_stop _ ((hostWriteUnder_pushc c g _).trans (congrArg _ push)) bad

end

/-- Settles O34: the text that spells the values is pushed whole, and the glyph after it is refused because the alphabet lacks
it or because the buffer is full. -/
theorem secretToBytesMapsATextAndStopsAtTheFirstError : Obligations.SecretToBytesMapsATextAndStopsAtTheFirstError := by
  intro c ctrl text rest vals s hc spells h reached
  have holds : ∀ st, reached { (s.opened ctrl).pushValues vals with status := st } :=
    holdsValues_pushValues ctrl h s
  have frame := (s.opened ctrl).pushValues_frame vals
  have region : ((s.opened ctrl).pushValues vals).ctrl.region = ctrl.region := by rw [frame]; rfl
  refine ⟨?whole, fun g notWs foreign => ?foreign, fun full v => ?full⟩
  case whole =>
    have run := secretToBytes_append hc spells h [] s
    rw [List.append_nil] at run
    exact ⟨_, run, by rw [frame]; rfl, holds _⟩
  case foreign =>
    have push := pushcUnder_foreign (s := (s.opened ctrl).pushValues vals) notWs (by rwa [region])
    exact ⟨_, secretToBytes_stops hc spells h push (ErrorKind.code_ne_zero .invalidSymbol) rest, rfl, holds _⟩
  case full =>
    obtain ⟨-, len, -⟩ := holds (s.opened ctrl).status
    have push := pushcUnder_alpha_full hc v (s := (s.opened ctrl).pushValues vals) (len.trans full)
    rw [← region]
    exact ⟨_, secretToBytes_stops hc spells h push (ErrorKind.code_ne_zero .lengthError) rest, rfl, holds _⟩

end Sys2Proof.Machine
end

section
/-! ### The cipher commands (rules R121 to R125 of `42_region_cipher.md`) -/

namespace Sys2Proof.Machine

/-! #### Bytes written back over the lanes -/

theorem getElem_overlay_of_lt {T : List Byte} {i : Nat} (h : i < T.length) (buf : Vector Byte 20) (lane : i < 20) :
    (overlay buf T)[i] = T[i] := by
  rw [getElem_overlay, List.getD_eq_getElem]

theorem getElem_overlay_of_le {T : List Byte} {i : Nat} (h : T.length ≤ i) (buf : Vector Byte 20) (lane : i < 20) :
    (overlay buf T)[i] = buf[i] := by
  rw [getElem_overlay, List.getD_eq_default _ _ h]

/-- A second array that covers the first leaves nothing of it. -/
theorem overlay_overlay {T U : List Byte} (h : T.length ≤ U.length) (buf : Vector Byte 20) :
    overlay (overlay buf T) U = overlay buf U := by
  ext i lane : 1
  by_cases covered : i < U.length
  · rw [getElem_overlay_of_lt covered, getElem_overlay_of_lt covered]
  · rw [getElem_overlay_of_le (by omega), getElem_overlay_of_le (by omega), getElem_overlay_of_le (by omega)]

/-- Writing the valid lanes back over themselves changes nothing. -/
theorem overlay_bytes (s : State) : overlay s.buf s.bytes = s.buf := by
  ext i lane : 1
  by_cases valid : i < s.bytes.length
  · rw [getElem_overlay_of_lt valid, State.getElem_bytes]
  · exact getElem_overlay_of_le (Nat.not_lt.1 valid) s.buf lane

/-! #### The two commands are one function (R123, R124) -/

theorem exec_cipher {i : Instr} (h : i = .deciph ∨ i = .enciph) (s : State) :
    exec i s = .next (cipherBuffer Config.chip s) := by
  rcases h with rfl | rfl <;> rfl

theorem cipherBuffer_of_len_eq_zero (c : Config) {s : State} (h : s.len = 0) :
    cipherBuffer c s = { s with status := s.errStatus 1 } := if_pos h

theorem cipherBuffer_of_len_pos (c : Config) {s : State} (h : 0 < s.len.val) :
    cipherBuffer c s = (s.storeBytes (cipher c s.ctrl.region s.bytes)).succeed :=
  if_neg fun empty => by simp [empty] at h

/-! #### The lanes that a cipher command leaves (R122) -/

/-- The key of a buffer with a valid lane (R121). -/
theorem toNat_cipherKey_bytes {s : State} (h : 0 < s.len.val) : (cipherKey s.bytes).toNat = s.buf[0].toNat / 8 := by
  have first : s.bytes.headD 0 = s.buf[0] := by
    rw [List.headD_eq_head?_getD, List.head?_eq_getElem?, List.getElem?_eq_getElem (by simpa using h), Option.getD_some,
      State.getElem_bytes]
  rw [cipherKey, first, BitVec.toNat_ushiftRight, Nat.shiftRight_eq_div_pow]

/-- Low bits from `x` and key bits from `b`: the two parts do not overlap. -/
theorem toNat_low_or_keyBits (x b : Byte) :
    ((x &&& 7#8) ||| ((b >>> 3) <<< 3)).toNat = 8 * (b.toNat / 8) + x.toNat % 8 := by
  have low : (x &&& 7#8).toNat = x.toNat % 8 := Nat.and_two_pow_sub_one_eq_mod x.toNat 3
  have key : ((b >>> 3) <<< 3).toNat = (b.toNat / 8) <<< 3 := by
    simp only [BitVec.toNat_shiftLeft, BitVec.toNat_ushiftRight, Nat.shiftLeft_eq, Nat.shiftRight_eq_div_pow]
    omega
  rw [BitVec.toNat_or, low, key, Nat.or_comm, ← Nat.shiftLeft_add_eq_or_of_lt (Nat.mod_lt _ (by decide)),
    Nat.shiftLeft_eq, Nat.mul_comm]

section
variable (c : Config) {s : State}

/-- A valid lane above 0 is xored with its entry of the window. -/
theorem cipherBuffer_lane {i : Nat} (lane : i < 20) (above : 0 < i) (valid : i < s.len.val) :
    (cipherBuffer c s).buf[i] = s.buf[i] ^^^ keyByte c s.ctrl.region (4 * (s.buf[0].toNat / 8) + i) := by
  obtain ⟨n, rfl⟩ := Nat.exists_eq_add_one.2 above
  have nonempty : 0 < s.len.val := by omega
  simp only [cipherBuffer_of_len_pos c nonempty, State.succeed_buf, State.storeBytes_buf]
  rw [getElem_overlay_of_lt (by simpa using valid), getElem_cipher_succ _ _ _ _ (by simpa using valid),
    State.getElem_bytes, toNat_cipherKey_bytes nonempty]

/-- Lane 0 keeps the key bits and takes the low three bits of the exclusive or. -/
theorem toNat_cipherBuffer_lane_zero (nonempty : 0 < s.len.val) :
    ((cipherBuffer c s).buf[0]).toNat = 8 * (s.buf[0].toNat / 8) +
      (s.buf[0] ^^^ keyByte c s.ctrl.region (4 * (s.buf[0].toNat / 8))).toNat % 8 := by
  simp only [cipherBuffer_of_len_pos c nonempty, State.succeed_buf, State.storeBytes_buf]
  rw [getElem_overlay_of_lt (by simpa using nonempty), getElem_cipher_zero _ _ _ (by simpa using nonempty),
    toNat_low_or_keyBits, State.getElem_bytes, BitVec.toNat_ushiftRight, Nat.shiftRight_eq_div_pow]

/-- Lanes at `LEN` and above stay. -/
theorem cipherBuffer_lane_of_le (nonempty : 0 < s.len.val) {i : Nat} (lane : i < 20) (h : s.len.val ≤ i) :
    (cipherBuffer c s).buf[i] = s.buf[i] := by
  simp only [cipherBuffer_of_len_pos c nonempty, State.succeed_buf, State.storeBytes_buf]
  exact getElem_overlay_of_le (by simpa using h) s.buf lane

/-- The cipher undoes itself on the lanes too (R125). -/
theorem cipherBuffer_cipherBuffer (nonempty : 0 < s.len.val) :
    cipherBuffer c (cipherBuffer c s) = { s with status := s.okStatus } := by
  rw [cipherBuffer_of_len_pos c nonempty]
  generalize first : cipher c s.ctrl.region s.bytes = T
  have length : T.length = s.bytes.length := by rw [← first, length_cipher]
  have seen : (s.storeBytes T).succeed.bytes = T := s.bytes_storeBytes T (length.trans s.length_bytes)
  have back : cipher c s.ctrl.region T = s.bytes := by rw [← first, cipher_cipher]
  have restored : overlay (overlay s.buf T) s.bytes = s.buf := by rw [overlay_overlay length.le, overlay_bytes]
  calc cipherBuffer c (s.storeBytes T).succeed
      = ((s.storeBytes T).succeed.storeBytes (cipher c s.ctrl.region (s.storeBytes T).succeed.bytes)).succeed :=
        cipherBuffer_of_len_pos c nonempty
    _ = { s with buf := overlay (overlay s.buf T) s.bytes, status := s.okStatus } := by rw [seen, back]; rfl
    _ = { s with status := s.okStatus } := by rw [restored]

end

/-- Settles O36. Both commands are `cipherBuffer`, whose lanes the lemmas above give; that the state is legal is not used,
because each index the statement names is already one of the 48 (R120). -/
theorem cipherCommandsXorTheKeyWindow : Obligations.CipherCommandsXorTheKeyWindow := by
  refine ⟨decode_encode .deciph, decode_encode .enciph, fun s => ⟨fun empty => ?empty, fun _ nonempty => ?lanes⟩⟩
  case empty =>
    rw [exec_cipher (.inl rfl), exec_cipher (.inr rfl), cipherBuffer_of_len_eq_zero _ empty]
    exact ⟨rfl, rfl⟩
  case lanes =>
    refine ⟨cipherBuffer Config.chip s, exec_cipher (.inl rfl) s, exec_cipher (.inr rfl) s, ?frame,
      fun i k entry above valid => ?above, fun k entry => ?zero,
      fun i => cipherBuffer_lane_of_le Config.chip nonempty i.isLt⟩
    case frame =>
      rw [cipherBuffer_of_len_pos Config.chip nonempty]
      rfl
    case above =>
      rw [← keyByte_of_lt Config.chip _ k.val k.isLt, entry]
      exact cipherBuffer_lane Config.chip i.isLt above valid
    case zero =>
      rw [← keyByte_of_lt Config.chip _ k.val k.isLt, entry]
      exact toNat_cipherBuffer_lane_zero Config.chip nonempty

/-- Settles O37: both commands are the cipher, which undoes itself. -/
theorem cipherIsAnInvolution : Obligations.CipherIsAnInvolution := by
  intro s i j hi hj nonempty
  refine ⟨_, exec_cipher hi s, ?_⟩
  rw [exec_cipher hj, cipherBuffer_cipherBuffer Config.chip nonempty]

end Sys2Proof.Machine
end

section
/-! ### The checksum commands (rules R135 to R139 of `43_checksum.md`) -/

namespace Sys2Proof.Machine

/-! #### Sums over the lanes (R135, R136) -/

/-- A sum over the first `n` lanes, as a sum over all twenty with a guard. -/
theorem sum_map_take_lanes (g : Byte → Nat) (buf : Vector Byte 20) (n : Nat) :
    ((buf.toList.take n).map g).sum = ∑ i : Fin 20, if i.val < n then g buf[i] else 0 := by
  have lanes : buf.toList.map g = List.ofFn fun i : Fin 20 => g buf[i] :=
    List.ext_getElem (by rw [List.length_map, Vector.length_toList, List.length_ofFn]) fun i _ _ => by
      rw [List.getElem_map, List.getElem_ofFn, Vector.getElem_toList, Fin.getElem_fin]
  rw [List.map_take, lanes, List.sum_take_ofFn, Finset.sum_filter]

/-- The checksum of the first `n` lanes. -/
theorem toNat_cks_take (buf : Vector Byte 20) (n : Nat) :
    (cks (buf.toList.take n)).toNat = (∑ i : Fin 20, if i.val < n then buf[i].toNat else 0) % 16 := by
  rw [toNat_cks, sum_map_take_lanes BitVec.toNat]

/-- The checksum of the first `n` lanes, by their low nibbles. -/
theorem toNat_cks_take_nibbles (buf : Vector Byte 20) (n : Nat) :
    (cks (buf.toList.take n)).toNat = (∑ i : Fin 20, if i.val < n then buf[i].toNat % 16 else 0) % 16 := by
  rw [toNat_cks_nibbles, sum_map_take_lanes fun b => b.toNat % 16]

theorem exec_cksum (s : State) :
    exec .cksum s = .next { s with res := (cks s.bytes).setWidth 32, status := s.okStatus } := rfl

/-- Settles O38: `RES` is the zero-extended checksum of the valid lanes, in both forms of the sum. -/
theorem cksumSumsTheValidLanes : Obligations.CksumSumsTheValidLanes := by
  refine ⟨decode_encode .cksum, fun s => ⟨_, exec_cksum s, ?bytes, ?nibbles⟩⟩
  case bytes => exact (toNat_zeroExtend (by decide) _).trans (toNat_cks_take s.buf s.len.val)
  case nibbles => exact (toNat_zeroExtend (by decide) _).trans (toNat_cks_take_nibbles s.buf s.len.val)

/-! #### The last valid lane and the lanes before it (R138, R140) -/

section
variable {s : State} {n : Fin 20}

theorem State.len_ne_zero_of_eq_succ (h : s.len.val = n.val + 1) : s.len ≠ 0 :=
  fun empty => by simp [empty] at h

theorem State.bytes_eq_append (h : s.len.val = n.val + 1) : s.bytes = s.buf.toList.take n.val ++ [s.buf[n]] := by
  rw [State.bytes, h, List.take_add_one, List.getElem?_eq_getElem (by simp)]
  simp

theorem State.dropLast_bytes (h : s.len.val = n.val + 1) : s.bytes.dropLast = s.buf.toList.take n.val := by
  rw [s.bytes_eq_append h, List.dropLast_concat]

theorem toNat_calcNibble_bytes (h : s.len.val = n.val + 1) :
    (calcNibble s.bytes).toNat = (∑ i : Fin 20, if i.val < n.val then s.buf[i].toNat else 0) % 16 := by
  rw [calcNibble, s.dropLast_bytes h, toNat_cks_take]

theorem toNat_storedNibble_bytes (h : s.len.val = n.val + 1) : (storedNibble s.bytes).toNat = s.buf[n].toNat % 16 := by
  rw [storedNibble, s.bytes_eq_append h, List.getLastD_concat, BitVec.toNat_setWidth]

end

/-- A nibble below other bits (R138, R139). -/
theorem toNat_append_nibble {k : Nat} (hi : BitVec k) (lo : Nibble) : (hi ++ lo).toNat = 16 * hi.toNat + lo.toNat :=
  toNat_append_eq_add hi lo

/-! #### `CKVFY` (R138) -/

theorem exec_ckvfy_of_len_eq_zero {s : State} (h : s.len = 0) :
    exec .ckvfy s = .next { s with status := s.errStatus 1 } :=
  congrArg Host.Outcome.next (if_pos h)

/-- With a valid lane `CHK` is written whatever the comparison says. -/
theorem exec_ckvfy_of_len_ne_zero {s : State} (h : s.len ≠ 0) :
    exec .ckvfy s = .next { s with
      chk := storedNibble s.bytes ++ calcNibble s.bytes
      status := if calcNibble s.bytes = storedNibble s.bytes then s.okStatus else s.errStatus 3 } := by
  refine congrArg Host.Outcome.next ((if_neg h).trans ?_)
  split <;> rfl

/-- Settles O39: the nibbles agree as numbers exactly when they agree. -/
theorem ckvfyComparesTheTwoNibbles : Obligations.CkvfyComparesTheTwoNibbles := by
  refine ⟨decode_encode .ckvfy, fun s => ⟨exec_ckvfy_of_len_eq_zero, fun n h => ?_⟩⟩
  rw [← toNat_calcNibble_bytes h, ← toNat_storedNibble_bytes h]
  refine ⟨_, toNat_append_nibble _ _, ?_⟩
  simp only [exec_ckvfy_of_len_ne_zero (s.len_ne_zero_of_eq_succ h), BitVec.toNat_inj]

/-! #### `CKWR` (R139) -/

/-- Writing the first `n` lanes back with `b` after them changes lane `n` alone. -/
theorem overlay_take_append (buf : Vector Byte 20) (n : Fin 20) (b : Byte) :
    overlay buf (buf.toList.take n.val ++ [b]) = buf.set n b := by
  have length : (buf.toList.take n.val).length = n.val := by simp
  ext i lane : 1
  rw [Vector.getElem_set]
  rcases Nat.lt_trichotomy i n.val with below | rfl | above
  · rw [getElem_overlay_of_lt (by simp; omega), List.getElem_append_left (by omega), if_neg (by omega)]
    simp
  · rw [getElem_overlay_of_lt (by simp), if_pos rfl]
    simp
  · rw [getElem_overlay_of_le (by simp; omega), if_neg (by omega)]

/-- Sealing the valid lanes writes the last of them and no other. -/
theorem overlay_sealBytes {s : State} {n : Fin 20} (h : s.len.val = n.val + 1) (m : BitVec 2) :
    overlay s.buf (sealBytes m s.bytes) = s.buf.set n ((m ++ calcNibble s.bytes).setWidth 8) := by
  rw [sealBytes, s.dropLast_bytes h, overlay_take_append]

theorem toNat_sealedByte {m : BitVec 8} (h : m.toNat ≤ 3) (nibble : Nibble) :
    ((m.setWidth 2 ++ nibble).setWidth 8).toNat = 16 * m.toNat + nibble.toNat := by
  rw [BitVec.toNat_setWidth_of_le (by decide), toNat_append_nibble, BitVec.toNat_setWidth,
    Nat.mod_eq_of_lt (by omega)]

theorem exec_ckwr_of_mask_gt {m : BitVec 8} (h : 3 < m.toNat) (s : State) :
    exec (.ckwr m) s = .next { s with status := s.errStatus 6 } :=
  congrArg Host.Outcome.next (if_pos h)

theorem exec_ckwr_of_len_eq_zero {m : BitVec 8} (h : m.toNat ≤ 3) {s : State} (empty : s.len = 0) :
    exec (.ckwr m) s = .next { s with status := s.errStatus 1 } :=
  congrArg Host.Outcome.next ((if_neg (Nat.not_lt.2 h)).trans (if_pos empty))

theorem exec_ckwr_of_len_ne_zero {m : BitVec 8} (h : m.toNat ≤ 3) {s : State} (nonempty : s.len ≠ 0) :
    exec (.ckwr m) s = .next (s.storeBytes (sealBytes (m.setWidth 2) s.bytes)).succeed :=
  congrArg Host.Outcome.next ((if_neg (Nat.not_lt.2 h)).trans (if_neg nonempty))

/-- The sealed array is what the next command sees. -/
theorem bytes_storeBytes_sealBytes {s : State} (nonempty : s.len ≠ 0) (m : BitVec 2) :
    (s.storeBytes (sealBytes m s.bytes)).bytes = sealBytes m s.bytes := by
  have valid : s.bytes ≠ [] := by
    rw [← List.length_pos_iff, State.length_bytes]
    exact Nat.pos_of_ne_zero fun zero => nonempty (Fin.ext zero)
  exact s.bytes_storeBytes _ ((length_sealBytes m s.bytes valid).trans s.length_bytes)

/-- `CKVFY` after a sealed write ends without error: both nibbles are the computed one (R139). -/
theorem ckvfy_after_sealBytes {s : State} (nonempty : s.len ≠ 0) (m : BitVec 2) :
    ∃ u, exec .ckvfy (s.storeBytes (sealBytes m s.bytes)).succeed = .next u ∧ u.status.err = 0 := by
  have seen : (s.storeBytes (sealBytes m s.bytes)).succeed.bytes = sealBytes m s.bytes :=
    bytes_storeBytes_sealBytes nonempty m
  refine ⟨_, exec_ckvfy_of_len_ne_zero nonempty, ?_⟩
  rw [seen, if_pos (storedNibble_sealBytes m s.bytes).symm, State.okStatus_err]

/-- Settles O40: mask, then length, then the sealed last lane, which `CKVFY` accepts. -/
theorem ckwrSealsTheLastLane : Obligations.CkwrSealsTheLastLane := by
  intro s m
  refine ⟨decode_wordZ_or_imm (op := 0x32) rfl m, fun large => exec_ckwr_of_mask_gt large s,
    fun small empty => exec_ckwr_of_len_eq_zero small empty, fun n small h => ?sealed⟩
  have nonempty := s.len_ne_zero_of_eq_succ h
  obtain ⟨u, verified, ok⟩ := ckvfy_after_sealBytes nonempty (m.setWidth 2)
  refine ⟨_, u, (m.setWidth 2 ++ calcNibble s.bytes).setWidth 8, exec_ckwr_of_len_ne_zero small nonempty, ?frame, ?byte,
    verified, ok⟩
  case frame =>
    rw [← overlay_sealBytes h]
    rfl
  case byte => rw [toNat_sealedByte small, toNat_calcNibble_bytes h]

end Sys2Proof.Machine
end

section
/-! ### The bit-field commands (rules R153 to R157 of `44_bitfield.md`) -/

namespace Sys2Proof.Machine

/-! #### Words of format F (R71), as the opcode's word with the operands in its low bits -/

theorem toNat_operandsF (off len : BitVec 7) (rev : Bool) :
    (BitVec.ofBool rev ++ len ++ off).toNat = 2 ^ 14 * rev.toNat + 2 ^ 7 * len.toNat + off.toNat := by
  simp only [toNat_append_eq_add, BitVec.toNat_ofBool]
  omega

theorem wordZ_or_eq_wordF (op : BitVec 8) (off len : BitVec 7) (rev : Bool) :
    wordZ op ||| BitVec.ofNat 32 (2 ^ 14 * rev.toNat + 2 ^ 7 * len.toNat + off.toNat) = wordF op off len rev := by
  have room : wordZ op = op ++ 0#9 ++ 0#15 := by
    rw [BitVec.append_assoc, BitVec.zero_append_zero]
    rfl
  have placed : op ++ 0#9 ++ (BitVec.ofBool rev ++ len ++ off) = wordF op off len rev := by
    simp only [wordF, BitVec.append_assoc, BitVec.cast_eq]
  rw [room, ← toNat_operandsF, BitVec.ofNat_toNat, ← placed]
  exact append_zero_or_setWidth (op ++ 0#9) (BitVec.ofBool rev ++ len ++ off)

theorem decode_wordZ_or_bitField {op : BitVec 8} {build : BitVec 7 → BitVec 7 → Bool → Instr}
    (row : shapeOf op = some (.formatF build)) (off len : BitVec 7) (rev : Bool) :
    decode (wordZ op ||| BitVec.ofNat 32 (2 ^ 14 * rev.toNat + 2 ^ 7 * len.toNat + off.toNat)) =
      .ok (build off len rev) := by
  rw [wordZ_or_eq_wordF, decode_wordF row]

/-! #### Fields of a bit sequence (R153, R154) and the two laws of R157 -/

/-- A number of at most `len` bits is the sum of its bits. -/
theorem eq_sum_testBit {n len : Nat} (h : n < 2 ^ len) : n = ∑ j ∈ Finset.range len, (n.testBit j).toNat * 2 ^ j := by
  induction len generalizing n with
  | zero => simpa using h
  | succ len ih =>
    have half : n / 2 = ∑ j ∈ Finset.range len, (n.testBit (j + 1)).toNat * 2 ^ j := by
      simpa only [Nat.testBit_succ] using ih (n := n / 2) (by omega)
    calc n = n / 2 * 2 + n % 2 := (Nat.div_add_mod' n 2).symm
      _ = ∑ j ∈ Finset.range (len + 1), (n.testBit j).toNat * 2 ^ j := by
        rw [Finset.sum_range_succ', half, Finset.sum_mul, Nat.toNat_testBit]
        simp only [pow_succ, mul_assoc, pow_zero, Nat.div_one, mul_one]

section
variable {S : List Bool} {off len : Nat} (h : off + len ≤ S.length) (rev : Bool)
include h

/-- The value of a field as a sum over its positions, in position order (R153). -/
theorem fieldRead_eq_sum :
    fieldRead S off len rev =
      ∑ j ∈ Finset.range len, (S.getD (off + j) false).toNat * 2 ^ (if rev then j else len - 1 - j) := by
  have bit {j : Nat} (hj : j < len) :
      (fieldRead S off len rev).testBit j = S.getD (if rev then off + j else off + len - 1 - j) false := by
    rw [testBit_fieldRead S off len rev h j hj, List.getD_eq_getElem]
  rw [eq_sum_testBit (fieldRead_lt S off len rev)]
  cases rev with
  | true => exact Finset.sum_congr rfl fun j hj => by rw [bit (Finset.mem_range.1 hj)]; rfl
  | false =>
    rw [← Finset.sum_range_reflect]
    refine Finset.sum_congr rfl fun j hj => ?_
    have hj := Finset.mem_range.1 hj
    have position : off + len - 1 - (len - 1 - j) = off + j := by omega
    rw [bit (by omega)]
    simp only [Bool.false_eq_true, if_false, position]

/-- Reading a field just written gives the value (R157). -/
theorem fieldRead_fieldWrite {v : Nat} (fits : v < 2 ^ len) :
    fieldRead (fieldWrite S off len rev v) off len rev = v := by
  have h' : off + len ≤ (fieldWrite S off len rev v).length := by rwa [length_fieldWrite S off len rev v h]
  refine Nat.eq_of_testBit_eq fun j => ?_
  by_cases hj : j < len
  · rw [testBit_fieldRead _ _ _ _ h' j hj, getElem_fieldWrite S off len rev v h _ (by split <;> omega),
      if_pos (by split <;> omega)]
    cases rev with
    | true => simp
    | false =>
      have bit : len - 1 - (off + len - 1 - j - off) = j := by omega
      simp only [Bool.false_eq_true, if_false, bit]
  · have high : 2 ^ len ≤ 2 ^ j := Nat.pow_le_pow_right (by decide) (Nat.not_lt.1 hj)
    rw [Nat.testBit_lt_two_pow ((fieldRead_lt _ off len rev).trans_le high), Nat.testBit_lt_two_pow (fits.trans_le high)]

/-- Writing a field just read changes nothing (R157). -/
theorem fieldWrite_fieldRead : fieldWrite S off len rev (fieldRead S off len rev) = S := by
  refine List.ext_getElem (length_fieldWrite S off len rev _ h) fun k _ hk => ?_
  rw [getElem_fieldWrite S off len rev _ h k hk]
  split
  · next inside =>
    rw [testBit_fieldRead S off len rev h _ (by split <;> omega)]
    congr 1
    cases rev with
    | true => exact Nat.add_sub_cancel' inside.1
    | false =>
      simp only [Bool.false_eq_true, if_false]
      omega
  · rfl

end

/-! #### What each command does, by its checks (R155, R156) -/

/-- `S` of the valid lanes with `DATA` written as a field, regrouped into lanes and written back (R156). -/
def State.inject (off len : Nat) (rev : Bool) (s : State) : State :=
  s.storeBytes (bitsToByteArray (fieldWrite (bitString s.bytes) off len rev s.data.toNat))

section
variable {off len : BitVec 7} {s : State} (rev : Bool)

theorem fieldOutOfBounds_iff {off len : Nat} :
    fieldOutOfBounds off len s = true ↔ 64 < len ∨ 6 * s.len.val < off + len :=
  decide_eq_true_iff

/-- The bounds check lets a field pass that is no longer than `DATA` and ends in the valid lanes. -/
theorem not_fieldOutOfBounds {off len : Nat} (short : len ≤ 64) (inside : off + len ≤ 6 * s.len.val) :
    ¬ fieldOutOfBounds off len s = true := by
  rw [fieldOutOfBounds_iff]
  omega

/-- `DATA` fits a field of 64 bits whatever it holds. -/
theorem data_lt_two_pow {len : Nat} (short : len ≤ 64) (fits : len < 64 → s.data.toNat < 2 ^ len) :
    s.data.toNat < 2 ^ len := by
  rcases Nat.lt_or_eq_of_le short with narrow | rfl
  · exact fits narrow
  · exact s.data.isLt

theorem exec_bfrd_of_outOfBounds (out : 64 < len.toNat ∨ 6 * s.len.val < off.toNat + len.toNat) :
    exec (.bfrd off len rev) s = .next { s with status := s.errStatus 6 } :=
  congrArg Host.Outcome.next (if_pos (fieldOutOfBounds_iff.2 out))

theorem exec_bfrd_of_inBounds (short : len.toNat ≤ 64) (inside : off.toNat + len.toNat ≤ 6 * s.len.val) :
    exec (.bfrd off len rev) s = .next { s with
      data := BitVec.ofNat 64 (fieldRead (bitString s.bytes) off.toNat len.toNat rev), status := s.okStatus } :=
  congrArg Host.Outcome.next (if_neg (not_fieldOutOfBounds short inside))

theorem exec_bfwr_of_outOfBounds (out : 64 < len.toNat ∨ 6 * s.len.val < off.toNat + len.toNat) :
    exec (.bfwr off len rev) s = .next { s with status := s.errStatus 6 } :=
  congrArg Host.Outcome.next (if_pos (fieldOutOfBounds_iff.2 out))

theorem exec_bfwr_of_large (narrow : len.toNat < 64) (inside : off.toNat + len.toNat ≤ 6 * s.len.val)
    (large : 2 ^ len.toNat ≤ s.data.toNat) :
    exec (.bfwr off len rev) s = .next { s with status := s.errStatus 5 } :=
  congrArg Host.Outcome.next ((if_neg (not_fieldOutOfBounds narrow.le inside)).trans (if_pos ⟨narrow, large⟩))

theorem exec_bfwr_of_fits (short : len.toNat ≤ 64) (inside : off.toNat + len.toNat ≤ 6 * s.len.val)
    (fits : s.data.toNat < 2 ^ len.toNat) :
    exec (.bfwr off len rev) s = .next (s.inject off.toNat len.toNat rev).succeed :=
  congrArg Host.Outcome.next ((if_neg (not_fieldOutOfBounds short inside)).trans
    (if_neg fun ⟨_, large⟩ => Nat.not_le.2 fits large))

end

/-! #### The field in the buffer (R12, R155, R156) -/

theorem bitString_bytes_getD {s : State} {k : Nat} (h : k < 6 * s.len.val) :
    (bitString s.bytes).getD k false = s.bitAt k := by
  have valid : k < (bitString s.bytes).length := by simpa using h
  rw [List.getD_eq_getElem _ _ valid, getElem_bitString_bytes]

section
variable {off len : Nat} {s : State} (inside : off + len ≤ 6 * s.len.val) (rev : Bool)
include inside

theorem field_in_bitString : off + len ≤ (bitString s.bytes).length := by simpa using inside

/-- The value of a field of the valid lanes (R153). -/
theorem fieldRead_bytes_eq_sum :
    fieldRead (bitString s.bytes) off len rev =
      ∑ j ∈ Finset.range len, (s.bitAt (off + j)).toNat * 2 ^ (if rev then j else len - 1 - j) := by
  rw [fieldRead_eq_sum (field_in_bitString inside)]
  refine Finset.sum_congr rfl fun j hj => ?_
  have hj := Finset.mem_range.1 hj
  rw [bitString_bytes_getD (by omega)]

/-- A field write keeps the number of positions, which is whole lanes (R154). -/
theorem length_fieldWrite_bytes (v : Nat) : (fieldWrite (bitString s.bytes) off len rev v).length = 6 * s.len.val := by
  rw [length_fieldWrite _ _ _ _ _ (field_in_bitString inside), length_bitString, State.length_bytes]

/-- The next command sees the bit-string with the field written. -/
theorem bitString_bytes_inject :
    bitString (s.inject off len rev).bytes = fieldWrite (bitString s.bytes) off len rev s.data.toNat := by
  have whole := length_fieldWrite_bytes inside rev s.data.toNat
  rw [State.inject, s.bytes_storeBytes _ (length_bitsToByteArray _ _ whole), bitString_bitsToByteArray _ _ whole]

/-- Regrouped lanes are below 64 (R151). -/
theorem legalLanes_inject (legal : LegalLanes s.buf) : LegalLanes (s.inject off len rev).buf :=
  legal.overlay (legalBytes_bitsToByteArray (length_fieldWrite_bytes inside rev s.data.toNat))

/-- The twenty lanes after a field write, position by position (R156). -/
theorem bitAt_inject {k : Nat} (lanes : k < 120) :
    (s.inject off len rev).bitAt k =
      if off ≤ k ∧ k < off + len then s.data.getLsbD (if rev then k - off else len - 1 - (k - off)) else s.bitAt k := by
  by_cases valid : k < 6 * s.len.val
  · have hk : k < (bitString s.bytes).length := by simpa using valid
    rw [← bitString_bytes_getD (s := s.inject off len rev) valid, bitString_bytes_inject inside,
      List.getD_eq_getElem _ _ (by rwa [length_fieldWrite_bytes inside]),
      getElem_fieldWrite _ _ _ _ _ (field_in_bitString inside) k hk, getElem_bitString_bytes, BitVec.testBit_toNat]
  · have lane : k / 6 < 20 := by omega
    have kept : (s.inject off len rev).buf[k / 6] = s.buf[k / 6] :=
      getElem_overlay_of_le
        (by rw [length_bitsToByteArray _ _ (length_fieldWrite_bytes inside rev s.data.toNat)]; omega) s.buf lane
    rw [if_neg (by omega), State.bitAt, State.bitAt, State.lane_eq _ _ lane, State.lane_eq _ _ lane, kept]

/-- Writing back the value that stands in the field leaves every lane (R157). -/
theorem inject_buf_of_fieldRead (legal : LegalLanes s.buf)
    (value : s.data.toNat = fieldRead (bitString s.bytes) off len rev) : (s.inject off len rev).buf = s.buf := by
  rw [State.inject, State.storeBytes_buf, value, fieldWrite_fieldRead (field_in_bitString inside),
    bitsToByteArray_bitString _ legal.bytes, overlay_bytes]

end

/-- A field no longer than `DATA` is held by `DATA` (R155). -/
theorem toNat_ofNat_fieldRead (S : List Bool) (off : Nat) {len : Nat} (rev : Bool) (short : len ≤ 64) :
    (BitVec.ofNat 64 (fieldRead S off len rev)).toNat = fieldRead S off len rev :=
  (BitVec.toNat_ofNat _ _).trans <| Nat.mod_eq_of_lt <|
    (fieldRead_lt S off len rev).trans_le (Nat.pow_le_pow_right (by decide) short)

/-! #### The obligations -/

/-- Settles O41: `DATA` holds the whole value of the field, which is the sum over its positions. -/
theorem bfrdReadsTheFieldAsASum : Obligations.BfrdReadsTheFieldAsASum := by
  intro s off len rev
  refine ⟨decode_wordZ_or_bitField (op := 0x40) rfl off len rev, exec_bfrd_of_outOfBounds rev, fun short inside => ?_⟩
  refine ⟨_, exec_bfrd_of_inBounds rev short inside, ?_⟩
  rw [toNat_ofNat_fieldRead _ _ _ short, fieldRead_bytes_eq_sum inside]

/-- Settles O42: bounds, then the value, then the lanes that `State.inject` leaves. -/
theorem bfwrInjectsExactlyTheField : Obligations.BfwrInjectsExactlyTheField := by
  intro s off len rev
  refine ⟨decode_wordZ_or_bitField (op := 0x41) rfl off len rev, exec_bfwr_of_outOfBounds rev, exec_bfwr_of_large rev,
    fun legal short inside fits => ?_⟩
  obtain ⟨lanes, -, -⟩ := s.legal_iff.1 legal
  exact ⟨_, exec_bfwr_of_fits rev short inside (data_lt_two_pow short fits), rfl, legalLanes_inject inside rev lanes,
    fun k hk => bitAt_inject inside rev hk⟩

/-- Settles O43: both commands work on the bit-string of the valid lanes, where the two laws of R157 hold. -/
theorem bitFieldReadAndWriteAreInverse : Obligations.BitFieldReadAndWriteAreInverse := by
  intro s off len rev legal short inside
  refine ⟨fun fits => ?writeThenRead, ?readThenWrite⟩
  case writeThenRead =>
    have fits := data_lt_two_pow short fits
    refine ⟨_, _, exec_bfwr_of_fits rev short inside fits, exec_bfrd_of_inBounds rev short inside, ?_⟩
    have seen : bitString (s.inject off.toNat len.toNat rev).succeed.bytes = _ := bitString_bytes_inject inside rev
    dsimp only
    rw [seen, fieldRead_fieldWrite (field_in_bitString inside) rev fits, BitVec.ofNat_toNat, BitVec.setWidth_eq]
  case readThenWrite =>
    obtain ⟨lanes, -, -⟩ := s.legal_iff.1 legal
    have value := toNat_ofNat_fieldRead (bitString s.bytes) off.toNat rev short
    have fits := value.trans_lt (fieldRead_lt (bitString s.bytes) off.toNat len.toNat rev)
    refine ⟨_, _, exec_bfrd_of_inBounds rev short inside, exec_bfwr_of_fits rev short inside fits, rfl, ?_⟩
    exact inject_buf_of_fieldRead (s := { s with data := _, status := s.okStatus }) inside rev lanes value

end Sys2Proof.Machine
end

section
/-! ### The bits of the field registers, as the rows of the layouts name them (rules R31 to R40 and R171 to R174) -/

namespace Sys2Proof.Machine

/-- A flag as a number has one bit. -/
theorem testBit_boolToNat (b : Bool) (j : Nat) : b.toNat.testBit j = (decide (j = 0) && b) := by
  rw [← BitVec.toNat_ofBool, BitVec.testBit_toNat, BitVec.getLsbD_ofBool]

/-- Writing back the value that stands in a register slice changes nothing. -/
theorem putSlice_self {w : Nat} (x : BitVec w) (lo n : Nat) {v : Nat} (h : ∀ j < n, v.testBit j = x.getLsbD (lo + j)) :
    putSlice x lo n v = x := by
  refine BitVec.eq_of_getLsbD_eq fun k hk => ?_
  rw [getLsbD_putSlice]
  split
  · rw [h _ (by omega), decide_eq_true hk, Bool.true_and, Nat.add_sub_cancel' (by omega)]
  · rfl

namespace FieldReg

/-- How many bits a row's register has (R31 to R40). -/
def width : FieldReg → Nat
  | keysel => 3
  | gameId => 15
  | hero | tgt | freering | linked => 1
  | companion | memory => 4
  | behav | link _ | child _ | ring _ => 8

/-- Bit `j` of a row's register; past its width a register has only zeros. -/
def bit (F : Fields) (j : Nat) : FieldReg → Bool
  | keysel => F.keysel.getLsbD j
  | gameId => F.gameId.getLsbD j
  | hero => decide (j = 0) && F.flags.getLsbD 0
  | tgt => decide (j = 0) && F.flags.getLsbD 1
  | freering => decide (j = 0) && F.flags.getLsbD 2
  | linked => decide (j = 0) && F.flags.getLsbD 3
  | behav => F.behav.getLsbD j
  | companion => F.companion.getLsbD j
  | memory => F.memory.getLsbD j
  | link i => F.link[i].getLsbD j
  | child i => F.child[i].getLsbD j
  | ring i => decide (j < 8) && F.rings.getLsbD (8 * i.val + j)

/-- `bit` is the bit of the value that `get` reads. -/
theorem testBit_get (reg : FieldReg) (F : Fields) (j : Nat) : (reg.get F).testBit j = reg.bit F j := by
  cases reg with
  | hero | tgt | freering | linked => exact testBit_boolToNat ..
  | ring i => exact (BitVec.testBit_toNat _).trans (BitVec.getLsbD_extractLsb' _ _ _ _)
  | _ => rfl

theorem get_lt (reg : FieldReg) (F : Fields) : reg.get F < 2 ^ reg.width := by
  cases reg with
  | hero | tgt | freering | linked => exact Bool.toNat_lt _
  | _ => exact BitVec.isLt _

/-- The row's register takes the bits written to it. -/
theorem bit_set_same (reg : FieldReg) (v : Nat) (F : Fields) {j : Nat} (h : j < reg.width) :
    reg.bit (reg.set v F) j = v.testBit j := by
  cases reg with
  | hero | tgt | freering | linked =>
    obtain rfl : j = 0 := Nat.lt_one_iff.1 h
    simp [bit, set, getLsbD_putSlice, -BitVec.getLsbD_eq_getElem]
  | link i | child i =>
    have h : j < 8 := h
    simp [bit, set, BitVec.getLsbD_ofNat, h, -BitVec.getLsbD_eq_getElem]
  | ring i =>
    have h : j < 8 := h
    have inside : 8 * i.val + j < 64 := by omega
    simp [bit, set, getLsbD_putSlice, h, inside, -BitVec.getLsbD_eq_getElem]
  | keysel | gameId | behav | companion | memory =>
    exact (BitVec.getLsbD_ofNat ..).trans ((congrArg (· && v.testBit j) (decide_eq_true h)).trans (Bool.true_and _))

/-- No other row's register changes. -/
theorem bit_set_ne {reg reg' : FieldReg} (h : reg ≠ reg') (v : Nat) (F : Fields) (j : Nat) :
    reg.bit (reg'.set v F) j = reg.bit F j := by
  cases reg with
  | keysel => cases reg' with | keysel => exact absurd rfl h | _ => rfl
  | gameId => cases reg' with | gameId => exact absurd rfl h | _ => rfl
  | behav => cases reg' with | behav => exact absurd rfl h | _ => rfl
  | companion => cases reg' with | companion => exact absurd rfl h | _ => rfl
  | memory => cases reg' with | memory => exact absurd rfl h | _ => rfl
  | hero | tgt | freering | linked => cases reg' with
    | hero | tgt | freering | linked => simp_all [bit, set, getLsbD_putSlice, -BitVec.getLsbD_eq_getElem]
    | _ => rfl
  | link i => cases reg' with
    | link k =>
      have other : k.val ≠ i.val := fun same => h (congrArg link (Fin.ext same.symm))
      simp only [bit, set, Fin.getElem_fin]
      rw [Vector.getElem_set_ne _ _ other]
    | _ => rfl
  | child i => cases reg' with
    | child k =>
      have other : k.val ≠ i.val := fun same => h (congrArg child (Fin.ext same.symm))
      simp only [bit, set, Fin.getElem_fin]
      rw [Vector.getElem_set_ne _ _ other]
    | _ => rfl
  | ring i => cases reg' with
    | ring k =>
      have other : k.val ≠ i.val := fun same => h (congrArg ring (Fin.ext same.symm))
      by_cases hj : j < 8
      · simp only [bit, set, getLsbD_putSlice]
        rw [if_neg (by omega)]
      · simp [bit, hj]
    | _ => rfl

/-- Writing back the value of a row's register changes nothing. -/
theorem set_get (reg : FieldReg) (F : Fields) : reg.set (reg.get F) F = F := by
  cases reg with
  | keysel | gameId | behav | companion | memory => simp [set, get]
  | link i | child i => simp [set, get]
  | hero | tgt | freering | linked =>
    refine congrArg (fun flags => { F with flags }) (putSlice_self _ _ _ fun j hj => ?_)
    obtain rfl : j = 0 := Nat.lt_one_iff.1 hj
    exact testBit_get _ F 0
  | ring i =>
    refine congrArg (fun rings => { F with rings }) (putSlice_self _ _ _ fun j hj => ?_)
    rw [testBit_get, bit, decide_eq_true hj, Bool.true_and]

/-- No row names `FLAGS.RETURN` (R33). -/
theorem set_return (reg : FieldReg) (v : Nat) (F : Fields) :
    (reg.set v F).flags.getLsbD 4 = F.flags.getLsbD 4 := by
  cases reg with
  | hero | tgt | freering | linked => simp [set, getLsbD_putSlice, -BitVec.getLsbD_eq_getElem]
  | _ => rfl

end FieldReg

end Sys2Proof.Machine
end

section
/-! ### Rows written into a bit sequence and read out of one (rules R180 and R183) -/

namespace Sys2Proof.Machine

/-! #### The positions of a row -/

namespace FieldRow

/-- Position `k` belongs to the row. -/
abbrev Covers (row : FieldRow) (k : Nat) : Prop := row.off ≤ k ∧ k < row.off + row.len

/-- The bit of its register that a row puts at position `k` (R60). -/
def index (row : FieldRow) (k : Nat) : Nat := if row.rev then k - row.off else row.len - 1 - (k - row.off)

/-- Two rows have no position in common. -/
abbrev Disjoint (row row' : FieldRow) : Prop := row.off + row.len ≤ row'.off ∨ row'.off + row'.len ≤ row.off

/-- The row's field of a bit sequence. -/
def read (S : List Bool) (row : FieldRow) : Nat := fieldRead S row.off row.len row.rev

theorem read_lt (S : List Bool) (row : FieldRow) : row.read S < 2 ^ row.len := fieldRead_lt ..

theorem index_lt {row : FieldRow} {k : Nat} (h : row.Covers k) : row.index k < row.len := by
  unfold index
  split <;> omega

/-- Every bit of the field stands at some position of the row. -/
theorem exists_index_eq (row : FieldRow) {j : Nat} (h : j < row.len) : ∃ k, row.Covers k ∧ row.index k = j := by
  refine ⟨if row.rev then row.off + j else row.off + row.len - 1 - j, ?_⟩
  unfold index
  cases row.rev <;> simp <;> omega

/-- The bit of the field at a position of the row is the sequence's (R153). -/
theorem testBit_read {S : List Bool} {row : FieldRow} {k : Nat} (inside : row.off + row.len ≤ S.length)
    (h : row.Covers k) : (row.read S).testBit (row.index k) = S.getD k false := by
  have position : (if row.rev then row.off + row.index k else row.off + row.len - 1 - row.index k) = k := by
    unfold index
    split <;> omega
  rw [read, testBit_fieldRead _ _ _ _ inside _ (index_lt h), List.getD_eq_getElem _ _ (by omega)]
  simp only [position]

end FieldRow

/-- A field write replaces exactly the positions of the field (R154), past the end of the sequence too. -/
theorem getD_fieldWrite {S : List Bool} {row : FieldRow} (v : Nat) (inside : row.off + row.len ≤ S.length) (k : Nat) :
    (fieldWrite S row.off row.len row.rev v).getD k false =
      if row.Covers k then v.testBit (row.index k) else S.getD k false := by
  have length := length_fieldWrite S row.off row.len row.rev v inside
  by_cases hk : k < S.length
  · rw [List.getD_eq_getElem _ _ (by rwa [length]), getElem_fieldWrite _ _ _ _ _ inside _ hk,
      List.getD_eq_getElem _ _ hk]
    rfl
  · rw [List.getD_eq_default _ _ (by omega), List.getD_eq_default _ _ (by omega), if_neg (by omega)]

/-! #### Rows written -/

section
variable {rows : List FieldRow} {S : List Bool} (F : Fields) {k : Nat}
  (inside : ∀ row ∈ rows, row.off + row.len ≤ S.length)
include inside

/-- A position of no row keeps its bit. -/
theorem getD_writeRows_of_not_covers (h : ∀ row ∈ rows, ¬ row.Covers k) :
    (writeRows rows F S).getD k false = S.getD k false := by
  induction rows generalizing S with
  | nil => rfl
  | cons row rows ih =>
    rw [List.forall_mem_cons] at h inside
    obtain ⟨free, frees⟩ := h
    obtain ⟨first, rest⟩ := inside
    have length := length_fieldWrite S row.off row.len row.rev (row.reg.get F) first
    exact (ih (by rwa [length]) frees).trans ((getD_fieldWrite _ first k).trans (if_neg free))

/-- A position of one row takes that row's bit, if no other row has it (R183). -/
theorem getD_writeRows_of_covers (disjoint : rows.Pairwise FieldRow.Disjoint) {row : FieldRow} (mem : row ∈ rows)
    (h : row.Covers k) : (writeRows rows F S).getD k false = row.reg.bit F (row.index k) := by
  induction rows generalizing S with
  | nil => cases mem
  | cons head rows ih =>
    rw [List.forall_mem_cons] at inside
    rw [List.pairwise_cons] at disjoint
    obtain ⟨first, rest⟩ := inside
    obtain ⟨apart, disjoint⟩ := disjoint
    have length := length_fieldWrite S head.off head.len head.rev (head.reg.get F) first
    rw [← length] at rest
    rcases List.mem_cons.1 mem with rfl | mem
    · have free : ∀ row' ∈ rows, ¬ row'.Covers k := fun row' mem' => by
        have := apart row' mem'
        omega
      calc (writeRows (row :: rows) F S).getD k false
          = (fieldWrite S row.off row.len row.rev (row.reg.get F)).getD k false :=
            getD_writeRows_of_not_covers F rest free
        _ = (row.reg.get F).testBit (row.index k) := (getD_fieldWrite _ first k).trans (if_pos h)
        _ = row.reg.bit F (row.index k) := FieldReg.testBit_get ..
    · exact ih rest disjoint mem

end

/-! #### Rows read -/

section
variable {rows : List FieldRow} (S : List Bool) (F : Fields)

/-- A register that no row names keeps its bits (R185). -/
theorem bit_readRows_of_not_mem {reg : FieldReg} (h : reg ∉ rows.map FieldRow.reg) (j : Nat) :
    reg.bit (readRows rows S F) j = reg.bit F j := by
  induction rows generalizing F with
  | nil => rfl
  | cons row rows ih =>
    rw [List.map_cons, List.mem_cons, not_or] at h
    obtain ⟨other, others⟩ := h
    exact (ih _ others).trans (FieldReg.bit_set_ne other _ F j)

/-- A register that one row names takes the bits of that row's field (R180). -/
theorem bit_readRows_of_mem (nodup : (rows.map FieldRow.reg).Nodup) {row : FieldRow} (mem : row ∈ rows) {j : Nat}
    (h : j < row.reg.width) : row.reg.bit (readRows rows S F) j = (row.read S).testBit j := by
  induction rows generalizing F with
  | nil => cases mem
  | cons head rows ih =>
    rw [List.map_cons, List.nodup_cons] at nodup
    obtain ⟨new, nodup⟩ := nodup
    rcases List.mem_cons.1 mem with rfl | mem
    · exact (bit_readRows_of_not_mem S _ new j).trans (FieldReg.bit_set_same _ _ _ h)
    · exact ih _ nodup mem

/-- `FLAGS.RETURN` is in no row. -/
theorem readRows_return : (readRows rows S F).flags.getLsbD 4 = F.flags.getLsbD 4 := by
  induction rows generalizing F with
  | nil => rfl
  | cons row rows ih => exact (ih _).trans (FieldReg.set_return ..)

/-- Rows whose fields hold the values of their registers change no register. -/
theorem readRows_eq_self (h : ∀ row ∈ rows, row.read S = row.reg.get F) : readRows rows S F = F := by
  induction rows with
  | nil => rfl
  | cons row rows ih =>
    rw [List.forall_mem_cons] at h
    obtain ⟨first, rest⟩ := h
    have head : row.reg.set (row.read S) F = F := by rw [first, FieldReg.set_get]
    calc readRows (row :: rows) S F = readRows rows S (row.reg.set (row.read S) F) := rfl
      _ = F := by rw [head, ih rest]

end

end Sys2Proof.Machine
end

section
/-! ### The three layouts (rules R170 to R183) -/

namespace Sys2Proof.Machine

/-! #### The rows of a format -/

/-- Every layout begins with the header's rows (R171). -/
theorem header_rows (f : Format) : ⟨0, 3, false, .keysel⟩ ∈ rowsOf f ∧ ⟨5, 15, true, .gameId⟩ ∈ rowsOf f := by
  cases f <;> decide

theorem rowsOf_disjoint (f : Format) : (rowsOf f).Pairwise FieldRow.Disjoint := by
  cases f <;> decide

theorem rowsOf_nodup (f : Format) : ((rowsOf f).map FieldRow.reg).Nodup := by
  cases f <;> decide

/-- The discriminator's two positions, 3 and 4, are in no row (R170). -/
theorem not_covers_discriminator (f : Format) : ∀ row ∈ rowsOf f, ¬ row.Covers 3 ∧ ¬ row.Covers 4 := by
  cases f <;> decide

/-- The rows and the discriminator take up every data position (R171 to R174). -/
theorem exists_covers (f : Format) :
    ∀ k < 6 * (f.size - 1), (k = 3 ∨ k = 4) ∨ ∃ row ∈ rowsOf f, row.Covers k := by
  cases f <;> decide

/-- A row is as wide as its register, except that a Game secret has six bits of `BEHAV` (R172). -/
theorem row_width (f : Format) :
    ∀ row ∈ rowsOf f, row.len = row.reg.width ∨ f = .game ∧ row.reg = .behav ∧ row.len = 6 := by
  cases f <;> decide

theorem row_len_le_width {f : Format} {row : FieldRow} (mem : row ∈ rowsOf f) : row.len ≤ row.reg.width := by
  rcases row_width f row mem with same | ⟨-, behav, six⟩
  · exact same.le
  · rw [behav, six]
    decide

/-- The field registers fit the format: a Game secret has room for a `BEHAV` up to 63 (R186). -/
def Encodable (f : Format) (F : Fields) : Prop := f = .game → F.behav.toNat ≤ 63

theorem Encodable.get_lt {f : Format} {F : Fields} (h : Encodable f F) {row : FieldRow} (mem : row ∈ rowsOf f) :
    row.reg.get F < 2 ^ row.len := by
  rcases row_width f row mem with same | ⟨game, behav, six⟩
  · rw [same]
    exact FieldReg.get_lt ..
  · rw [behav, six]
    exact Nat.lt_succ_of_le (h game)

/-! #### A plain secret's data positions -/

section
variable (f : Format) (F : Fields)

/-- The discriminator's two positions stand inside the data of every format (R170). -/
theorem discriminator_inside {n : Nat} (h : n = 6 * (f.size - 1)) : 3 + 2 ≤ n := by
  cases f <;> subst h <;> decide

theorem rows_inside_zeros (row : FieldRow) (mem : row ∈ rowsOf f) :
    row.off + row.len ≤ (List.replicate (6 * (f.size - 1)) false).length := by
  rw [List.length_replicate]
  exact row_in_bounds f row mem

theorem length_rows_of_zeros :
    (writeRows (rowsOf f) F (List.replicate (6 * (f.size - 1)) false)).length = 6 * (f.size - 1) := by
  rw [length_writeRows _ _ _ (rows_inside_zeros f), List.length_replicate]

theorem getD_packBits (k : Nat) : (packBits f F).getD k false =
    if 3 ≤ k ∧ k < 3 + 2 then f.bits.getLsbD (4 - k)
    else (writeRows (rowsOf f) F (List.replicate (6 * (f.size - 1)) false)).getD k false := by
  have write := getD_fieldWrite (row := ⟨3, 2, false, .keysel⟩) f.bits.toNat
    (discriminator_inside f (length_rows_of_zeros f F)) k
  refine write.trans (ite_congr rfl (fun h => ?_) fun _ => rfl)
  have index : 2 - 1 - (k - 3) = 4 - k := by omega
  exact congrArg f.bits.getLsbD index

/-- Position 3 is the high bit of `FMT` and position 4 the low bit (R170, R183). -/
theorem getD_packBits_discriminator {k : Nat} (h : k = 3 ∨ k = 4) :
    (packBits f F).getD k false = f.bits.getLsbD (4 - k) := by
  rw [getD_packBits, if_pos (by omega)]

/-- A position of a row holds that row's bit (R183). -/
theorem getD_packBits_of_covers {f : Format} {row : FieldRow} (mem : row ∈ rowsOf f) {k : Nat} (h : row.Covers k) :
    (packBits f F).getD k false = row.reg.bit F (row.index k) := by
  have notDiscriminator : ¬ (3 ≤ k ∧ k < 3 + 2) := fun inside => by
    obtain ⟨not3, not4⟩ := not_covers_discriminator f row mem
    rcases (show k = 3 ∨ k = 4 by omega) with rfl | rfl
    · exact not3 h
    · exact not4 h
  rw [getD_packBits, if_neg notDiscriminator]
  exact getD_writeRows_of_covers F (rows_inside_zeros f) (rowsOf_disjoint f) mem h

/-- What stands at position `k` of a plain secret: the bit of the row that has it, else the discriminator's. -/
def layoutBit (k : Nat) : Bool :=
  match (rowsOf f).find? fun row => decide (row.Covers k) with
  | some row => row.reg.bit F (row.index k)
  | none => f.bits.getLsbD (4 - k)

theorem getD_packBits_eq_layoutBit {k : Nat} (h : k < 6 * (f.size - 1)) :
    (packBits f F).getD k false = layoutBit f F k := by
  unfold layoutBit
  split
  · next row found =>
    refine getD_packBits_of_covers F (List.mem_of_find?_eq_some found) (?_)
    exact of_decide_eq_true (List.find?_some (p := fun row : FieldRow => decide (row.Covers k)) found)
  · next none =>
    rw [List.find?_eq_none] at none
    rcases exists_covers f k h with disc | ⟨row, mem, covers⟩
    · exact getD_packBits_discriminator f F disc
    · exact absurd (decide_eq_true covers) (none row mem)

/-- Reading a row of a plain secret gives the row's register back (R195). -/
theorem read_packBits {f : Format} {F : Fields} (fits : Encodable f F) {row : FieldRow} (mem : row ∈ rowsOf f) :
    row.read (packBits f F) = row.reg.get F := by
  have inside : row.off + row.len ≤ (packBits f F).length := by
    rw [length_packBits]
    exact row_in_bounds f row mem
  refine Nat.eq_of_testBit_eq fun j => ?_
  by_cases hj : j < row.len
  · obtain ⟨k, covers, rfl⟩ := row.exists_index_eq hj
    rw [FieldRow.testBit_read inside covers, getD_packBits_of_covers F mem covers, FieldReg.testBit_get]
  · have high : 2 ^ row.len ≤ 2 ^ j := Nat.pow_le_pow_right (by decide) (Nat.not_lt.1 hj)
    rw [Nat.testBit_lt_two_pow ((row.read_lt _).trans_le high),
      Nat.testBit_lt_two_pow ((fits.get_lt mem).trans_le high)]

/-- A plain secret's data positions are known from its discriminator and its rows. -/
theorem packBits_eq {f : Format} {F : Fields} {S : List Bool} (length : S.length = 6 * (f.size - 1))
    (disc : ∀ k, k = 3 ∨ k = 4 → S.getD k false = f.bits.getLsbD (4 - k))
    (rows : ∀ row ∈ rowsOf f, ∀ k, row.Covers k → S.getD k false = row.reg.bit F (row.index k)) : packBits f F = S := by
  refine List.ext_getElem (by rw [length_packBits, length]) fun k _ hk => ?_
  rw [← List.getD_eq_getElem _ false, ← List.getD_eq_getElem _ false]
  rcases exists_covers f k (length ▸ hk) with first | ⟨row, mem, covers⟩
  · rw [getD_packBits_discriminator f F first, disc k first]
  · rw [getD_packBits_of_covers F mem covers, rows row mem k covers]

/-- Only the registers that the format names count. -/
theorem packBits_congr {f : Format} {F G : Fields} (h : ∀ row ∈ rowsOf f, ∀ j, row.reg.bit G j = row.reg.bit F j) :
    packBits f F = packBits f G :=
  packBits_eq (length_packBits f G) (fun _ => getD_packBits_discriminator f G) fun _ mem _ covers =>
    (getD_packBits_of_covers G mem covers).trans (h _ mem _)

end

/-! #### The discriminator and the rows of a data sequence -/

section
variable {f : Format} {S : List Bool} (F : Fields)

theorem fieldRead_discriminator (h : 3 + 2 ≤ S.length) :
    fieldRead S 3 2 false = 2 * (S.getD 3 false).toNat + (S.getD 4 false).toNat := by
  rw [fieldRead_eq_sum h]
  simp [Finset.sum_range_succ, Nat.mul_comm]

/-- The discriminator's bits spell `FMT` exactly when they are its bits. -/
theorem discriminator_eq_bits_iff (b c : Bool) :
    2 * b.toNat + c.toNat = f.bits.toNat ↔ b = f.bits.getLsbD 1 ∧ c = f.bits.getLsbD 0 := by
  revert b c
  cases f <;> decide

theorem fieldRead_packBits_discriminator (f : Format) (F : Fields) :
    fieldRead (packBits f F) 3 2 false = f.bits.toNat := by
  rw [fieldRead_discriminator (discriminator_inside f (length_packBits f F)), discriminator_eq_bits_iff,
    getD_packBits_discriminator f F (.inl rfl), getD_packBits_discriminator f F (.inr rfl)]
  exact ⟨rfl, rfl⟩

/-- A row's register takes the bits that stand at the row's positions (R180). -/
theorem bit_readRows {row : FieldRow} (mem : row ∈ rowsOf f) (data : 6 * (f.size - 1) ≤ S.length) {k : Nat}
    (h : row.Covers k) : row.reg.bit (readRows (rowsOf f) S F) (row.index k) = S.getD k false := by
  have inside := (row_in_bounds f row mem).trans data
  rw [bit_readRows_of_mem S F (rowsOf_nodup f) mem ((FieldRow.index_lt h).trans_le (row_len_le_width mem)),
    FieldRow.testBit_read inside h]

/-- Writing the rows read from a sequence gives its data positions back (R195). -/
theorem packBits_readRows (data : 6 * (f.size - 1) ≤ S.length) (disc : fieldRead S 3 2 false = f.bits.toNat) :
    packBits f (readRows (rowsOf f) S F) = S.take (6 * (f.size - 1)) := by
  have small : 3 + 2 ≤ 6 * (f.size - 1) := discriminator_inside f rfl
  have kept {k : Nat} (h : k < 6 * (f.size - 1)) : (S.take (6 * (f.size - 1))).getD k false = S.getD k false := by
    rw [List.getD_eq_getElem?_getD, List.getElem?_take_of_lt h, List.getD_eq_getElem?_getD]
  rw [fieldRead_discriminator (small.trans data), discriminator_eq_bits_iff] at disc
  obtain ⟨high, low⟩ := disc
  refine packBits_eq (List.length_take_of_le data) (fun k first => ?_) fun row mem k covers => ?_
  · rw [kept (by omega)]
    rcases first with rfl | rfl
    · exact high
    · exact low
  · have bound := row_in_bounds f row mem
    rw [kept (by omega), bit_readRows F mem data covers]

end

/-! #### Lanes of a plain secret -/

/-- The byte that six positions make (R151). -/
theorem ofNat_parseBits_six : ∀ a b c d e f : Bool,
    BitVec.ofNat 8 (parseBits [a, b, c, d, e, f]) = laneOf a b c d e f := by
  decide

/-- Byte `i` of a regrouping holds the positions `6i` to `6i + 5` (R151). -/
theorem getD_bitsToByteArray {S : List Bool} {n : Nat} (h : S.length = 6 * n) {i : Nat} (hi : i < n) :
    (bitsToByteArray S).getD i 0 = laneOf (S.getD (6 * i) false) (S.getD (6 * i + 1) false) (S.getD (6 * i + 2) false)
      (S.getD (6 * i + 3) false) (S.getD (6 * i + 4) false) (S.getD (6 * i + 5) false) := by
  induction n generalizing S i with
  | zero => omega
  | succ n ih =>
    obtain ⟨a, b, c, d, e, f, rest, rfl⟩ : ∃ a b c d e f rest, S = a :: b :: c :: d :: e :: f :: rest := by
      obtain _ | ⟨a, _ | ⟨b, _ | ⟨c, _ | ⟨d, _ | ⟨e, _ | ⟨f, rest⟩⟩⟩⟩⟩⟩ := S
      case cons.cons.cons.cons.cons.cons => exact ⟨a, b, c, d, e, f, rest, rfl⟩
      all_goals simp only [List.length_cons, List.length_nil] at h; omega
    rw [bitsToByteArray, ofNat_parseBits_six]
    cases i with
    | zero => rfl
    | succ i => exact ih (by simp only [List.length_cons] at h; omega) (Nat.lt_of_succ_lt_succ hi)

end Sys2Proof.Machine
end

section
/-! ### `PACK` (rules R171 to R174, R184 and R186 of `45_format_codecs.md`) -/

namespace Sys2Proof.Machine

theorem not_unencodable_iff {f : Format} {F : Fields} : ¬ unencodable f F = true ↔ Encodable f F := by
  simp only [unencodable, Encodable, decide_eq_true_eq, not_and, not_lt]

theorem unencodable_of_wide {f : Format} {F : Fields} (game : f = .game) (wide : 63 < F.behav.toNat) :
    unencodable f F = true :=
  decide_eq_true ⟨game, wide⟩

theorem Format.val_size (f : Format) : (Fin.ofNat 21 f.size).val = f.size := by
  cases f <;> rfl

theorem Format.size_pos (f : Format) : 0 < f.size := by
  cases f <;> decide

@[simp] theorem length_packBytes (f : Format) (F : Fields) : (packBytes f F).length = f.size := by
  rw [packBytes, List.length_append, length_bitsToByteArray _ _ (length_packBits f F)]
  exact Nat.sub_add_cancel f.size_pos

/-- The state that `PACK` leaves: the lanes hold the plain secret and `LEN` is the format's size. -/
def State.packed (s : State) : State := (s.storeSecret (packBytes s.ctrl.fmt s.fields)).succeed

theorem exec_pack {s : State} (h : Encodable s.ctrl.fmt s.fields) :
    exec .pack s = .next s.packed :=
  congrArg Host.Outcome.next (if_neg (not_unencodable_iff.2 h))

/-- Settles O47: both commands begin with the check of R186. -/
theorem wideBehaviourIsNotEncodable : Obligations.WideBehaviourIsNotEncodable := by
  intro s game wide
  have refused := unencodable_of_wide game wide
  exact ⟨congrArg Host.Outcome.next (if_pos refused), congrArg Host.Outcome.next (if_pos refused)⟩

section
variable {s : State} {f : Format} (fmt : s.ctrl.fmt = f)
include fmt

/-- The data lanes of a plain secret, bit by bit. -/
theorem packed_data_lane {i : Nat} (lane : i < 20) (data : i < f.size - 1) :
    s.packed.buf[i] = laneOf (layoutBit f s.fields (6 * i)) (layoutBit f s.fields (6 * i + 1))
      (layoutBit f s.fields (6 * i + 2)) (layoutBit f s.fields (6 * i + 3)) (layoutBit f s.fields (6 * i + 4))
      (layoutBit f s.fields (6 * i + 5)) := by
  subst fmt
  have whole := length_packBits s.ctrl.fmt s.fields
  have first : i < (bitsToByteArray (packBits s.ctrl.fmt s.fields)).length := by rwa [length_bitsToByteArray _ _ whole]
  have covered : i < (packBytes s.ctrl.fmt s.fields).length := by
    rw [length_packBytes]
    omega
  calc s.packed.buf[i] = (packBytes s.ctrl.fmt s.fields)[i] := getElem_overlay_of_lt covered s.buf lane
    _ = (bitsToByteArray (packBits s.ctrl.fmt s.fields)).getD i 0 := by
      rw [List.getD_eq_getElem _ _ first]
      exact List.getElem_append_left first
    _ = _ := by
      rw [getD_bitsToByteArray whole data]
      repeat rw [getD_packBits_eq_layoutBit _ _ (by omega)]

/-- The last lane of a plain secret is 0 (R183). -/
theorem packed_last_lane {i : Nat} (lane : i < 20) (last : i = f.size - 1) : s.packed.buf[i] = 0 := by
  subst fmt last
  have data := length_bitsToByteArray _ _ (length_packBits s.ctrl.fmt s.fields)
  have covered : s.ctrl.fmt.size - 1 < (packBytes s.ctrl.fmt s.fields).length := by
    simpa using Nat.sub_lt s.ctrl.fmt.size_pos Nat.one_pos
  refine (getElem_overlay_of_lt covered s.buf lane).trans ?_
  simp only [packBytes]
  rw [List.getElem_append_right data.le]
  simp [data]

/-- Lanes above the secret stay (R184). -/
theorem packed_lane_above {i : Fin 20} (above : f.size ≤ i.val) : s.packed.buf[i] = s.buf[i] := by
  subst fmt
  exact getElem_overlay_of_le (by rwa [length_packBytes]) s.buf i.isLt

/-- Nothing but the lanes, `LEN` and `ERR` changes. -/
theorem packed_frame : s.packed = { s with buf := s.packed.buf, len := Fin.ofNat 21 f.size, status := s.okStatus } := by
  subst fmt
  rfl

end

/-- Settles O44: nineteen data lanes, whose bits `layoutBit` finds in the rows of the Game layout, and the last lane. -/
theorem packLaysOutAGameSecret : Obligations.PackLaysOutAGameSecret := by
  intro s fmt narrow K G L C B M FL
  have lane (i : Nat) (data : i < 19) := packed_data_lane fmt (data.trans (by decide)) data
  refine ⟨s.packed, exec_pack fun _ => narrow, packed_frame fmt, ?_⟩
  exact ⟨lane 0 (by decide), lane 1 (by decide), lane 2 (by decide), lane 3 (by decide), lane 4 (by decide),
    lane 5 (by decide), lane 6 (by decide), lane 7 (by decide), lane 8 (by decide), lane 9 (by decide),
    lane 10 (by decide), lane 11 (by decide), lane 12 (by decide), lane 13 (by decide), lane 14 (by decide),
    lane 15 (by decide), lane 16 (by decide), lane 17 (by decide), lane 18 (by decide),
    packed_last_lane fmt (by decide) rfl⟩

/-- Settles O45, as for the Game layout. -/
theorem packLaysOutARingSecret : Obligations.PackLaysOutARingSecret := by
  intro s fmt K G R
  have lane (i : Nat) (data : i < 14) := packed_data_lane fmt (data.trans (by decide)) data
  refine ⟨s.packed, exec_pack fun game => ?_, packed_frame fmt, ?_⟩
  · simp [fmt] at game
  exact ⟨lane 0 (by decide), lane 1 (by decide), lane 2 (by decide), lane 3 (by decide), lane 4 (by decide),
    lane 5 (by decide), lane 6 (by decide), lane 7 (by decide), lane 8 (by decide), lane 9 (by decide),
    lane 10 (by decide), lane 11 (by decide), lane 12 (by decide), lane 13 (by decide),
    packed_last_lane fmt (by decide) rfl, fun _ => packed_lane_above fmt⟩

/-- Settles O46, as for the Game layout. -/
theorem packLaysOutAMemorySecret : Obligations.PackLaysOutAMemorySecret := by
  intro s fmt K G M
  have lane (i : Nat) (data : i < 4) := packed_data_lane fmt (data.trans (by decide)) data
  refine ⟨s.packed, exec_pack fun game => ?_, packed_frame fmt, ?_⟩
  · simp [fmt] at game
  exact ⟨lane 0 (by decide), lane 1 (by decide), lane 2 (by decide), lane 3 (by decide),
    packed_last_lane fmt (by decide) rfl, fun _ => packed_lane_above fmt⟩

end Sys2Proof.Machine
end

section
/-! ### `UNPACK` (rules R176 to R182 and R185 of `45_format_codecs.md`) -/

namespace Sys2Proof.Machine

/-! #### Names (R177) -/

theorem getElem_padTail (l : List Byte) (i : Nat) (h : i < (padTail l).length) :
    (padTail l)[i] = if ∀ b ∈ l.drop i, b = 0 then padch else l[i]'(by rwa [length_padTail] at h) := by
  induction l generalizing i with
  | nil => simp [padTail] at h
  | cons b rest ih =>
    cases i with
    | zero => simp [padTail]
    | succ i => simpa only [padTail, List.getElem_cons_succ, List.drop_succ_cons] using ih i _

theorem isPadded_padName (n : Vector Byte 5) : IsPadded n (padName n) := by
  intro i
  have tail : (∀ b ∈ n.toList.drop i.val, b = 0) ↔ ∀ j : Fin 5, i ≤ j → n[j] = 0 := by
    simp only [List.mem_drop_iff_getElem, Vector.length_toList, Vector.getElem_toList]
    constructor
    · intro zero j above
      have position : i.val + (j.val - i.val) = j.val := Nat.add_sub_cancel' above
      exact zero _ ⟨j.val - i.val, by omega, by simp only [position]; rfl⟩
    · rintro zero _ ⟨k, bound, rfl⟩
      exact zero ⟨i.val + k, by omega⟩ (Nat.le_add_right ..)
  simp only [padName, Fin.getElem_fin, Vector.getElem_mk, List.getElem_toArray, getElem_padTail, tail]
  rfl

/-- Only a name that ends in a null is changed (R178). -/
theorem padName_eq_self_iff (n : Vector Byte 5) : padName n = n ↔ n[4] ≠ 0 := by
  have padded := isPadded_padName n
  constructor
  · intro same null
    have last := padded 4
    have tail (j : Fin 5) (above : 4 ≤ j) : n[j] = 0 := by
      obtain rfl : j = 4 := Fin.le_antisymm (Fin.le_last j) above
      exact null
    rw [same, if_pos tail] at last
    exact absurd (null.symm.trans last) (by decide)
  · intro end_ne
    ext i hi : 1
    exact (padded ⟨i, hi⟩).trans (if_neg fun null => end_ne (null 4 (Fin.le_last _)))

/-! #### The Memory mask (R175, R176) -/

theorem memoryMask_bits : ∀ tgt ret : Bool,
    (memoryMask tgt ret).getLsbD 1 = ret ∧ (memoryMask tgt ret).getLsbD 0 = (ret != tgt) := by
  decide

section
variable (S : List Bool) (F : Fields)

theorem readMask_return : (readMask S F).flags.getLsbD 4 = S.getD 24 false := by
  simp [readMask, getLsbD_putSlice, testBit_boolToNat, -BitVec.getLsbD_eq_getElem, -Nat.testBit_zero]

theorem readMask_tgt : (readMask S F).flags.getLsbD 1 = (S.getD 24 false != S.getD 25 false) := by
  simp [readMask, getLsbD_putSlice, testBit_boolToNat, -BitVec.getLsbD_eq_getElem, -Nat.testBit_zero]

theorem readMask_other {k : Nat} (notReturn : k ≠ 4) (notTgt : k ≠ 1) :
    (readMask S F).flags.getLsbD k = F.flags.getLsbD k := by
  simp only [readMask, getLsbD_putSlice]
  rw [if_neg (by omega), if_neg (by omega)]

/-- The mask of the registers just read is the mask that was read. -/
theorem readMask_mask :
    (readMask S F).mask.getLsbD 1 = S.getD 24 false ∧ (readMask S F).mask.getLsbD 0 = S.getD 25 false := by
  obtain ⟨high, low⟩ := memoryMask_bits ((readMask S F).flags.getLsbD 1) ((readMask S F).flags.getLsbD 4)
  refine ⟨high.trans (readMask_return S F), low.trans ?_⟩
  rw [readMask_return, readMask_tgt]
  cases S.getD 24 false <;> simp

end

/-- Reading the registers' own mask changes no register. -/
theorem readMask_eq_self {S : List Bool} {F : Fields} (high : S.getD 24 false = F.mask.getLsbD 1)
    (low : S.getD 25 false = F.mask.getLsbD 0) : readMask S F = F := by
  obtain ⟨return_eq, tgt_eq⟩ := memoryMask_bits (F.flags.getLsbD 1) (F.flags.getLsbD 4)
  have flags : (readMask S F).flags = F.flags := by
    refine BitVec.eq_of_getLsbD_eq fun k _ => ?_
    by_cases ret : k = 4
    · rw [ret, readMask_return, high, Fields.mask, return_eq]
    by_cases tgt : k = 1
    · rw [tgt, readMask_tgt, high, low, Fields.mask, return_eq, tgt_eq]
      cases F.flags.getLsbD 4 <;> simp
    exact readMask_other S F ret tgt
  exact congrArg (fun flags => { F with flags }) flags

/-! #### The record (R180, R181) -/

section
variable (S : List Bool) (F : Fields)

/-- A Game secret's names are padded after its rows are read. -/
theorem extract_game : extract .game S F =
    { readRows (rowsOf .game) S F with
      link := padName (readRows (rowsOf .game) S F).link, child := padName (readRows (rowsOf .game) S F).child } := rfl

theorem extract_ring : extract .ring S F = readRows (rowsOf .ring) S F := rfl

/-- A Ring secret writes three registers (R185). -/
theorem extract_ring_frame : extract .ring S F =
    { F with
      keysel := (extract .ring S F).keysel, gameId := (extract .ring S F).gameId, rings := (extract .ring S F).rings } :=
  rfl

/-- A Game secret has six bits of `BEHAV` (R172). -/
theorem behav_readRows_le : (readRows (rowsOf .game) S F).behav.toNat ≤ 63 :=
  (Nat.mod_le ..).trans (Nat.le_of_lt_succ (fieldRead_lt S 54 6 true))

/-- A Memory secret's mask is read after its rows. -/
theorem extract_memory_eq : extract .memory S F = readMask S (readRows (rowsOf .memory) S F) := rfl

end

section
variable {f : Format} {S : List Bool} (F : Fields) (data : 6 * (f.size - 1) ≤ S.length)
include data

/-- A register read with its least significant bit first (R60, R180). -/
theorem bit_readRows_rev {off len : Nat} {reg : FieldReg} (mem : ⟨off, len, true, reg⟩ ∈ rowsOf f) {j : Nat}
    (h : j < len) :
    reg.bit (readRows (rowsOf f) S F) j = S.getD (off + j) false := by
  have bit := bit_readRows F mem data (k := off + j) (by constructor <;> simp only <;> omega)
  simpa only [FieldRow.index, if_true, Nat.add_sub_cancel_left] using bit

/-- A register read with its most significant bit first (R59, R180). -/
theorem bit_readRows_fwd {off len : Nat} {reg : FieldReg} (mem : ⟨off, len, false, reg⟩ ∈ rowsOf f) {j : Nat}
    (h : j < len) :
    reg.bit (readRows (rowsOf f) S F) j = S.getD (off + (len - 1 - j)) false := by
  have bit := bit_readRows F mem data (k := off + (len - 1 - j)) (by constructor <;> simp only <;> omega)
  have index : len - 1 - (off + (len - 1 - j) - off) = j := by omega
  simpa only [FieldRow.index, Bool.false_eq_true, if_false, index] using bit

theorem getLsbD_extract_keysel {j : Nat} (h : j < 3) : (extract f S F).keysel.getLsbD j = S.getD (2 - j) false := by
  have same : (extract f S F).keysel = (readRows (rowsOf f) S F).keysel := by cases f <;> rfl
  have bit := bit_readRows_fwd F data (header_rows f).1 h
  rw [Nat.zero_add] at bit
  rw [same]
  exact bit

theorem getLsbD_extract_gameId {j : Nat} (h : j < 15) : (extract f S F).gameId.getLsbD j = S.getD (5 + j) false := by
  have same : (extract f S F).gameId = (readRows (rowsOf f) S F).gameId := by cases f <;> rfl
  rw [same]
  exact bit_readRows_rev F data (header_rows f).2 h

end

theorem gameId_eq_ones_iff (g : BitVec 15) : g.toNat = 32767 ↔ ∀ j < 15, g.getLsbD j = true := by
  constructor
  · intro ones j hj
    rw [BitVec.getLsbD, ones, show 32767 = 2 ^ 15 - 1 from rfl, Nat.testBit_two_pow_sub_one]
    exact decide_eq_true hj
  · intro ones
    have : g = BitVec.allOnes 15 := BitVec.eq_of_getLsbD_eq fun j hj => by
      rw [ones j hj, BitVec.getLsbD_allOnes, decide_eq_true hj]
    rw [this]
    rfl

theorem nine_lt_iff : ∀ m : BitVec 4,
    9 < m.toNat ↔ m.getLsbD 3 = true ∧ (m.getLsbD 2 = true ∨ m.getLsbD 1 = true) := by
  decide

/-- The range check in terms of the positions of the secret (R181). -/
theorem recordOutOfRange_extract_iff {f : Format} {S : List Bool} (F : Fields) (data : 6 * (f.size - 1) ≤ S.length) :
    recordOutOfRange f (extract f S F) = true ↔ (∀ j < 15, S.getD (5 + j) false = true) ∨
      (f = .memory ∧ S.getD 23 false = true ∧ (S.getD 22 false = true ∨ S.getD 21 false = true)) := by
  have gameId : (extract f S F).gameId.toNat = 32767 ↔ ∀ j < 15, S.getD (5 + j) false = true := by
    rw [gameId_eq_ones_iff]
    exact forall₂_congr fun j hj => by rw [getLsbD_extract_gameId F data hj]
  have memory (h : f = .memory) : 9 < (extract f S F).memory.toNat ↔
      S.getD 23 false = true ∧ (S.getD 22 false = true ∨ S.getD 21 false = true) := by
    subst h
    have bit {j : Nat} (hj : j < 4) : (extract .memory S F).memory.getLsbD j = S.getD (20 + j) false :=
      bit_readRows_rev (f := .memory) F data (reg := .memory) (by decide) hj
    rw [nine_lt_iff, bit (by decide), bit (by decide), bit (by decide)]
  rw [recordOutOfRange, decide_eq_true_eq, gameId]
  exact or_congr_right (and_congr_right memory)

/-! #### The ways `UNPACK` ends (R182) -/

section
variable {T : List Byte} (s : State)

theorem takeRecord_of_discriminator_ne (h : fieldRead (bitString T) 3 2 false ≠ s.ctrl.fmt.bits.toNat) :
    takeRecord T s = s.raiseDiscriminator := if_pos h

theorem takeRecord_of_outOfRange (disc : fieldRead (bitString T) 3 2 false = s.ctrl.fmt.bits.toNat)
    (h : recordOutOfRange s.ctrl.fmt (extract s.ctrl.fmt (bitString T) s.fields) = true) :
    takeRecord T s = s.raise .fieldRange := (if_neg (not_not.2 disc)).trans (if_pos h)

theorem takeRecord_of_inRange (disc : fieldRead (bitString T) 3 2 false = s.ctrl.fmt.bits.toNat)
    (h : ¬ recordOutOfRange s.ctrl.fmt (extract s.ctrl.fmt (bitString T) s.fields) = true) :
    takeRecord T s = { s with fields := extract s.ctrl.fmt (bitString T) s.fields, status := s.okStatus } :=
  (if_neg (not_not.2 disc)).trans (if_neg h)

variable {s}

theorem exec_unpack_of_len_ne (h : s.len.val ≠ s.ctrl.fmt.size) :
    exec .unpack s = .next { s with status := s.errStatus 1 } :=
  congrArg Host.Outcome.next (if_pos h)

theorem exec_unpack_of_len_eq (h : s.len.val = s.ctrl.fmt.size) (bytes : s.bytes = T) :
    exec .unpack s = .next (takeRecord T s) := by
  subst bytes
  exact congrArg Host.Outcome.next (if_neg (not_not.2 h))

end

/-! #### In terms of the buffer -/

section
variable {s : State} {f : Format} (fmt : s.ctrl.fmt = f) (len : s.len.val = f.size)

include len in
theorem data_in_bytes : 6 * (f.size - 1) ≤ (bitString s.bytes).length := by
  rw [length_bitString, State.length_bytes, len]
  omega

include len in
/-- A data position of the buffer. -/
theorem getD_bytes_of_len_eq {k : Nat} (h : k < 6 * f.size) : (bitString s.bytes).getD k false = s.bitAt k :=
  bitString_bytes_getD (len ▸ h)

include len in
theorem fieldRead_bytes_discriminator :
    fieldRead (bitString s.bytes) 3 2 false = 2 * (s.bitAt 3).toNat + (s.bitAt 4).toNat := by
  have large : 4 < 6 * f.size := by cases f <;> decide
  rw [fieldRead_discriminator ((discriminator_inside f rfl).trans (data_in_bytes len)),
    getD_bytes_of_len_eq len (by omega), getD_bytes_of_len_eq len large]

include len in
theorem recordOutOfRange_bytes_iff (F : Fields) :
    recordOutOfRange f (extract f (bitString s.bytes) F) = true ↔ (∀ j < 15, s.bitAt (5 + j) = true) ∨
      (f = .memory ∧ s.bitAt 23 = true ∧ (s.bitAt 22 = true ∨ s.bitAt 21 = true)) := by
  have large : 23 < 6 * f.size := by cases f <;> decide
  rw [recordOutOfRange_extract_iff F (data_in_bytes len), getD_bytes_of_len_eq len large,
    getD_bytes_of_len_eq len (by omega), getD_bytes_of_len_eq len (by omega)]
  exact or_congr_left (forall₂_congr fun j hj => by rw [getD_bytes_of_len_eq len (by omega)])

section
include len
variable (F : Fields) {j : Nat}

/-- A register that a row reads with its least significant bit first, in terms of the buffer. -/
theorem bit_readRows_bytes_rev {off n : Nat} {reg : FieldReg} (mem : ⟨off, n, true, reg⟩ ∈ rowsOf f) (h : j < n) :
    reg.bit (readRows (rowsOf f) (bitString s.bytes) F) j = s.bitAt (off + j) := by
  have inside : off + n ≤ 6 * (f.size - 1) := row_in_bounds f _ mem
  rw [bit_readRows_rev F (data_in_bytes len) mem h, getD_bytes_of_len_eq len (by omega)]

/-- The same with the most significant bit first. -/
theorem bit_readRows_bytes_fwd {off n : Nat} {reg : FieldReg} (mem : ⟨off, n, false, reg⟩ ∈ rowsOf f) (h : j < n) :
    reg.bit (readRows (rowsOf f) (bitString s.bytes) F) j = s.bitAt (off + (n - 1 - j)) := by
  have inside : off + n ≤ 6 * (f.size - 1) := row_in_bounds f _ mem
  rw [bit_readRows_fwd F (data_in_bytes len) mem h, getD_bytes_of_len_eq len (by omega)]

/-- The header's two fields, whatever the format (R171). -/
theorem keysel_of_bytes (h : j < 3) : (extract f (bitString s.bytes) F).keysel.getLsbD j = s.bitAt (2 - j) := by
  have large : 2 < 6 * f.size := by cases f <;> decide
  rw [getLsbD_extract_keysel F (data_in_bytes len) h, getD_bytes_of_len_eq len (by omega)]

theorem gameId_of_bytes (h : j < 15) : (extract f (bitString s.bytes) F).gameId.getLsbD j = s.bitAt (5 + j) := by
  have large : 19 < 6 * f.size := by cases f <;> decide
  rw [getLsbD_extract_gameId F (data_in_bytes len) h, getD_bytes_of_len_eq len (by omega)]

end

include fmt len in
/-- `UNPACK` of a secret that passes the three checks of R182. -/
theorem exec_unpack (disc : s.bitAt 3 = f.bits.getLsbD 1 ∧ s.bitAt 4 = f.bits.getLsbD 0)
    (gameId : ∃ j < 15, s.bitAt (5 + j) = false)
    (memory : f = .memory → s.bitAt 23 = false ∨ (s.bitAt 22 = false ∧ s.bitAt 21 = false)) :
    exec .unpack s = .next { s with fields := extract f (bitString s.bytes) s.fields, status := s.okStatus } := by
  subst fmt
  have spelled : fieldRead (bitString s.bytes) 3 2 false = s.ctrl.fmt.bits.toNat := by
    rwa [fieldRead_bytes_discriminator len, discriminator_eq_bits_iff]
  have inRange : ¬ recordOutOfRange s.ctrl.fmt (extract s.ctrl.fmt (bitString s.bytes) s.fields) = true := by
    rw [recordOutOfRange_bytes_iff len]
    rintro (ones | ⟨isMemory, high, large⟩)
    · obtain ⟨j, hj, zero⟩ := gameId
      simp [ones j hj] at zero
    · rcases memory isMemory with zero | ⟨zero, zero'⟩
      · simp [high] at zero
      · simp [zero, zero'] at large
  rw [exec_unpack_of_len_eq len rfl, takeRecord_of_inRange s spelled inRange]

end

/-- Settles O48: the three checks of R182 in their order, in terms of the buffer's positions. -/
theorem unpackChecksInOrder : Obligations.UnpackChecksInOrder := by
  intro s N F disc bad
  have size : N = s.ctrl.fmt.size := by
    simp only [N]
    cases s.ctrl.fmt <;> rfl
  have bits : F = s.ctrl.fmt.bits := by
    simp only [F]
    cases s.ctrl.fmt <;> rfl
  rw [size, bits]
  refine ⟨exec_unpack_of_len_ne, fun len differs => ?discriminator, fun len spelled outOfRange => ?range⟩
  case discriminator =>
    rw [exec_unpack_of_len_eq len rfl, takeRecord_of_discriminator_ne s (by rwa [fieldRead_bytes_discriminator len])]
    rfl
  case range =>
    rw [exec_unpack_of_len_eq len rfl, takeRecord_of_outOfRange s (by rwa [fieldRead_bytes_discriminator len])
      ((recordOutOfRange_bytes_iff len _).2 outOfRange)]
    rfl

/-- The rows of the names in the Game layout, by their offsets (R172). -/
theorem link_rows : ∀ n : Fin 5, ⟨[22, 38, 60, 77, 89][n], 8, true, .link n⟩ ∈ rowsOf .game := by
  decide

theorem child_rows : ∀ n : Fin 5, ⟨[30, 46, 68, 97, 106][n], 8, true, .child n⟩ ∈ rowsOf .game := by
  decide

/-- The rows of the ring bytes, by their offsets (R173). -/
theorem ring_rows : ∀ n : Fin 8, ⟨[36, 76, 28, 60, 44, 68, 20, 52][n], 8, true, .ring n⟩ ∈ rowsOf .ring := by
  decide

/-- Settles O49: each register is its row of the Game layout, and the names are padded afterwards. -/
theorem unpackReadsAGameSecret : Obligations.UnpackReadsAGameSecret := by
  intro s fmt len high low gameId
  have len : s.len.val = Format.game.size := by rw [len]; rfl
  have flag {off : Nat} {reg : FieldReg} (mem : ⟨off, 1, false, reg⟩ ∈ rowsOf .game) :
      reg.bit (readRows (rowsOf .game) (bitString s.bytes) s.fields) 0 = s.bitAt off :=
    (bit_readRows_bytes_fwd len s.fields mem Nat.one_pos).trans (congrArg s.bitAt (Nat.add_zero off))
  have sixBits : (extract .game (bitString s.bytes) s.fields).behav.toNat ≤ 63 := by
    rw [extract_game]
    exact behav_readRows_le (bitString s.bytes) s.fields
  refine ⟨extract .game (bitString s.bytes) s.fields, (readRows (rowsOf .game) (bitString s.bytes) s.fields).link,
    (readRows (rowsOf .game) (bitString s.bytes) s.fields).child, exec_unpack fmt len ⟨high, low⟩ gameId nofun,
    fun _ => keysel_of_bytes len s.fields, fun _ => gameId_of_bytes len s.fields, ?_⟩
  exact ⟨flag (reg := .hero) (by decide), flag (reg := .tgt) (by decide), flag (reg := .freering) (by decide),
    flag (reg := .linked) (by decide), readRows_return .., sixBits,
    fun _ => bit_readRows_bytes_rev len s.fields (reg := .behav) (by decide),
    fun _ => bit_readRows_bytes_rev len s.fields (reg := .companion) (by decide),
    fun n _ => bit_readRows_bytes_rev len s.fields (link_rows n),
    fun n _ => bit_readRows_bytes_rev len s.fields (child_rows n), isPadded_padName _, isPadded_padName _, rfl, rfl⟩

/-- Settles O50: each register is its row of the Ring layout. -/
theorem unpackReadsARingSecret : Obligations.UnpackReadsARingSecret := by
  intro s fmt len high low gameId
  have len : s.len.val = Format.ring.size := by rw [len]; rfl
  refine ⟨(extract .ring (bitString s.bytes) s.fields).keysel, (extract .ring (bitString s.bytes) s.fields).gameId,
    (extract .ring (bitString s.bytes) s.fields).rings, ?_, fun _ => keysel_of_bytes len s.fields,
    fun _ => gameId_of_bytes len s.fields, fun n j hj => ?_⟩
  · rw [← extract_ring_frame]
    exact exec_unpack fmt len ⟨high, low⟩ gameId nofun
  · have bit := bit_readRows_bytes_rev len s.fields (ring_rows n) hj
    rwa [FieldReg.bit, decide_eq_true hj, Bool.true_and] at bit

/-- Settles O51: the three rows of the Memory layout, and the mask in the last lane. -/
theorem unpackReadsAMemorySecret : Obligations.UnpackReadsAMemorySecret := by
  intro s fmt len high low gameId memory
  have len : s.len.val = Format.memory.size := by rw [len]; rfl
  have position {k : Nat} (h : k < 30) : (bitString s.bytes).getD k false = s.bitAt k := getD_bytes_of_len_eq len h
  refine ⟨(extract .memory (bitString s.bytes) s.fields).keysel, (extract .memory (bitString s.bytes) s.fields).gameId,
    (extract .memory (bitString s.bytes) s.fields).memory, (extract .memory (bitString s.bytes) s.fields).flags,
    exec_unpack fmt len ⟨high, low⟩ gameId fun _ => memory, fun _ => keysel_of_bytes len s.fields,
    fun _ => gameId_of_bytes len s.fields, fun j hj => ?_, ?_, ?_, readMask_other _ _ (by decide) (by decide),
    readMask_other _ _ (by decide) (by decide), readMask_other _ _ (by decide) (by decide)⟩
  · rw [extract_memory_eq]
    exact bit_readRows_bytes_rev len s.fields (off := 20) (n := 4) (reg := .memory) (by decide) hj
  · exact (readMask_return ..).trans (position (by decide))
  · rw [extract_memory_eq, readMask_tgt, position (by decide), position (by decide)]
    exact bne_eq_false_iff_eq

end Sys2Proof.Machine
end

section
/-! ### `LOAD` (rules R190 and R191 of `45_format_codecs.md`) -/

namespace Sys2Proof.Machine

section
variable {c : Config} {s : State}

theorem loadUnder_of_len_ne (h : s.len.val ≠ s.ctrl.fmt.size) : loadUnder c s = { s with status := s.errStatus 1 } :=
  if_pos h

variable {T : List Byte} (len : s.len.val = s.ctrl.fmt.size) (plain : cipher c s.ctrl.region s.bytes = T)
include len plain

theorem loadUnder_of_checksum_ne (h : calcNibble T ≠ storedNibble T) :
    loadUnder c s = (s.recordChk T).raise .checksum := by
  subst plain
  exact (if_neg (not_not.2 len)).trans (if_pos h)

theorem loadUnder_of_checksum_eq (h : calcNibble T = storedNibble T) : loadUnder c s = takeRecord T (s.recordChk T) := by
  subst plain
  exact (if_neg (not_not.2 len)).trans (if_neg (not_not.2 h))

end

/-! #### `LOAD` as a sequence (R191) -/

/-- Taking a record does not look at the lanes or at the last outcome. -/
theorem takeRecord_with_buf (T : List Byte) (buf : Vector Byte 20) (s : State) :
    { takeRecord T { s with buf := buf, status := s.okStatus } with buf := s.buf } = takeRecord T s := by
  generalize other : { s with buf := buf, status := s.okStatus } = t
  have fmt : t.ctrl = s.ctrl := by rw [← other]
  have fields : t.fields = s.fields := by rw [← other]
  by_cases disc : fieldRead (bitString T) 3 2 false = s.ctrl.fmt.bits.toNat
  · by_cases range : recordOutOfRange s.ctrl.fmt (extract s.ctrl.fmt (bitString T) s.fields) = true
    · rw [takeRecord_of_outOfRange s disc range, takeRecord_of_outOfRange t (by rwa [fmt]) (by rwa [fmt, fields]),
        ← other]
      rfl
    · rw [takeRecord_of_inRange s disc range, takeRecord_of_inRange t (by rwa [fmt]) (by rwa [fmt, fields]), ← other]
      rfl
  · rw [takeRecord_of_discriminator_ne s disc, takeRecord_of_discriminator_ne t (by rwa [fmt]), ← other]
    rfl

theorem State.len_ne_zero_of_size {s : State} (len : s.len.val = s.ctrl.fmt.size) : s.len ≠ 0 := fun empty =>
  s.ctrl.fmt.size_pos.ne' (len.symm.trans (congrArg Fin.val empty))

/-- `DECIPH` with a valid lane, and the array that the next command sees. -/
theorem exec_deciph {s : State} (nonempty : 0 < s.len.val) {T : List Byte}
    (plain : cipher Config.chip s.ctrl.region s.bytes = T) :
    exec .deciph s = .next (s.storeBytes T).succeed ∧ (s.storeBytes T).bytes = T := by
  subst plain
  refine ⟨?_, s.bytes_storeBytes _ (by simp)⟩
  rw [exec_cipher (.inl rfl), cipherBuffer_of_len_pos _ nonempty]

/-- Settles O52: the checksum is taken of the same bytes, and so is the record. -/
theorem loadIsDeciphCkvfyUnpackWithTheBufferKept : Obligations.LoadIsDeciphCkvfyUnpackWithTheBufferKept := by
  intro s N
  have size : N = s.ctrl.fmt.size := by
    simp only [N]
    cases s.ctrl.fmt <;> rfl
  rw [size]
  refine ⟨fun h => congrArg Host.Outcome.next (loadUnder_of_len_ne h), fun len => ?_⟩
  obtain ⟨T, plain⟩ : ∃ T, cipher Config.chip s.ctrl.region s.bytes = T := ⟨_, rfl⟩
  obtain ⟨deciph, seen⟩ := exec_deciph (len ▸ s.ctrl.fmt.size_pos) plain
  have ckvfy := exec_ckvfy_of_len_ne_zero (s := (s.storeBytes T).succeed) (State.len_ne_zero_of_size len)
  rw [show (s.storeBytes T).succeed.bytes = T from seen] at ckvfy
  by_cases sums : calcNibble T = storedNibble T
  · rw [if_pos sums] at ckvfy
    refine ⟨_, _, _, deciph, ckvfy, exec_unpack_of_len_eq len seen, congrArg Host.Outcome.next ?_⟩
    rw [if_pos (State.okStatus_err _), loadUnder_of_checksum_eq len plain sums]
    exact (takeRecord_with_buf T _ (s.recordChk T)).symm
  · rw [if_neg sums] at ckvfy
    refine ⟨_, _, _, deciph, ckvfy, exec_unpack_of_len_eq len seen, congrArg Host.Outcome.next ?_⟩
    exact loadUnder_of_checksum_ne len plain sums

/-! #### A secret that `LOAD` accepts (R190) -/

/-- `T`, the plain bytes of the buffer, passes the four checks of R190. -/
structure State.Accepts (s : State) (T : List Byte) : Prop where
  len : s.len.val = s.ctrl.fmt.size
  checksum : calcNibble T = storedNibble T
  discriminator : fieldRead (bitString T) 3 2 false = s.ctrl.fmt.bits.toNat
  inRange : ¬ recordOutOfRange s.ctrl.fmt (extract s.ctrl.fmt (bitString T) s.fields) = true

/-- The state after `LOAD` of the plain bytes `T`. -/
def State.loaded (T : List Byte) (s : State) : State :=
  { s with
    chk := storedNibble T ++ calcNibble T
    fields := extract s.ctrl.fmt (bitString T) s.fields
    status := s.okStatus }

section
variable {c : Config} {s : State} {T : List Byte} (plain : cipher c s.ctrl.region s.bytes = T)
include plain

theorem loadUnder_of_accepts (h : s.Accepts T) : loadUnder c s = s.loaded T := by
  rw [loadUnder_of_checksum_eq h.len plain h.checksum]
  exact takeRecord_of_inRange (s.recordChk T) h.discriminator h.inRange

/-- `LOAD` ends without error only when the four checks pass. -/
theorem accepts_of_err_eq_zero (ok : (loadUnder c s).status.err = 0) : s.Accepts T := by
  by_cases len : s.len.val = s.ctrl.fmt.size
  swap
  · rw [loadUnder_of_len_ne len] at ok
    exact absurd ok (ErrorKind.code_ne_zero .lengthError)
  by_cases sums : calcNibble T = storedNibble T
  swap
  · rw [loadUnder_of_checksum_ne len plain sums] at ok
    exact absurd ok (ErrorKind.code_ne_zero .checksum)
  rw [loadUnder_of_checksum_eq len plain sums] at ok
  by_cases disc : fieldRead (bitString T) 3 2 false = s.ctrl.fmt.bits.toNat
  swap
  · rw [takeRecord_of_discriminator_ne (s.recordChk T) disc] at ok
    exact absurd ok (ErrorKind.code_ne_zero .discriminator)
  refine ⟨len, sums, disc, fun range => ?_⟩
  rw [takeRecord_of_outOfRange (s.recordChk T) disc range] at ok
  exact absurd ok (ErrorKind.code_ne_zero .fieldRange)

end

theorem not_recordOutOfRange {f : Format} {F : Fields} (gameId : F.gameId.toNat ≤ 32766)
    (memory : f = .memory → F.memory.toNat ≤ 9) : ¬ recordOutOfRange f F = true := by
  simp only [recordOutOfRange, decide_eq_true_eq, not_or, not_and, not_lt]
  exact ⟨by omega, memory⟩

/-- Settles O53: its hypotheses are the four checks. -/
theorem loadCompletesOnAValidSecret : Obligations.LoadCompletesOnAValidSecret := by
  intro s T F len checksum disc gameId memory
  exact congrArg Host.Outcome.next
    (loadUnder_of_accepts rfl ⟨len, checksum, disc, not_recordOutOfRange gameId memory⟩)

end Sys2Proof.Machine
end

section
/-! ### `ENCODE` (rules R175, R194 and R196 of `45_format_codecs.md`) -/

namespace Sys2Proof.Machine

/-- The plain secret of the field registers with its checksum and mask: what `ENCODE` ciphers (R194). -/
def State.sealedBytes (s : State) : List Byte :=
  sealBytes (encodeMask s.ctrl.fmt s.fields) (packBytes s.ctrl.fmt s.fields)

/-- The state after `PACK` and `CKWR`. -/
def State.sealed (s : State) : State := (s.storeSecret s.sealedBytes).succeed

/-- The state after `ENCODE`. -/
def State.encoded (s : State) : State :=
  (s.storeSecret (cipher Config.chip s.ctrl.region s.sealedBytes)).succeed

section
variable (s : State)

@[simp] theorem State.length_sealedBytes : s.sealedBytes.length = s.ctrl.fmt.size := by
  have nonempty : packBytes s.ctrl.fmt s.fields ≠ [] := by
    rw [← List.length_pos_iff, length_packBytes]
    exact s.ctrl.fmt.size_pos
  rw [sealedBytes, length_sealBytes _ _ nonempty, length_packBytes]

/-- A stored secret is what the next command sees. -/
theorem State.bytes_storeSecret {T : List Byte} (h : T.length = s.ctrl.fmt.size) : (s.storeSecret T).bytes = T :=
  State.bytes_storeBytes { s with len := Fin.ofNat 21 s.ctrl.fmt.size } T (h.trans s.ctrl.fmt.val_size.symm)

theorem State.bytes_packed : s.packed.bytes = packBytes s.ctrl.fmt s.fields :=
  s.bytes_storeSecret (length_packBytes ..)

theorem State.bytes_sealed : s.sealed.bytes = s.sealedBytes := s.bytes_storeSecret s.length_sealedBytes

theorem State.bytes_encoded : s.encoded.bytes = cipher Config.chip s.ctrl.region s.sealedBytes :=
  s.bytes_storeSecret ((length_cipher ..).trans s.length_sealedBytes)

/-- A secret stored over another of the same length leaves nothing of it. -/
theorem State.storeBytes_storeSecret {T U : List Byte} (h : T.length ≤ U.length) :
    ((s.storeSecret T).succeed.storeBytes U).succeed = (s.storeSecret U).succeed := by
  have lanes : overlay (overlay s.buf T) U = overlay s.buf U := overlay_overlay h s.buf
  calc ((s.storeSecret T).succeed.storeBytes U).succeed
      = { s with buf := overlay (overlay s.buf T) U, len := Fin.ofNat 21 s.ctrl.fmt.size, status := s.okStatus } := rfl
    _ = (s.storeSecret U).succeed := by rw [lanes]; rfl

theorem State.val_stored_len (T : List Byte) : (s.storeSecret T).len.val = s.ctrl.fmt.size := s.ctrl.fmt.val_size

theorem State.val_packed_len : s.packed.len.val = s.ctrl.fmt.size := s.val_stored_len (packBytes s.ctrl.fmt s.fields)

theorem State.val_sealed_len : s.sealed.len.val = s.ctrl.fmt.size := s.val_stored_len s.sealedBytes

theorem State.sealed_len_pos : 0 < s.sealed.len.val := s.val_sealed_len ▸ s.ctrl.fmt.size_pos

/-- `CKWR` of the format's mask after `PACK`. -/
theorem exec_ckwr_packed {m : BitVec 8} (small : m.toNat ≤ 3) (mask : m.setWidth 2 = encodeMask s.ctrl.fmt s.fields) :
    exec (.ckwr m) s.packed = .next s.sealed := by
  have nonempty : s.packed.len ≠ 0 := State.len_ne_zero_of_size s.val_packed_len
  have length : (packBytes s.ctrl.fmt s.fields).length ≤ s.sealedBytes.length := by simp
  rw [exec_ckwr_of_len_ne_zero small nonempty, mask, s.bytes_packed]
  exact congrArg Host.Outcome.next (s.storeBytes_storeSecret length)

/-- The cipher after that gives what `ENCODE` leaves. -/
theorem cipherBuffer_sealed : cipherBuffer Config.chip s.sealed = s.encoded := by
  rw [cipherBuffer_of_len_pos _ s.sealed_len_pos, s.bytes_sealed]
  exact s.storeBytes_storeSecret (length_cipher ..).ge

/-- `DECIPH` takes the cipher of `ENCODE` off again (R125). -/
theorem exec_deciph_encoded : exec .deciph s.encoded = .next s.sealed := by
  rw [exec_cipher (.inl rfl), ← cipherBuffer_sealed, cipherBuffer_cipherBuffer _ s.sealed_len_pos]
  rfl

end

theorem exec_encode {s : State} (h : Encodable s.ctrl.fmt s.fields) : exec .encode s = .next s.encoded :=
  congrArg Host.Outcome.next (if_neg (not_unencodable_iff.2 h))

/-- The mask of R175 as the operand of `CKWR`. -/
theorem memoryMask_operand : ∀ tgt ret : Bool,
    (BitVec.ofNat 8 (if tgt then 1 + ret.toNat else 3 * ret.toNat)).toNat ≤ 3 ∧
    (BitVec.ofNat 8 (if tgt then 1 + ret.toNat else 3 * ret.toNat)).setWidth 2 = memoryMask tgt ret := by
  decide

/-- Settles O54: the three commands go through `State.packed` and `State.sealed`. -/
theorem encodeIsPackCkwrEnciph : Obligations.EncodeIsPackCkwrEnciph := by
  intro s fits ret m
  obtain ⟨small, mask⟩ : (BitVec.ofNat 8 m).toNat ≤ 3 ∧
      (BitVec.ofNat 8 m).setWidth 2 = encodeMask s.ctrl.fmt s.fields := by
    by_cases memory : s.ctrl.fmt = .memory
    · simp only [m, encodeMask, if_pos memory]
      exact memoryMask_operand _ _
    · simp only [m, encodeMask, if_neg memory]
      decide
  refine ⟨s.packed, s.sealed, s.encoded, exec_pack fits, exec_ckwr_packed s small mask, ?_, rfl, exec_encode fits⟩
  rw [exec_cipher (.inr rfl), cipherBuffer_sealed]

/-- Settles O56: `DECIPH` gives the sealed bytes back, whose two nibbles agree. -/
theorem encodedSecretVerifies : Obligations.EncodedSecretVerifies := by
  intro s fits
  have agree : storedNibble s.sealedBytes = calcNibble s.sealedBytes := storedNibble_sealBytes ..
  have ckvfy := exec_ckvfy_of_len_ne_zero (s := s.sealed) (State.len_ne_zero_of_size s.val_sealed_len)
  rw [s.bytes_sealed, agree, if_pos rfl] at ckvfy
  refine ⟨s.encoded, s.sealed, _, exec_encode fits, exec_deciph_encoded s, ckvfy, rfl, ?_⟩
  rw [toNat_append_nibble]
  omega

end Sys2Proof.Machine
end

section
/-! ### `ENCODE` then `LOAD`, and `LOAD` then `ENCODE` (rules R177, R178 and R195 of `45_format_codecs.md`) -/

namespace Sys2Proof.Machine

/-! #### Bit sequences with something after the data positions -/

theorem fieldRead_append {A : List Bool} (C : List Bool) {off len : Nat} (h : off + len ≤ A.length) (rev : Bool) :
    fieldRead (A ++ C) off len rev = fieldRead A off len rev := by
  have same : substring (A ++ C) off len = substring A off len := by
    rw [substring, substring, List.drop_append_of_le_length (by omega),
      List.take_append_of_le_length (by rw [List.length_drop]; omega)]
  rw [fieldRead, fieldRead, reversedSubstring, reversedSubstring, same]

theorem bitString_append_singleton (A : List Byte) (b : Byte) : bitString (A ++ [b]) = bitString A ++ bin6 b := by
  simp [bitString]

/-- The two positions of the mask are bits 5 and 4 of the byte after the data (R174). -/
theorem getD_append_bin6 {A : List Bool} (length : A.length = 24) (b : Byte) :
    (A ++ bin6 b).getD 24 false = b.getLsbD 5 ∧ (A ++ bin6 b).getD 25 false = b.getLsbD 4 := by
  constructor <;> rw [List.getD_append_right _ _ _ _ (by omega), length] <;> rfl

/-- The mask above a nibble (R139, R194). -/
theorem getLsbD_sealedByte (m : BitVec 2) (n : Nibble) :
    ((m ++ n).setWidth 8).getLsbD 5 = m.getLsbD 1 ∧ ((m ++ n).setWidth 8).getLsbD 4 = m.getLsbD 0 := by
  constructor
  · rw [BitVec.getLsbD_setWidth, BitVec.getLsbD_append, if_neg (by decide)]
    rfl
  · rw [BitVec.getLsbD_setWidth, BitVec.getLsbD_append, if_neg (by decide)]
    rfl

/-! #### `ENCODE` then `LOAD` (R195) -/

section
variable {f : Format} {F : Fields} (fits : Encodable f F)
include fits

/-- Reading the rows of the very data that the registers make changes no register. -/
theorem readRows_packBits (C : List Bool) : readRows (rowsOf f) (packBits f F ++ C) F = F := by
  refine readRows_eq_self _ _ fun row mem => ?_
  have inside : row.off + row.len ≤ (packBits f F).length := (length_packBits f F).symm ▸ row_in_bounds f row mem
  exact (fieldRead_append C inside row.rev).trans (read_packBits fits mem)

/-- What is extracted from the registers' own secret: the registers, a Game secret's names padded. -/
theorem extract_packBits {m : BitVec 2} (mask : f = .memory → m = F.mask) (n : Nibble) :
    extract f (packBits f F ++ bin6 ((m ++ n).setWidth 8)) F =
      if f = .game then { F with link := padName F.link, child := padName F.child } else F := by
  have rows := readRows_packBits fits (bin6 ((m ++ n).setWidth 8))
  cases f with
  | game => rw [extract_game, rows, if_pos rfl]
  | ring => rw [extract_ring, rows, if_neg nofun]
  | memory =>
    obtain ⟨high, low⟩ := getD_append_bin6 (length_packBits .memory F) ((m ++ n).setWidth 8)
    obtain ⟨high', low'⟩ := getLsbD_sealedByte m n
    rw [extract_memory_eq, rows, if_neg nofun]
    exact readMask_eq_self (by rw [high, high', mask rfl]) (by rw [low, low', mask rfl])

end

section
variable (s : State)

/-- The sealed bytes: the data, then mask and checksum. -/
theorem State.sealedBytes_eq : s.sealedBytes = bitsToByteArray (packBits s.ctrl.fmt s.fields) ++
    [(encodeMask s.ctrl.fmt s.fields ++ cks (bitsToByteArray (packBits s.ctrl.fmt s.fields))).setWidth 8] := by
  rw [sealedBytes, sealBytes, calcNibble, packBytes, List.dropLast_concat]

theorem State.bitString_sealedBytes : bitString s.sealedBytes = packBits s.ctrl.fmt s.fields ++
    bin6 ((encodeMask s.ctrl.fmt s.fields ++ cks (bitsToByteArray (packBits s.ctrl.fmt s.fields))).setWidth 8) := by
  rw [sealedBytes_eq, bitString_append_singleton, bitString_bitsToByteArray _ _ (length_packBits ..)]

theorem State.extract_sealedBytes (fits : Encodable s.ctrl.fmt s.fields) :
    extract s.ctrl.fmt (bitString s.sealedBytes) s.fields = if s.ctrl.fmt = .game then
      { s.fields with link := padName s.fields.link, child := padName s.fields.child } else s.fields := by
  rw [bitString_sealedBytes]
  exact extract_packBits fits (fun memory => if_pos memory) _

/-- `LOAD` accepts what `ENCODE` made from legal registers. -/
theorem State.encoded_accepts (fits : Encodable s.ctrl.fmt s.fields) (legal : LegalFields s.fields) :
    s.encoded.Accepts s.sealedBytes where
  len := s.val_stored_len (cipher Config.chip s.ctrl.region s.sealedBytes)
  checksum := (storedNibble_sealBytes ..).symm
  discriminator := by
    rw [bitString_sealedBytes, fieldRead_append _ (discriminator_inside _ (length_packBits ..))]
    exact fieldRead_packBits_discriminator ..
  inRange := by
    obtain ⟨gameId, memory⟩ := legal
    show ¬ recordOutOfRange s.ctrl.fmt (extract s.ctrl.fmt (bitString s.sealedBytes) s.fields) = true
    rw [s.extract_sealedBytes fits]
    refine not_recordOutOfRange ?_ fun _ => ?_ <;> split
    · exact gameId
    · exact gameId
    · exact memory
    · exact memory

/-- The plain bytes of what `ENCODE` made. -/
theorem State.cipher_bytes_encoded : cipher Config.chip s.encoded.ctrl.region s.encoded.bytes = s.sealedBytes := by
  rw [bytes_encoded]
  exact cipher_cipher ..

end

/-- Settles O55: `LOAD` takes the sealed bytes of `ENCODE` apart into the registers they were made from. -/
theorem encodeThenLoadRestoresTheFields : Obligations.EncodeThenLoadRestoresTheFields := by
  intro s legal fits
  obtain ⟨-, fields, -⟩ := s.legal_iff.1 legal
  have load := loadUnder_of_accepts s.cipher_bytes_encoded (s.encoded_accepts fits fields)
  have record : (s.encoded.loaded s.sealedBytes).fields = _ := s.extract_sealedBytes fits
  refine ⟨s.encoded, s.encoded.loaded s.sealedBytes, exec_encode fits, congrArg Host.Outcome.next load, rfl, rfl, rfl,
    fun other => ?_, fun game => ?_⟩
  · rw [record, if_neg other]
  · rw [record, if_pos game]
    exact ⟨rfl, isPadded_padName _, isPadded_padName _⟩

/-! #### `LOAD` then `ENCODE` (R195, the other direction) -/

/-- Writing bytes over the valid lanes changes nothing exactly when they are those lanes. -/
theorem overlay_eq_self_iff {s : State} {T : List Byte} (length : T.length = s.len.val) :
    overlay s.buf T = s.buf ↔ T = s.bytes := by
  constructor
  · intro same
    calc T = (s.storeBytes T).bytes := (s.bytes_storeBytes T length).symm
      _ = s.bytes := congrArg (fun buf : Vector Byte 20 => buf.toList.take s.len.val) same
  · rintro rfl
    exact overlay_bytes s

/-- The cipher is one-to-one (R125). -/
theorem cipher_eq_iff {c : Config} {r : Region} {A B : List Byte} : cipher c r A = B ↔ A = cipher c r B := by
  constructor
  · rintro rfl
    exact (cipher_cipher c r A).symm
  · rintro rfl
    exact cipher_cipher c r B

/-- Regrouping gives certain bytes below 64 exactly when the sequence is theirs. -/
theorem bitsToByteArray_eq_iff {S : List Bool} {n : Nat} {A : List Byte} (whole : S.length = 6 * n)
    (legal : LegalBytes A) :
    bitsToByteArray S = A ↔ S = bitString A := by
  constructor
  · rintro rfl
    exact (bitString_bitsToByteArray S n whole).symm
  · rintro rfl
    exact bitsToByteArray_bitString A legal

/-- A byte is its own low nibble under a mask exactly when the mask is what it has above that nibble. -/
theorem mask_append_nibble_eq_iff (b : Byte) (m : BitVec 2) :
    (m ++ b.setWidth 4).setWidth 8 = b ↔ m.toNat = b.toNat / 16 := by
  have masked : ((m ++ b.setWidth 4).setWidth 8).toNat = 16 * m.toNat + b.toNat % 16 := by
    rw [BitVec.toNat_setWidth_of_le (by decide), toNat_append_nibble, BitVec.toNat_setWidth]
  rw [← BitVec.toNat_inj, masked]
  omega

theorem toNat_eq_bits (m : BitVec 2) : m.toNat = 2 * (m.getLsbD 1).toNat + (m.getLsbD 0).toNat := by
  revert m
  decide

/-- Bits 5:4 of a byte below 64. -/
theorem toNat_div_sixteen {b : Byte} (h : b.toNat < 64) :
    b.toNat / 16 = 2 * (b.getLsbD 5).toNat + (b.getLsbD 4).toNat := by
  simp only [BitVec.getLsbD, Nat.toNat_testBit]
  omega

section
variable {S : List Bool} (F : Fields)

theorem encodable_extract (f : Format) : Encodable f (extract f S F) := by
  rintro rfl
  exact behav_readRows_le S F

/-- The mask is in no row (R174). -/
theorem packBits_readMask (C : List Bool) : packBits .memory (readMask C F) = packBits .memory F :=
  packBits_congr fun row mem _ => by fin_cases mem <;> rfl

/-- The names of a Game secret can be told from its data. -/
theorem packBits_names_iff {link child : Vector Byte 5} (fits : Encodable .game F) :
    packBits .game { F with link := link, child := child } = packBits .game F ↔ link = F.link ∧ child = F.child := by
  constructor
  · intro same
    have fits' : Encodable .game { F with link := link, child := child } := fits
    have get {row : FieldRow} (mem : row ∈ rowsOf .game) :
        row.reg.get { F with link := link, child := child } = row.reg.get F := by
      rw [← read_packBits fits' mem, same, read_packBits fits mem]
    constructor
    · ext i hi : 1
      exact BitVec.eq_of_toNat_eq (get (link_rows ⟨i, hi⟩))
    · ext i hi : 1
      exact BitVec.eq_of_toNat_eq (get (child_rows ⟨i, hi⟩))
  · rintro ⟨rfl, rfl⟩
    rfl

/-- The data of the record just extracted is the data it was extracted from, exactly when no name was padded (R178). -/
theorem packBits_extract_iff {f : Format} (data : 6 * (f.size - 1) ≤ S.length)
    (disc : fieldRead S 3 2 false = f.bits.toNat) :
    packBits f (extract f S F) = S.take (6 * (f.size - 1)) ↔
      (f = .game → (readRows (rowsOf f) S F).link[4] ≠ 0 ∧ (readRows (rowsOf f) S F).child[4] ≠ 0) := by
  have rows := packBits_readRows F data disc
  rw [← rows]
  cases f with
  | game =>
    have fits : Encodable .game (readRows (rowsOf .game) S F) := fun _ => behav_readRows_le S F
    rw [extract_game, packBits_names_iff _ fits, padName_eq_self_iff, padName_eq_self_iff]
    exact ⟨fun names _ => names, fun names => names rfl⟩
  | ring =>
    rw [extract_ring]
    exact iff_of_true rfl nofun
  | memory =>
    rw [extract_memory_eq, packBits_readMask]
    exact iff_of_true rfl nofun

end

theorem byte_ne_zero_iff (b : Byte) : b ≠ 0 ↔ ∃ j < 8, b.getLsbD j = true := by
  constructor
  · intro nonzero
    by_contra none
    refine nonzero (BitVec.eq_of_getLsbD_eq fun j hj => ?_)
    exact (Bool.eq_false_iff.2 fun set => none ⟨j, hj, set⟩).trans BitVec.getLsbD_zero.symm
  · rintro ⟨j, -, set⟩ rfl
    simp at set

/-- A name read from the data ends in a null byte exactly when the positions of its last byte are zero. -/
theorem last_name_byte_ne_zero_iff {n : Byte} {off : Nat} {bit : Nat → Bool}
    (h : ∀ j < 8, n.getLsbD j = bit (off + j)) : n ≠ 0 ↔ ∃ j < 8, bit (off + j) = true := by
  rw [byte_ne_zero_iff]
  exact exists_congr fun j => and_congr_right fun hj => by rw [h j hj]

section
variable {s : State} {A : List Byte} {b : Byte} (accepts : s.Accepts (A ++ [b])) (plainLegal : LegalBytes (A ++ [b]))
  (data : A.length = s.ctrl.fmt.size - 1)
include accepts plainLegal data

/-- Encoding the registers just loaded makes the same data bytes, exactly when no name was padded. -/
theorem data_loaded_iff : bitsToByteArray (packBits s.ctrl.fmt (s.loaded (A ++ [b])).fields) = A ↔
    (s.ctrl.fmt = .game → (readRows (rowsOf s.ctrl.fmt) (bitString (A ++ [b])) s.fields).link[4] ≠ 0 ∧
      (readRows (rowsOf s.ctrl.fmt) (bitString (A ++ [b])) s.fields).child[4] ≠ 0) := by
  have dataLegal : LegalBytes A := fun x mem => plainLegal x (List.mem_append_left _ mem)
  have dataBits : (bitString A).length = 6 * (s.ctrl.fmt.size - 1) := by rw [length_bitString, data]
  have before : (bitString (A ++ [b])).take (6 * (s.ctrl.fmt.size - 1)) = bitString A := by
    rw [bitString_append_singleton, List.take_left' dataBits]
  have long : 6 * (s.ctrl.fmt.size - 1) ≤ (bitString (A ++ [b])).length := by
    rw [length_bitString, List.length_append, data]
    omega
  rw [bitsToByteArray_eq_iff (length_packBits ..) dataLegal, ← before]
  exact packBits_extract_iff s.fields long accepts.discriminator

/-- With the same data bytes the last byte is the same exactly when it has nothing above its nibble, or it is a Memory
secret's, where the mask is there. -/
theorem last_loaded_iff
    (same : bitsToByteArray (packBits s.ctrl.fmt (s.loaded (A ++ [b])).fields) = A) :
    (encodeMask s.ctrl.fmt (s.loaded (A ++ [b])).fields ++
      cks (bitsToByteArray (packBits s.ctrl.fmt (s.loaded (A ++ [b])).fields))).setWidth 8 = b ↔
    (s.ctrl.fmt ≠ .memory → b.toNat < 16) := by
  have checksum : cks A = b.setWidth 4 := by
    have agree := accepts.checksum
    rwa [calcNibble, storedNibble, List.dropLast_concat, List.getLastD_concat] at agree
  have small : b.toNat < 64 := plainLegal b (List.mem_append_right _ (.head _))
  rw [same, checksum, mask_append_nibble_eq_iff]
  by_cases memory : s.ctrl.fmt = .memory
  · have dataBits : (bitString A).length = 24 := by rw [length_bitString, data, memory]; rfl
    have record : (s.loaded (A ++ [b])).fields = readMask (bitString A ++ bin6 b)
        (readRows (rowsOf .memory) (bitString A ++ bin6 b) s.fields) := by
      rw [State.loaded, memory, bitString_append_singleton, extract_memory_eq]
    obtain ⟨high, low⟩ := readMask_mask (bitString A ++ bin6 b)
      (readRows (rowsOf .memory) (bitString A ++ bin6 b) s.fields)
    obtain ⟨high', low'⟩ := getD_append_bin6 dataBits b
    rw [encodeMask, if_pos memory, record, toNat_div_sixteen small, toNat_eq_bits, high, low, high', low']
    exact iff_of_true rfl fun other => absurd memory other
  · rw [encodeMask, if_neg memory, forall_prop_of_true memory]
    show 0 = b.toNat / 16 ↔ b.toNat < 16
    omega

/-- Encoding the registers just loaded gives the same lanes, exactly when nothing was normalised. -/
theorem encoded_loaded_buf_iff (plain : cipher Config.chip s.ctrl.region s.bytes = A ++ [b]) :
    (s.loaded (A ++ [b])).encoded.buf = s.buf ↔ (s.ctrl.fmt ≠ .memory → b.toNat < 16) ∧
      (s.ctrl.fmt = .game → (readRows (rowsOf s.ctrl.fmt) (bitString (A ++ [b])) s.fields).link[4] ≠ 0 ∧
        (readRows (rowsOf s.ctrl.fmt) (bitString (A ++ [b])) s.fields).child[4] ≠ 0) := by
  have length : (cipher Config.chip s.ctrl.region (s.loaded (A ++ [b])).sealedBytes).length = s.len.val :=
    (length_cipher ..).trans ((s.loaded (A ++ [b])).length_sealedBytes.trans accepts.len.symm)
  calc (s.loaded (A ++ [b])).encoded.buf = s.buf
      ↔ cipher Config.chip s.ctrl.region (s.loaded (A ++ [b])).sealedBytes = s.bytes := overlay_eq_self_iff length
    _ ↔ (s.loaded (A ++ [b])).sealedBytes = A ++ [b] := by rw [cipher_eq_iff, plain]
    _ ↔ _ := by
      rw [State.sealedBytes_eq, List.append_singleton_inj, and_comm, ← data_loaded_iff accepts plainLegal data]
      exact and_congr_left (last_loaded_iff accepts plainLegal data)

end

section
variable {s : State} {A : List Byte} {b : Byte}

/-- The lane of the last byte stored. -/
theorem last_lane_storeBytes {i : Nat} (lane : i < 20) (position : i = A.length) :
    (s.storeBytes (A ++ [b])).buf[i] = b := by
  subst position
  exact (getElem_overlay_of_lt (by simp) s.buf lane).trans (List.getElem_concat_length rfl _)

/-- Whether the names that a Game secret holds end in a null, by the positions of the lanes that hold its bytes. -/
theorem names_iff_positions {p : State} {T : List Byte} (seen : p.bytes = T) (len : p.len.val = Format.game.size)
    (F : Fields) : (readRows (rowsOf .game) (bitString T) F).link[4] ≠ 0 ∧
      (readRows (rowsOf .game) (bitString T) F).child[4] ≠ 0 ↔
    (∃ j < 8, p.bitAt (89 + j) = true) ∧ ∃ j < 8, p.bitAt (106 + j) = true := by
  subst seen
  exact and_congr (last_name_byte_ne_zero_iff fun _ => bit_readRows_bytes_rev len F (link_rows 4))
    (last_name_byte_ne_zero_iff fun _ => bit_readRows_bytes_rev len F (child_rows 4))

end

/-- Settles O57: `LOAD` that succeeds has passed its four checks, so `encoded_loaded_buf_iff` applies; what it says of the
plain bytes is said of the lanes after `DECIPH`. -/
theorem loadThenEncodeRestoresTheLanes : Obligations.LoadThenEncodeRestoresTheLanes := by
  intro s t p legal load ok deciph last
  obtain ⟨lanes, -, -⟩ := s.legal_iff.1 legal
  obtain ⟨T, plain⟩ : ∃ T, cipher Config.chip s.ctrl.region s.bytes = T := ⟨_, rfl⟩
  obtain rfl : loadUnder Config.chip s = t := Host.Outcome.next.inj load
  have accepts := accepts_of_err_eq_zero plain ok
  have length : T.length = s.ctrl.fmt.size := by rw [← plain, length_cipher, State.length_bytes, accepts.len]
  have plainLegal : LegalBytes T := plain ▸ lanes.bytes.cipher Config.chip s.ctrl.region
  obtain ⟨deciph', seen⟩ := exec_deciph (accepts.len ▸ s.ctrl.fmt.size_pos) plain
  obtain rfl : (s.storeBytes T).succeed = p := Host.Outcome.next.inj (deciph'.symm.trans deciph)
  rw [loadUnder_of_accepts plain accepts]
  refine ⟨(s.loaded T).encoded, exec_encode (encodable_extract s.fields s.ctrl.fmt), rfl, ?len, ?lanes⟩
  case len =>
    exact Fin.ext (((s.loaded T).val_stored_len (cipher Config.chip s.ctrl.region (s.loaded T).sealedBytes)).trans
      accepts.len.symm)
  obtain ⟨A, b, rfl⟩ : ∃ A b, T = A ++ [b] := by
    refine T.eq_nil_or_concat'.resolve_left fun empty => s.ctrl.fmt.size_pos.ne ?_
    rw [← length, empty, List.length_nil]
  have data : A.length = s.ctrl.fmt.size - 1 := by rw [← length, List.length_append]; rfl
  rw [encoded_loaded_buf_iff accepts plainLegal data plain]
  refine and_congr ?lastByte (forall_congr' fun game => ?names)
  case lastByte =>
    simp only [last, State.succeed_buf]
    split
    · next game =>
      rw [last_lane_storeBytes (by decide) (by rw [data, game]; rfl)]
      exact forall_prop_of_true (by simp [game])
    · next ring =>
      rw [last_lane_storeBytes (by decide) (by rw [data, ring]; rfl)]
      exact forall_prop_of_true (by simp [ring])
    · next memory => exact iff_of_true (fun other => absurd memory other) (show (0 : Byte).toNat < 16 by decide)
  case names =>
    rw [game]
    have len : (s.storeBytes (A ++ [b])).succeed.len.val = Format.game.size := accepts.len.trans (congrArg Format.size game)
    exact names_iff_positions seen len s.fields

end Sys2Proof.Machine
end

section
/-! ### What raises an error and what its entry writes (rules R210, R211 and R216 of `60_exceptions.md`) -/

namespace Sys2Proof.Machine

/-! #### Error entry -/

/-- Setting the sticky bit of a code sets no other bit (R216). -/
theorem getLsbD_setSticky (eacc : BitVec 7) {c : Nat} (h : c < 7) (j : Nat) :
    (eacc ||| (1#7 <<< c)).getLsbD j = (eacc.getLsbD j || decide (j = c)) := by
  rw [BitVec.getLsbD_or, ← BitVec.twoPow_eq, BitVec.getLsbD_twoPow]
  simp [h, eq_comm]

/-- No kind has code 0 or code 7 (R210). -/
theorem ErrorKind.code_lt_seven (k : ErrorKind) : k.code.toNat < 7 := by
  cases k <;> decide

/-- No two kinds share a code (R210). -/
theorem ErrorKind.code_injective {k l : ErrorKind} : k.code = l.code → k = l := by
  cases k <;> cases l <;> decide

/-- Settles O21: `EACC` is a disjunction with the one bit of the code. -/
theorem errorEntryWritesErrAndOneStickyBit : Obligations.ErrorEntryWritesErrAndOneStickyBit := by
  intro k s c
  have code : k.code.toNat = c := by cases k <;> rfl
  refine ⟨s.status.fail k, rfl, rfl, rfl, code, fun j => ?_⟩
  rw [← code]
  exact getLsbD_setSticky s.status.eacc k.code_lt_seven j

/-- What a host write that ends in an error leaves and records (R216). -/
theorem State.Ends.record_of_err_ne_zero {s t : State} (h : s.Ends t) (bad : t.status.err ≠ 0) :
    t = { s with status := t.status, chk := t.chk } ∧
    t.status.eacc = s.status.eacc ||| (1#7 <<< t.status.err.toNat) ∧
    (t.status.rhint ≠ s.status.rhint → t.status.err = 2) ∧
    (t.status.efmt ≠ s.status.efmt → t.status.err = 4 ∧ t.status.efmt = s.ctrl.fmt.bits) := by
  cases h with
  | ok => exact absurd rfl bad
  | fail => exact ⟨rfl, rfl, absurd rfl, absurd rfl⟩
  | symbol => exact ⟨rfl, rfl, fun _ => rfl, absurd rfl⟩
  | discriminator => exact ⟨rfl, rfl, absurd rfl, fun _ => ⟨rfl, rfl⟩⟩

/-! #### The table of causes -/

/-- The opcodes of the commands that can raise a kind (R211). -/
def ErrorKind.opcodes : ErrorKind → List Nat
  | .lengthError => [0x12, 0x13, 0x20, 0x21, 0x31, 0x32, 0x50, 0x52]
  | .invalidSymbol => [0x10, 0x11, 0x12, 0x13]
  | .checksum => [0x31, 0x52]
  | .discriminator => [0x50, 0x52]
  | .fieldRange => [0x41, 0x50, 0x51, 0x52, 0x53]
  | .illegalOperation => [0x14, 0x32, 0x40, 0x41]

/-- The write of `d` to `CMD` with an opcode of the kind's row. -/
def CommandCause (a : Addr) (d : Word) (k : ErrorKind) : Prop := a = 0x00 ∧ d.toNat / 2 ^ 24 ∈ k.opcodes

/-- Whether the table of causes lists the write of `d` to `a` for a kind (R211). -/
def Cause (a : Addr) (d : Word) : ErrorKind → Prop
  | .lengthError => a = 0x03 ∨ CommandCause a d .lengthError
  | .invalidSymbol => (0x10 ≤ a.toNat ∧ a.toNat ≤ 0x23) ∨ CommandCause a d .invalidSymbol
  | .checksum => CommandCause a d .checksum
  | .discriminator => CommandCause a d .discriminator
  | .fieldRange => (0x30 ≤ a.toNat ∧ a.toNat ≤ 0x35) ∨ (0x38 ≤ a.toNat ∧ a.toNat ≤ 0x3C) ∨
      (0x40 ≤ a.toNat ∧ a.toNat ≤ 0x44) ∨ CommandCause a d .fieldRange
  | .illegalOperation =>
      (a = 0x00 ∧ ((∀ i, decode d ≠ .ok i) ∨ d.toNat / 2 ^ 24 ∈ ErrorKind.illegalOperation.opcodes)) ∨
      a = 0x02 ∨ a = 0x01 ∨ (0x04 ≤ a.toNat ∧ a.toNat ≤ 0x07) ∨ (0x0A ≤ a.toNat ∧ a.toNat ≤ 0x0F) ∨
      (0x24 ≤ a.toNat ∧ a.toNat ≤ 0x2F) ∨ (0x3D ≤ a.toNat ∧ a.toNat ≤ 0x3F) ∨ 0x45 ≤ a.toNat

/-- The word of `CKVFY` or of `LOAD`, the two commands that record `CHK` before they can fail (R138, R190). -/
def RecordsChk (a : Addr) (d : Word) : Prop := a = 0x00 ∧ (d = 0x31000000 ∨ d = 0x52000000)

theorem CommandCause.cause {a : Addr} {d : Word} {k : ErrorKind} (h : CommandCause a d k) : Cause a d k := by
  cases k with
  | checksum | discriminator => exact h
  | lengthError | invalidSymbol => exact .inr h
  | fieldRange => exact .inr (.inr (.inr h))
  | illegalOperation => exact .inl (h.imp_right .inr)

/-! A word of each format whose opcode, a literal of `exec`'s arms below, is in the kind's row. -/

section
variable {op : BitVec 8} {k : ErrorKind} (mem : op.toNat ∈ k.opcodes := by decide)
include mem

theorem cause_of_opcode {w : Word} (opcode : w.extractLsb' 24 8 = op) : Cause 0x00 w k :=
  CommandCause.cause ⟨rfl, by rwa [← toNat_opcode, opcode]⟩

theorem cause_wordZ : Cause 0x00 (wordZ op) k := cause_of_opcode mem (wordZ_opcode op)

theorem cause_wordI {imm : BitVec 8} : Cause 0x00 (wordI op imm) k := cause_of_opcode mem (wordI_opcode op imm)

theorem cause_wordG {g : Glyph} : Cause 0x00 (wordG op g) k := cause_of_opcode mem (wordG_opcode op g)

theorem cause_wordF {off len : BitVec 7} {rev : Bool} : Cause 0x00 (wordF op off len rev) k :=
  cause_of_opcode mem (wordF_opcode op off len rev)

end

/-- Only an address without a register is unmapped (R51). -/
theorem unmapped_of_targetOf : ∀ a : Addr, targetOf a = .unmapped → Unmapped a := by
  decide

theorem Unmapped.cause {a : Addr} (h : Unmapped a) (d : Word) : Cause a d .illegalOperation :=
  .inr (.inr (.inr (h.imp_left fun seven => by omega)))

theorem fieldRange_cause_link (i : Fin 5) (d : Word) : Cause (Reg.link i).addr d .fieldRange :=
  .inr (.inl (by revert i; decide))

theorem fieldRange_cause_child (i : Fin 5) (d : Word) : Cause (Reg.child i).addr d .fieldRange :=
  .inr (.inr (.inl (by revert i; decide)))

theorem invalidSymbol_cause_buf (i : Fin 20) (d : Word) : Cause (Reg.buf i).addr d .invalidSymbol :=
  .inl (by revert i; decide)

/-! #### Every end of a host write has its cause -/

/-- How the write of `d` to `a` can end: without error, or with an error that it is a cause of, `CHK` then being as
before unless the write records it. -/
inductive State.EndsByCause (s : State) (a : Addr) (d : Word) : State → Prop where
  | ok {t : State} (err : t.status.err = 0) : s.EndsByCause a d t
  | fail {t : State} (k : ErrorKind) (cause : Cause a d k) (err : t.status.err = k.code)
      (chk : t.chk = s.chk ∨ RecordsChk a d) : s.EndsByCause a d t

namespace State.EndsByCause

section
variable {s t u : State} {a : Addr} {d : Word} {k : ErrorKind}

theorem raise (cause : Cause a d k) : s.EndsByCause a d (s.raise k) := .fail k cause rfl (.inl rfl)

theorem symbol (cause : Cause a d .invalidSymbol) {hint : Bool} : s.EndsByCause a d (s.raiseInvalidSymbol hint) :=
  .fail .invalidSymbol cause rfl (.inl rfl)

/-- The two ways of a check. -/
theorem ite {p : Prop} [Decidable p] (ht : s.EndsByCause a d t) (hu : s.EndsByCause a d u) :
    s.EndsByCause a d (if p then t else u) := by
  split
  · exact ht
  · exact hu

/-- A code other than 0 is that of a kind with a cause. -/
theorem cause (h : s.EndsByCause a d t) (err : t.status.err = k.code) : Cause a d k := by
  cases h with
  | ok ok => exact absurd (err.symm.trans ok) k.code_ne_zero
  | fail l cause err' => exact ErrorKind.code_injective (err'.symm.trans err) ▸ cause

theorem err_ne_seven (h : s.EndsByCause a d t) : t.status.err ≠ 7 := by
  intro seven
  cases h with
  | ok ok => exact absurd (ok.symm.trans seven) (by decide)
  | fail k _ err => exact k.code_lt_seven.ne (congrArg BitVec.toNat (err.symm.trans seven))

theorem chk_of_err_ne_zero (h : s.EndsByCause a d t) (bad : t.status.err ≠ 0) : t.chk = s.chk ∨ RecordsChk a d := by
  cases h with
  | ok ok => exact absurd ok bad
  | fail _ _ _ chk => exact chk

end

end State.EndsByCause

section
variable {a : Addr} {d : Word} {s : State}

/-- Discriminator, extraction and range check (R182), also after a record of `CHK` (R190). -/
theorem takeRecord_endsByCause (discriminator : Cause a d .discriminator) (range : Cause a d .fieldRange)
    (T : List Byte) {u : State} (chk : u.chk = s.chk ∨ RecordsChk a d) : s.EndsByCause a d (takeRecord T u) :=
  .ite (.fail .discriminator discriminator rfl chk) (.ite (.fail .fieldRange range rfl chk) (.ok rfl))

/-- `C2V` (R106). -/
theorem c2vUnder_endsByCause (symbol : Cause a d .invalidSymbol) (c : Config) (g : Glyph) :
    s.EndsByCause a d (c2vUnder c g s) := by
  unfold c2vUnder
  cases c2v c s.ctrl.region g with
  | none => exact .symbol symbol
  | some v => exact .ok rfl

/-- `PUSHC` (R103). -/
theorem pushcUnder_endsByCause (symbol : Cause a d .invalidSymbol) (length : Cause a d .lengthError) (c : Config)
    (g : Glyph) : s.EndsByCause a d (pushcUnder c g s) := by
  unfold pushcUnder
  cases c2v c s.ctrl.region g with
  | none => exact .ite (.ok rfl) (.symbol symbol)
  | some v => exact .ite (.ok rfl) (.ite (.raise length) (.ok rfl))

/-- The cipher commands (R123, R124). -/
theorem cipherBuffer_endsByCause (length : Cause a d .lengthError) (c : Config) :
    s.EndsByCause a d (cipherBuffer c s) :=
  .ite (.raise length) (.ok rfl)

/-- A range-checked write to a field register (R218). -/
theorem writeField_endsByCause (range : Cause a d .fieldRange) {max : Nat} {F : Fields} :
    s.EndsByCause a d (s.writeField d max F) :=
  .ite (.raise range) (.ok rfl)

end

/-- `CKVFY` (R138). -/
theorem ckvfy_endsByCause (s : State) : ∃ t, execCkvfy s = .next t ∧ s.EndsByCause 0x00 (wordZ 0x31) t :=
  ⟨_, rfl, .ite (.raise cause_wordZ) (.ite (.ok rfl) (.fail .checksum cause_wordZ rfl (.inr ⟨rfl, .inl rfl⟩)))⟩

/-- `LOAD` (R190). -/
theorem loadUnder_endsByCause (c : Config) (s : State) : s.EndsByCause 0x00 (wordZ 0x52) (loadUnder c s) := by
  have records : RecordsChk 0x00 (wordZ 0x52) := ⟨rfl, .inr rfl⟩
  exact .ite (.raise cause_wordZ) (.ite (.fail .checksum cause_wordZ rfl (.inr records))
    (takeRecord_endsByCause cause_wordZ cause_wordZ _ (.inr records)))

/-- A command raises only the kinds whose rows have its opcode. -/
theorem exec_endsByCause (i : Instr) (s : State) :
    ∃ t, exec i s = .next t ∧ s.EndsByCause 0x00 (encode i) t := by
  cases i with
  | nop | clr | clrerr | clrbuf | cksum => exact ⟨_, rfl, .ok rfl⟩
  | c2v g => exact ⟨_, rfl, c2vUnder_endsByCause cause_wordG Config.chip g⟩
  | pushc g => exact ⟨_, rfl, pushcUnder_endsByCause cause_wordG cause_wordG Config.chip g⟩
  | v2c v => exact ⟨_, rfl, .ite (.symbol cause_wordI) (.ok rfl)⟩
  | pushb b => exact ⟨_, rfl, .ite (.symbol cause_wordI) (.ite (.raise cause_wordI) (.ok rfl))⟩
  | rdsym n => exact ⟨_, rfl, .ite (.raise cause_wordI) (.ok rfl)⟩
  | deciph | enciph => exact ⟨_, rfl, cipherBuffer_endsByCause cause_wordZ Config.chip⟩
  | ckvfy => exact ckvfy_endsByCause s
  | ckwr m => exact ⟨_, rfl, .ite (.raise cause_wordI) (.ite (.raise cause_wordI) (.ok rfl))⟩
  | bfrd off len rev => exact ⟨_, rfl, .ite (.raise cause_wordF) (.ok rfl)⟩
  | bfwr off len rev => exact ⟨_, rfl, .ite (.raise cause_wordF) (.ite (.raise cause_wordF) (.ok rfl))⟩
  | unpack =>
    exact ⟨_, rfl, .ite (.raise cause_wordZ) (takeRecord_endsByCause cause_wordZ cause_wordZ s.bytes (.inl rfl))⟩
  | pack | encode => exact ⟨_, rfl, .ite (.raise cause_wordZ) (.ok rfl)⟩
  | load => exact ⟨_, rfl, loadUnder_endsByCause Config.chip s⟩

theorem writeCtrl_endsByCause (d : Word) (s : State) : s.EndsByCause 0x02 d (s.writeCtrl d) := by
  have illegal : Cause 0x02 d .illegalOperation := .inr (.inl rfl)
  unfold State.writeCtrl
  cases Ctrl.ofBits (d.extractLsb' 0 3) with
  | none => exact .raise illegal
  | some c => exact .ite (.raise illegal) (.ok rfl)

theorem writeLen_endsByCause (d : Word) (s : State) : s.EndsByCause 0x03 d (s.writeLen d) := by
  unfold State.writeLen
  split
  · exact .ok rfl
  · exact .raise (.inl rfl)

/-- A register write raises only the kinds whose rows have its address. -/
theorem writeReg_endsByCause (d : Word) (s : State) (r : Reg) : s.EndsByCause r.addr d (writeReg d s r) := by
  cases r with
  | status => exact .raise (.inr (.inr (.inl rfl)))
  | res | chk | behcls => exact .raise (.inr (.inr (.inr (.inl (by decide)))))
  | ctrl => exact writeCtrl_endsByCause d s
  | len => exact writeLen_endsByCause d s
  | dataLo | dataHi | ringsLo | ringsHi => exact .ok rfl
  | buf i => exact .ite (.symbol (invalidSymbol_cause_buf i d)) (.ok rfl)
  | keysel | gameId | flags | behav | companion | memory => exact writeField_endsByCause (.inl (by decide))
  | link i => exact writeField_endsByCause (fieldRange_cause_link i d)
  | child i => exact writeField_endsByCause (fieldRange_cause_child i d)

/-- A host write raises only the kinds that the table of causes lists for it (R211). -/
theorem hostWrite_endsByCause (a : Addr) (d : Word) (s : State) :
    ∃ t, hostWrite a d s = .next t ∧ s.EndsByCause a d t := by
  rcases hostWrite_cases a d s with ⟨ha, run⟩ | ⟨r, ha, run⟩ | ⟨ha, run⟩
  · obtain rfl := eq_zero_of_targetOf ha
    cases decoded : decode d with
    | ok i =>
      obtain ⟨t, run', h⟩ := exec_endsByCause i s
      exact ⟨t, by rw [run, runCommand_ok decoded, run'], encode_of_decode decoded ▸ h⟩
    | error e =>
      have undecodable : ∀ i, decode d ≠ .ok i := by simp [decoded]
      exact ⟨_, run.trans (runCommand_error decoded s), .raise (.inl ⟨rfl, .inl undecodable⟩)⟩
  · obtain rfl := eq_addr_of_targetOf ha
    exact ⟨_, run, writeReg_endsByCause d s r⟩
  · exact ⟨_, run, .raise ((unmapped_of_targetOf a ha).cause d)⟩

theorem endsByCause_of_hostWrite {a : Addr} {d : Word} {s t : State} (run : hostWrite a d s = .next t) :
    s.EndsByCause a d t := by
  obtain ⟨u, run', h⟩ := hostWrite_endsByCause a d s
  obtain rfl := Host.Outcome.next.inj (run.symm.trans run')
  exact h

/-- Settles O22: `CLR` and `CLRERR` end without error, and any other end writes its record only. -/
theorem failedWriteChangesOnlyItsRecord : Obligations.FailedWriteChangesOnlyItsRecord := by
  intro s t a d run bad
  have chk := (endsByCause_of_hostWrite run).chk_of_err_ne_zero bad
  obtain ⟨u, run', h⟩ := hostWrite_ends a d s
  obtain rfl := Host.Outcome.next.inj (run.symm.trans run')
  rcases h with ⟨-, ⟨-, rfl⟩ | ⟨-, rfl⟩⟩ | ends
  · exact absurd rfl bad
  · exact absurd rfl bad
  · obtain ⟨frame, eacc, rhint, efmt⟩ := ends.record_of_err_ne_zero bad
    exact ⟨frame, eacc, chk.resolve_left, rhint, efmt⟩

/-- Settles O24: a write ends with the code of a kind only when the kind's row of the table lists it. -/
theorem errorKindsHaveOnlyTheirCauses : Obligations.ErrorKindsHaveOnlyTheirCauses := by
  intro s t a d run
  have ends := endsByCause_of_hostWrite run
  exact ⟨ends.err_ne_seven, ends.cause (k := .lengthError), ends.cause (k := .invalidSymbol),
    ends.cause (k := .checksum), ends.cause (k := .discriminator), ends.cause (k := .fieldRange),
    ends.cause (k := .illegalOperation)⟩

end Sys2Proof.Machine
end
